-- ==== Sys2Proof/Word.lean ====
section
/-!
DEFINITION. The word types of the block (00_scope.md R8, R10): every width the spec gives.
All values are unsigned.
-/

namespace Sys2Proof

/-- A byte of the byte stream, a field byte or a payload byte (20_memory.md R64). -/
abbrev Byte := BitVec 8

/-- A 16-bit word: the sync register, a frame of 16 cells, a CRC. -/
abbrev Word16 := BitVec 16

/-- A register value as RDREG returns it, a configuration value or a counter (10_state.md R37, R42). -/
abbrev Word32 := BitVec 32

/-- An edge timestamp, TS_W = 64 bits (00_scope.md R8). -/
abbrev Timestamp := BitVec 64

/-- A scaled time, a time in samples multiplied by CFG_BF: 96 bits (00_scope.md R8). -/
abbrev Scaled := BitVec 96

/-- A payload length or index, 14 bits (10_state.md R29). -/
abbrev Len14 := BitVec 14

/-- A host transaction word W: TAG = W[67:64], PAYLOAD = W[63:0] (30_encoding.md R80). -/
abbrev HostWord := BitVec 68

end Sys2Proof
end

