-- ==== Sys2Proof/Config.lean ====
section
/-!
DEFINITION. The parameters of the block (00_scope.md R8): the fixed constants, and the one model parameter TIE_RULE with
its two values.
-/

namespace Sys2Proof

/-- TIE_RULE, how `round` treats an exact half (41_flux_demodulator.md R122): a parameter of the machine, one of two
values. The machine holds it in State, where no step writes it (log 4). -/
inductive TieRule where
  | halfEven
  | halfUp
  deriving DecidableEq, Repr

namespace Config

/-- The default of TIE_RULE (00_scope.md R8: "HALF_EVEN (default)"). DESIGN CHOICE (log 4), unsafe: the machine after reset
takes the default. -/
def defaultTieRule : TieRule := .halfEven

/-- SYNC_PATTERN, `0x4489` (00_scope.md R8, 30_encoding.md R92). -/
def syncPattern : Word16 := 0x4489#16

/-- MAX_SIZE_CODE, the largest valid size code (00_scope.md R8, 30_encoding.md R96). -/
def maxSizeCode : Byte := 6#8

/-- BUF_BYTES, the capacity of the payload buffer (00_scope.md R8, 10_state.md R30). -/
def bufBytes : Nat := 8192

/-- What a byte of BUF that nothing has written reads as. The spec leaves the reset content of BUF unspecified and lets a
model take zeros (70_reset_and_hazards.md R321). DESIGN CHOICE (log 3), unsafe. -/
def bufUnwritten : Byte := 0#8

/-- The CRC polynomial (00_scope.md R8, 44_crc16.md R230). -/
def crcPoly : Word16 := 0x1021#16

/-- The initial value of the CRC register (00_scope.md R8, 44_crc16.md R231). -/
def crcInit : Word16 := 0xFFFF#16

/-- The ID address mark (30_encoding.md R93). -/
def idMark : Byte := 0xFE#8

/-- The data address mark (30_encoding.md R93). -/
def dataMark : Byte := 0xFB#8

/-- The three preamble bytes that begin every CRC computation before the mark (44_crc16.md R233). -/
def crcPreamble : List Byte := [0xA1#8, 0xA1#8, 0xA1#8]

end Config

end Sys2Proof
end

