-- ==== Sys2Proof/Syntax.lean ====
section
/-!
DEFINITION. The operations of the block: one constructor of `Instr` per row of spec/opcode_table.json; the states of the
sector parser, on which the reading of a byte depends; and the items that stand at the block's inputs.
-/

namespace Sys2Proof

/-- FSM_STATE, the state of the sector parser (10_state.md R28); codes 12 to 15 are never held (log 13). -/
inductive FsmState where
  /-- 0: no parser instance since reset -/
  | none
  /-- 1: the next byte is the address mark -/
  | addressMark
  /-- 2: the next byte is the track -/
  | idTrack
  /-- 3: the next byte is the side -/
  | idSide
  /-- 4: the next byte is the sector -/
  | idSector
  /-- 5: the next byte is the size code -/
  | idSize
  /-- 6: the next byte is the high byte of the found ID CRC -/
  | idCrcHi
  /-- 7: the next byte is the low byte of the found ID CRC -/
  | idCrcLo
  /-- 8: the next byte is payload byte DATA_IDX -/
  | data
  /-- 9: the next byte is the high byte of the found data CRC -/
  | dataCrcHi
  /-- 10: the next byte is the low byte of the found data CRC -/
  | dataCrcLo
  /-- 11: bytes are ignored until the next lock -/
  | terminated
  deriving DecidableEq, Repr

/-- The operations: the host transactions of 30_encoding.md R81, then the operations of the internal interfaces
(30_encoding.md section 3), in the order of the opcode table. -/
inductive Instr where
  /-- RESET, 45_host_control.md R251 -/
  | reset
  /-- CFG_SR, 45_host_control.md R252 -/
  | cfgSr (value : Word32)
  /-- CFG_BF, 45_host_control.md R253 -/
  | cfgBf (value : Word32)
  /-- EDGE, 41_flux_demodulator.md R120 -/
  | edge (t : Timestamp)
  /-- END, 45_host_control.md R254 -/
  | endRun
  /-- RDREG, 45_host_control.md R255 -/
  | rdreg (index : Byte)
  /-- RESERVED_0, 45_host_control.md R256 -/
  | reserved0
  /-- RESERVED_7, 45_host_control.md R256 -/
  | reserved7
  /-- RESERVED_8_TO_F, 45_host_control.md R256 -/
  | reserved8ToF (tag : BitVec 4)
  /-- CELL, one bit cell with its scaled interval, 42_sync_and_clock.md R150 -/
  | cell (b : Bool) (start stop : Scaled)
  /-- SYNC_LOCK, the lock cell and its end, 42_sync_and_clock.md R152 -/
  | syncLock (b : Bool) (stop : Scaled)
  /-- MFM_CLOCK_CELL, the first cell of a pair, 42_sync_and_clock.md R154 -/
  | mfmClockCell (b : Bool) (start : Scaled)
  /-- MFM_DATA_CELL, the second cell of a pair, 42_sync_and_clock.md R155 and R156 -/
  | mfmDataCell (b : Bool) (stop : Scaled)
  /-- BYTE_FRAME, the 16 cells c7 d7 ... c0 d0 (the earliest in bit 15) from a scaled start, 42_sync_and_clock.md R156 -/
  | byteFrame (cells : Word16) (start : Scaled)
  /-- AM_ID, 43_sector_fsm.md R183 -/
  | amId
  /-- AM_DATA, 43_sector_fsm.md R184 -/
  | amData
  /-- AM_DATA_NO_ID, 43_sector_fsm.md R185 -/
  | amDataNoId
  /-- AM_OTHER, 43_sector_fsm.md R186 -/
  | amOther (v : Byte)
  /-- ID_TRACK, 43_sector_fsm.md R187 -/
  | idTrack (v : Byte)
  /-- ID_SIDE, 43_sector_fsm.md R188 -/
  | idSide (v : Byte)
  /-- ID_SECTOR, 43_sector_fsm.md R189 -/
  | idSector (v : Byte)
  /-- ID_SIZE_VALID, 43_sector_fsm.md R190 -/
  | idSizeValid (v : Byte)
  /-- ID_SIZE_INVALID, 43_sector_fsm.md R191 -/
  | idSizeInvalid (v : Byte)
  /-- ID_CRC_HI, 43_sector_fsm.md R192 -/
  | idCrcHi (v : Byte)
  /-- ID_CRC_LO, 43_sector_fsm.md R193 -/
  | idCrcLo (v : Byte)
  /-- DATA_BYTE, 43_sector_fsm.md R194 -/
  | dataByte (v : Byte)
  /-- DATA_CRC_HI, 43_sector_fsm.md R195 -/
  | dataCrcHi (v : Byte)
  /-- DATA_CRC_LO, 43_sector_fsm.md R196 -/
  | dataCrcLo (v : Byte)
  /-- BYTE_TERMINATED, 43_sector_fsm.md R197 -/
  | byteTerminated (v : Byte)
  /-- BYTE_NONE, 43_sector_fsm.md R182 -/
  | byteNone (v : Byte)
  /-- CRC_STEP, 44_crc16.md R230 -/
  | crcStep (c : Word16) (x : Byte)
  deriving DecidableEq, Repr

/-- What stands at an input of the block, still encoded. A platform drives the first kind only; the others are the internal
interfaces that 30_encoding.md section 3 lets a model expose to test one sub-block alone (log 7). -/
inductive Item where
  /-- a host transaction word (30_encoding.md R80) -/
  | host (w : HostWord)
  /-- a bit cell on the FD-to-SD/CV interface (30_encoding.md R88) -/
  | cell (b : Bool) (start stop : Scaled)
  /-- a `Lock` signal: the lock cell and its end (30_encoding.md R89) -/
  | lock (b : Bool) (stop : Scaled)
  /-- the first cell of a pair, at the chunker (30_encoding.md R90) -/
  | clockCell (b : Bool) (start : Scaled)
  /-- the second cell of a pair, at the chunker (30_encoding.md R90) -/
  | dataCell (b : Bool) (stop : Scaled)
  /-- a byte frame: 16 cells, the earliest in bit 15 (30_encoding.md R91) -/
  | frame (cells : Word16) (start : Scaled)
  /-- a `Byte(v, S, E)` on the CV-to-SP interface (30_encoding.md R89) -/
  | byte (v : Byte) (start stop : Scaled)
  /-- one byte into a CRC register (44_crc16.md R230) -/
  | crc (c : Word16) (x : Byte)
  deriving DecidableEq, Repr

/-- The part of the state that the reading of a byte depends on: the "format" column of the opcode table's byte rows,
FSM_STATE and, for `0xFB`, ID_VALID (43_sector_fsm.md R199). -/
structure Context where
  fsm : FsmState
  idValid : Bool
  deriving DecidableEq, Repr

end Sys2Proof
end

