-- ==== Sys2Proof/WellFormed.lean ====
section
/-!
DEFINITION. Which terms of `Instr` are operations of the opcode table: the operand conditions its rows state.
-/

namespace Sys2Proof

/-- The operand conditions of the rows: the tag range of RESERVED_8_TO_F (30_encoding.md R81), `S < E` of a cell (R88), a
lock cell is a 1 (42_sync_and_clock.md R158), the byte classes of the address mark (R93) and of the size code (R96). -/
def Instr.wf (i : Instr) : Bool :=
  match i with
  | .reset => true
  | .cfgSr _ => true
  | .cfgBf _ => true
  | .edge _ => true
  | .endRun => true
  | .rdreg _ => true
  | .reserved0 => true
  | .reserved7 => true
  | .reserved8ToF tag => decide (8 ≤ tag.toNat)
  | .cell _ start stop => decide (start.toNat < stop.toNat)
  | .syncLock b _ => b
  | .mfmClockCell _ _ => true
  | .mfmDataCell _ _ => true
  | .byteFrame _ _ => true
  | .amId => true
  | .amData => true
  | .amDataNoId => true
  | .amOther v => decide (v ≠ Config.idMark ∧ v ≠ Config.dataMark)
  | .idTrack _ => true
  | .idSide _ => true
  | .idSector _ => true
  | .idSizeValid v => decide (v.toNat ≤ Config.maxSizeCode.toNat)
  | .idSizeInvalid v => decide (Config.maxSizeCode.toNat < v.toNat)
  | .idCrcHi _ => true
  | .idCrcLo _ => true
  | .dataByte _ => true
  | .dataCrcHi _ => true
  | .dataCrcLo _ => true
  | .byteTerminated _ => true
  | .byteNone _ => true
  | .crcStep _ _ => true

end Sys2Proof
end

