-- ==== Sys2Proof/Decode.lean ====
section
/-!
DEFINITION. From what stands at an input to an operation, and back (30_encoding.md R80 to R83, R88 to R97). Host words are
read by their TAG; a byte is read by the state of the sector parser, as the opcode table's "format" column says.
-/

namespace Sys2Proof

/-- TAG = W[67:64] (30_encoding.md R80). -/
def hostTag (w : HostWord) : BitVec 4 := w.extractLsb' 64 4

/-- PAYLOAD = W[63:0] (30_encoding.md R80). -/
def hostPayload (w : HostWord) : BitVec 64 := w.extractLsb' 0 64

/-- The word with a given TAG and PAYLOAD (30_encoding.md R80). -/
def hostWord (tag : BitVec 4) (payload : BitVec 64) : HostWord := tag ++ payload

/-- The transaction a host word is (30_encoding.md R81 to R83): total, the reserved tags included; the PAYLOAD bits a
transaction does not use are ignored. -/
def decodeHost (w : HostWord) : Instr :=
  match (hostTag w).toNat with
  | 0 => .reserved0
  | 1 => .reset
  | 2 => .cfgSr ((hostPayload w).extractLsb' 0 32)
  | 3 => .cfgBf ((hostPayload w).extractLsb' 0 32)
  | 4 => .edge (hostPayload w)
  | 5 => .endRun
  | 6 => .rdreg ((hostPayload w).extractLsb' 0 8)
  | 7 => .reserved7
  | _ => .reserved8ToF (hostTag w)

/-- The row a byte is (43_sector_fsm.md R181, R199): it depends on FSM_STATE and, for `0xFB`, on ID_VALID. -/
def decodeByte (c : Context) (v : Byte) : Instr :=
  match c.fsm with
  | .none => .byteNone v
  | .addressMark =>
    if v = Config.idMark then .amId
    else if v = Config.dataMark then (if c.idValid then .amData else .amDataNoId)
    else .amOther v
  | .idTrack => .idTrack v
  | .idSide => .idSide v
  | .idSector => .idSector v
  | .idSize => if v.toNat ≤ Config.maxSizeCode.toNat then .idSizeValid v else .idSizeInvalid v
  | .idCrcHi => .idCrcHi v
  | .idCrcLo => .idCrcLo v
  | .data => .dataByte v
  | .dataCrcHi => .dataCrcHi v
  | .dataCrcLo => .dataCrcLo v
  | .terminated => .byteTerminated v

/-- The operation an input item is. The interval of a byte is dropped: no rule of 43_sector_fsm.md uses it (R181; log 12). -/
def decode (c : Context) (it : Item) : Instr :=
  match it with
  | .host w => decodeHost w
  | .cell b start stop => .cell b start stop
  | .lock b stop => .syncLock b stop
  | .clockCell b start => .mfmClockCell b start
  | .dataCell b stop => .mfmDataCell b stop
  | .frame cells start => .byteFrame cells start
  | .byte v _ _ => decodeByte c v
  | .crc reg x => .crcStep reg x

/-- A byte item for an operation that has no interval of its own (log 12). -/
def byteItem (v : Byte) : Item := .byte v 0 0

/-- The item an operation is written as; ignored PAYLOAD bits are 0, as the assembler writes them (30_encoding.md R100). -/
def encode (i : Instr) : Item :=
  match i with
  | .reset => .host (hostWord 1 0)
  | .cfgSr value => .host (hostWord 2 (value.setWidth 64))
  | .cfgBf value => .host (hostWord 3 (value.setWidth 64))
  | .edge t => .host (hostWord 4 t)
  | .endRun => .host (hostWord 5 0)
  | .rdreg index => .host (hostWord 6 (index.setWidth 64))
  | .reserved0 => .host (hostWord 0 0)
  | .reserved7 => .host (hostWord 7 0)
  | .reserved8ToF tag => .host (hostWord tag 0)
  | .cell b start stop => .cell b start stop
  | .syncLock b stop => .lock b stop
  | .mfmClockCell b start => .clockCell b start
  | .mfmDataCell b stop => .dataCell b stop
  | .byteFrame cells start => .frame cells start
  | .amId => byteItem Config.idMark
  | .amData => byteItem Config.dataMark
  | .amDataNoId => byteItem Config.dataMark
  | .amOther v => byteItem v
  | .idTrack v => byteItem v
  | .idSide v => byteItem v
  | .idSector v => byteItem v
  | .idSizeValid v => byteItem v
  | .idSizeInvalid v => byteItem v
  | .idCrcHi v => byteItem v
  | .idCrcLo v => byteItem v
  | .dataByte v => byteItem v
  | .dataCrcHi v => byteItem v
  | .dataCrcLo v => byteItem v
  | .byteTerminated v => byteItem v
  | .byteNone v => byteItem v
  | .crcStep c x => .crc c x

/-- Whether a byte is read as this row in this context: the "format" column of the opcode table's byte rows. An operation of
another interface is read as itself in every context. -/
def Instr.fits (i : Instr) (c : Context) : Bool :=
  match i with
  | .amId => decide (c.fsm = .addressMark)
  | .amData => decide (c.fsm = .addressMark) && c.idValid
  | .amDataNoId => decide (c.fsm = .addressMark) && !c.idValid
  | .amOther _ => decide (c.fsm = .addressMark)
  | .idTrack _ => decide (c.fsm = .idTrack)
  | .idSide _ => decide (c.fsm = .idSide)
  | .idSector _ => decide (c.fsm = .idSector)
  | .idSizeValid _ => decide (c.fsm = .idSize)
  | .idSizeInvalid _ => decide (c.fsm = .idSize)
  | .idCrcHi _ => decide (c.fsm = .idCrcHi)
  | .idCrcLo _ => decide (c.fsm = .idCrcLo)
  | .dataByte _ => decide (c.fsm = .data)
  | .dataCrcHi _ => decide (c.fsm = .dataCrcHi)
  | .dataCrcLo _ => decide (c.fsm = .dataCrcLo)
  | .byteTerminated _ => decide (c.fsm = .terminated)
  | .byteNone _ => decide (c.fsm = .none)
  | _ => true

/-! ### Words as the opcode table numbers them -/

/-- Why a numbered word is no item: no interface carries words of that many bits, or the number does not fit. -/
inductive DecodeError where
  /-- no interface of the block carries words of `nbits` bits -/
  | noSuchFormat (nbits : Nat)
  /-- the number has a bit above the format's width -/
  | tooWide (nbits w : Nat)
  deriving DecidableEq, Repr

/-- The item with a given number of bits (log 11): 68 bits, or 72 as whole bytes, a host word; 8 a byte; 16 the sync pattern
or else a frame of 16 cells; 24 a CRC register above a byte; 193, or 200 as whole bytes, a cell `b`, `S`, `E` from bit 0.
DESIGN CHOICE (log 11), safe: 8 and 16 bits carry no scaled time, so a lock ends at 0 (it emits `LOCK(0)`), a frame starts at 0,
and a byte has the interval 0, 0. -/
def tableItem (nbits w : Nat) : Except DecodeError Item :=
  match nbits with
  | 8 => if w < 2 ^ 8 then .ok (byteItem (BitVec.ofNat 8 w)) else .error (.tooWide nbits w)
  | 16 =>
    if 2 ^ 16 ≤ w then .error (.tooWide nbits w)
    else if w = Config.syncPattern.toNat then .ok (.lock true 0)
    else .ok (.frame (BitVec.ofNat 16 w) 0)
  | 24 =>
    if w < 2 ^ 24 then .ok (.crc (BitVec.ofNat 16 (w >>> 8)) (BitVec.ofNat 8 w)) else .error (.tooWide nbits w)
  | 68 => if w < 2 ^ 68 then .ok (.host (BitVec.ofNat 68 w)) else .error (.tooWide nbits w)
  | 72 => if w < 2 ^ 68 then .ok (.host (BitVec.ofNat 68 w)) else .error (.tooWide nbits w)
  | 193 => if w < 2 ^ 193 then .ok (tableCell w) else .error (.tooWide nbits w)
  | 200 => if w < 2 ^ 193 then .ok (tableCell w) else .error (.tooWide nbits w)
  | _ => .error (.noSuchFormat nbits)
where
  /-- `b` in bit 0, `S` in bits 96:1, `E` in bits 192:97. -/
  tableCell (w : Nat) : Item := .cell (w.testBit 0) (BitVec.ofNat 96 (w >>> 1)) (BitVec.ofNat 96 (w >>> 97))

/-- The context in which a numbered byte is read: the first byte after the first lock of a run (log 11). -/
def tableContext : Context := { fsm := .addressMark, idValid := false }

/-- The operation the decoder reads from a numbered word. -/
def decodeTableWord (nbits w : Nat) : Option Instr :=
  match tableItem nbits w with
  | .ok it => some (decode tableContext it)
  | .error _ => none

end Sys2Proof
end

