-- ==== Sys2Proof/Machine/State.lean ====
section
/-!
DEFINITION. The state of the block: every element of 10_state.md at its width, the model parameter TIE_RULE, and the model's
own fields `input`, `out` and `crcPort`; the events; the reasons to stop; the state after reset.
-/

namespace Sys2Proof.Machine

/-- An output event: one constructor per KIND, its fields in the order and at the widths of 30_encoding.md R86. -/
inductive Event where
  /-- 0x1: an edge gap that maps to no cell, its two raw timestamps -/
  | drop (prev this : Timestamp)
  /-- 0x2: a sync lock, the scaled end of the lock cell -/
  | lock (t : Scaled)
  /-- 0x3: a clock bit that breaks the MFM rule: the pair's interval, the clock received and the clock required -/
  | clkErr (start stop : Scaled) (clock expected : Bool)
  /-- 0x4: the byte received where an address mark was due -/
  | badAm (value : Byte)
  /-- 0x5: a data address mark with no ID established -/
  | dataNoId
  /-- 0x6: the rejected size code -/
  | badSize (code : Byte)
  /-- 0x7: an ID field CRC mismatch -/
  | idCrcErr (found computed : Word16)
  /-- 0x8: a sector record; `payload` holds `length` bytes in arrival order -/
  | record (cylinder head sector : Byte) (length : Len14) (payload : List Byte) (found computed : Word16)
  /-- 0x9: a register value -/
  | regValue (index : Byte) (value : Word32)
  /-- 0xA: the end of the run -/
  | eos
  deriving DecidableEq, Repr

/-- Why a step stops. No input of the block stops it (60_exceptions.md R280); the one fault is the model's own. -/
inductive Fault where
  /-- Raised by the byte rules of the sector parser (43_sector_fsm.md R194, R196) for an index of BUF outside 0 to 8191, which
  does not exist (20_memory.md R60). Safe: no run reaches it (log 5). -/
  | bufIndexOutOfRange (index : Nat)
  deriving DecidableEq, Repr

/-- Why an operation has no meaning here. -/
inductive Refusal where
  /-- Raised by an arm of exec for an operation that has no meaning yet; safe. No arm raises it. -/
  | notModelled (mnemonic : String)
  deriving DecidableEq, Repr

/-- The state of the block. -/
structure State where
  /-- TIE_RULE, the model parameter (00_scope.md R8); no step writes it (log 4) -/
  tieRule : TieRule
  /-- CFG_SR (R23) -/
  cfgSr : Word32
  /-- CFG_BF (R24) -/
  cfgBf : Word32
  /-- HAVE_PREV (R25) -/
  havePrev : Bool
  /-- PREV (R25) -/
  prev : Timestamp
  /-- SYNC_SR, the newest cell in bit 0 (R26) -/
  syncSr : Word16
  /-- CH_ACTIVE (R27) -/
  chActive : Bool
  /-- CH_PHASE, false: the next cell is a clock bit (R27) -/
  chPhase : Bool
  /-- CH_CLK (R27) -/
  chClk : Bool
  /-- CH_CLK_START (R27) -/
  chClkStart : Scaled
  /-- CH_DPREV (R27) -/
  chDprev : Bool
  /-- CH_DSHIFT (R27) -/
  chDshift : Byte
  /-- CH_NBITS (R27) -/
  chNbits : BitVec 3
  /-- CH_BYTE_START (R27); it reaches no output event -/
  chByteStart : Scaled
  /-- FSM_STATE (R28) -/
  fsm : FsmState
  /-- P_TRACK (R29) -/
  pTrack : Byte
  /-- P_SIDE (R29) -/
  pSide : Byte
  /-- P_SECTOR (R29) -/
  pSector : Byte
  /-- CRC_HI (R29) -/
  crcHi : Byte
  /-- DATA_N (R29) -/
  dataN : Len14
  /-- DATA_IDX (R29) -/
  dataIdx : Len14
  /-- BUF (R30), a canonical list of (index, byte) -/
  buf : List Host.Cell
  /-- ID_TRACK (R31) -/
  idTrack : Byte
  /-- ID_SIDE (R31) -/
  idSide : Byte
  /-- ID_SECTOR (R31) -/
  idSector : Byte
  /-- ID_SIZE_CODE (R31) -/
  idSizeCode : Byte
  /-- DECODED_SIZE (R31) -/
  decodedSize : Len14
  /-- ID_VALID (R32) -/
  idValid : Bool
  /-- ENDED (R33) -/
  ended : Bool
  /-- CMD_ERR (R34) -/
  cmdErr : Bool
  /-- ORDER_ERR (R35) -/
  orderErr : Bool
  /-- CFG_ERR (R36) -/
  cfgErr : Bool
  /-- CNT_DROP (R37) -/
  cntDrop : Word32
  /-- CNT_LOCK (R37) -/
  cntLock : Word32
  /-- CNT_CLKERR (R37) -/
  cntClkErr : Word32
  /-- CNT_PROTO (R37) -/
  cntProto : Word32
  /-- CNT_CRCERR (R37) -/
  cntCrcErr : Word32
  /-- CNT_REC (R37) -/
  cntRec : Word32
  /-- the model's own: what the last CRC_STEP operation returned (log 10) -/
  crcPort : Word16
  /-- the model's own: the items presented and not yet performed, oldest first (log 1) -/
  input : List Item
  /-- the model's own: the events emitted so far, oldest first (R39; log 2) -/
  out : List Event
  deriving DecidableEq, Repr

/-- The block after power-on (70_reset_and_hazards.md R320): every element at its reset value, nothing presented, nothing
emitted. -/
def State.reset : State where
  tieRule := Config.defaultTieRule
  cfgSr := 0
  cfgBf := 0
  havePrev := false
  prev := 0
  syncSr := 0
  chActive := false
  chPhase := false
  chClk := false
  chClkStart := 0
  chDprev := false
  chDshift := 0
  chNbits := 0
  chByteStart := 0
  fsm := .none
  pTrack := 0
  pSide := 0
  pSector := 0
  crcHi := 0
  dataN := 0
  dataIdx := 0
  buf := []
  idTrack := 0
  idSide := 0
  idSector := 0
  idSizeCode := 0
  decodedSize := 0
  idValid := false
  ended := false
  cmdErr := false
  orderErr := false
  cfgErr := false
  cntDrop := 0
  cntLock := 0
  cntClkErr := 0
  cntProto := 0
  cntCrcErr := 0
  cntRec := 0
  crcPort := 0
  input := []
  out := []

end Sys2Proof.Machine
end

