-- ==== Sys2Proof/Machine/Ops.lean ====
section
/-!
DEFINITION. The named operations the meanings are made of: sequencing, shift registers, the payload buffer, the pseudocode
primitives of 00_scope.md R11 (emit, cnt_inc, goto), the abort of a parse (60_exceptions.md R287) and the resumption at a
lock (R288), and power-on (70_reset_and_hazards.md R320).
-/

namespace Sys2Proof.Machine

/-- What a meaning answers. -/
abbrev Result := Host.Outcome State Fault Refusal

/-- Perform `f` after an operation that answers a next state; a stop is passed on. -/
def andThen (o : Result) (f : State → Result) : Result :=
  match o with
  | .next s => f s
  | .fault r => .fault r
  | .refused r => .refused r

/-! ### Shift registers -/

/-- `((v << 1) | b) mod 2^n`: shift left by one, the new bit in bit 0 (42_sync_and_clock.md R151, R156). -/
def shiftIn {n : Nat} (v : BitVec n) (b : Bool) : BitVec n :=
  (v <<< 1) ||| (BitVec.ofBool b).setWidth n

/-! ### The payload buffer BUF (10_state.md R30, 20_memory.md R60) -/

/-- Byte `i` of a list of (index, byte) pairs; an unlisted byte reads as `Config.bufUnwritten` (log 3). -/
def Memory.read (m : List Host.Cell) (i : Nat) : Byte :=
  match m with
  | [] => Config.bufUnwritten
  | (a, v) :: rest => if a = i then v else Memory.read rest i

/-- `m` with byte `i` dropped or listed at its place before the rest, as its value is that of an unlisted byte or not. -/
def Memory.put (i : Nat) (v : Byte) (rest : List Host.Cell) : List Host.Cell :=
  if v = Config.bufUnwritten then rest else (i, v) :: rest

/-- Write byte `i`, keeping the canonical form. -/
def Memory.write (m : List Host.Cell) (i : Nat) (v : Byte) : List Host.Cell :=
  match m with
  | [] => Memory.put i v []
  | (a, w) :: rest =>
    if a < i then (a, w) :: Memory.write rest i v
    else if a = i then Memory.put i v rest
    else Memory.put i v ((a, w) :: rest)

/-- The canonical form: indices strictly rising and inside BUF, and no entry that equals an unlisted byte. -/
abbrev Memory.wf (m : List Host.Cell) : Prop :=
  m.Pairwise (fun x y => x.1 < y.1) ∧ ∀ x ∈ m, x.1 < Config.bufBytes ∧ x.2 ≠ Config.bufUnwritten

/-- Bytes 0 to `n - 1`, in index order. -/
def Memory.slice (m : List Host.Cell) (n : Nat) : List Byte :=
  (List.range n).map (Memory.read m)

/-- `BUF[i] <- v` (00_scope.md R11); an index outside BUF is a fault (20_memory.md R60; log 5). -/
def bufWrite (i : Nat) (v : Byte) (s : State) : Result :=
  if i < Config.bufBytes then .next { s with buf := Memory.write s.buf i v }
  else .fault (.bufIndexOutOfRange i)

/-- Perform `f` on `BUF[0 .. n-1]` (43_sector_fsm.md R196); a range that leaves BUF is a fault (20_memory.md R60; log 5). -/
def withBuf (n : Nat) (s : State) (f : List Byte → Result) : Result :=
  if n ≤ Config.bufBytes then f (Memory.slice s.buf n)
  else .fault (.bufIndexOutOfRange (n - 1))

/-! ### The pseudocode primitives (00_scope.md R11) -/

/-- `emit`: append an event to the output stream; nothing is ever retracted (R11, 20_memory.md R71). -/
def emit (e : Event) (s : State) : State :=
  { s with out := s.out ++ [e] }

/-- `goto`: set FSM_STATE (R11). -/
def goto (f : FsmState) (s : State) : State :=
  { s with fsm := f }

/-- The six event counters (10_state.md R37). -/
inductive Counter where
  | drop
  | lock
  | clkErr
  | proto
  | crcErr
  | record
  deriving DecidableEq, Repr

/-- The value of a counter. -/
def cnt (c : Counter) (s : State) : Word32 :=
  match c with
  | .drop => s.cntDrop
  | .lock => s.cntLock
  | .clkErr => s.cntClkErr
  | .proto => s.cntProto
  | .crcErr => s.cntCrcErr
  | .record => s.cntRec

/-- `cnt_inc`: one more, modulo 2^32 (R11, 10_state.md R37). -/
def cntInc (c : Counter) (s : State) : State :=
  match c with
  | .drop => { s with cntDrop := s.cntDrop + 1 }
  | .lock => { s with cntLock := s.cntLock + 1 }
  | .clkErr => { s with cntClkErr := s.cntClkErr + 1 }
  | .proto => { s with cntProto := s.cntProto + 1 }
  | .crcErr => { s with cntCrcErr := s.cntCrcErr + 1 }
  | .record => { s with cntRec := s.cntRec + 1 }

/-! ### The block's analogue of an exception and of the return from one -/

/-- A protocol error aborts the current parse: the cause is recorded in the event, the parser goes to TERMINATED, nothing is
saved and no other state changes (60_exceptions.md R284, R287; 43_sector_fsm.md R185, R186, R191). -/
def abortParse (cause : Event) (s : State) : State :=
  goto .terminated (emit cause (cntInc .proto s))

/-- SP_LOCK, the resumption: the next lock restarts the parser in ADDRESS_MARK and changes nothing else
(43_sector_fsm.md R180, 60_exceptions.md R288). -/
def spLock (s : State) : State :=
  goto .addressMark s

/-! ### Reset -/

/-- RESET and power-on: every element takes its reset value (70_reset_and_hazards.md R320). The events already emitted are
not retracted (10_state.md R39), the transactions still to come stay presented (log 1) and TIE_RULE is no state element
(log 4). -/
def powerOn (s : State) : State :=
  { State.reset with tieRule := s.tieRule, input := s.input, out := s.out }

end Sys2Proof.Machine
end

