-- ==== Sys2Proof/Machine/Flags.lean ====
section
/-!
DEFINITION. The flags (10_state.md R32 to R36, R40), the composed STATUS word (R38) and the clock bit the MFM rule requires
(30_encoding.md R90).
-/

namespace Sys2Proof.Machine

/-- `CMD_ERR <- 1` (10_state.md R34). -/
def setCmdErr (s : State) : State :=
  { s with cmdErr := true }

/-- `ORDER_ERR <- 1` (10_state.md R35). -/
def setOrderErr (s : State) : State :=
  { s with orderErr := true }

/-- `CFG_ERR <- 1` (10_state.md R36). -/
def setCfgErr (s : State) : State :=
  { s with cfgErr := true }

/-- CONFIGURED, 1 iff CFG_SR and CFG_BF are both non-zero (10_state.md R38). -/
def configured (s : State) : Bool :=
  decide (s.cfgSr ≠ 0 ∧ s.cfgBf ≠ 0)

/-- The codes of FSM_STATE (10_state.md R28). -/
def fsmCode (f : FsmState) : BitVec 4 :=
  match f with
  | .none => 0
  | .addressMark => 1
  | .idTrack => 2
  | .idSide => 3
  | .idSector => 4
  | .idSize => 5
  | .idCrcHi => 6
  | .idCrcLo => 7
  | .data => 8
  | .dataCrcHi => 9
  | .dataCrcLo => 10
  | .terminated => 11

/-- STATUS, composed at read time, bits 31:12 zero (10_state.md R38). -/
def status (s : State) : Word32 :=
  0#20 ++ BitVec.ofBool s.cfgErr ++ BitVec.ofBool s.orderErr ++ BitVec.ofBool s.cmdErr ++ BitVec.ofBool s.ended
    ++ fsmCode s.fsm ++ BitVec.ofBool s.idValid ++ BitVec.ofBool s.chActive ++ BitVec.ofBool s.havePrev
    ++ BitVec.ofBool (configured s)

/-- The clock bit the MFM rule requires: `NOT(prev_data OR this_data)` (42_sync_and_clock.md R155, 30_encoding.md R90). -/
def expectedClock (dPrev d : Bool) : Bool :=
  !(dPrev || d)

/-- The KIND code of an event (30_encoding.md R86). -/
def eventKind (e : Event) : BitVec 4 :=
  match e with
  | .drop _ _ => 0x1
  | .lock _ => 0x2
  | .clkErr _ _ _ _ => 0x3
  | .badAm _ => 0x4
  | .dataNoId => 0x5
  | .badSize _ => 0x6
  | .idCrcErr _ _ => 0x7
  | .record _ _ _ _ _ _ _ => 0x8
  | .regValue _ _ => 0x9
  | .eos => 0xA

/-- How often an event increments a counter (10_state.md R37, 60_exceptions.md R281): a REC whose CRCs differ counts as an
integrity error as well as a record. -/
def eventCount (c : Counter) (e : Event) : Nat :=
  match c, e with
  | .drop, .drop _ _ => 1
  | .lock, .lock _ => 1
  | .clkErr, .clkErr _ _ _ _ => 1
  | .proto, .badAm _ => 1
  | .proto, .dataNoId => 1
  | .proto, .badSize _ => 1
  | .crcErr, .idCrcErr _ _ => 1
  | .crcErr, .record _ _ _ _ _ found computed => if found = computed then 0 else 1
  | .record, .record _ _ _ _ _ _ _ => 1
  | _, _ => 0

end Sys2Proof.Machine
end

