-- ==== Sys2Proof/Machine/Operands.lean ====
section
/-!
DEFINITION. The operand forms: the register index space RDREG reads (10_state.md R42), the size code (30_encoding.md R96),
the MFM pairs and frames of a byte (R90, R91) and the context a byte is read in.
-/

namespace Sys2Proof.Machine

/-- The register at an index, zero-extended to 32 bits; `none` for the reserved indices 0x0F to 0xFF (10_state.md R42). -/
def readRegister (index : Byte) (s : State) : Option Word32 :=
  match index.toNat with
  | 0x00 => some s.cfgSr
  | 0x01 => some s.cfgBf
  | 0x02 => some (status s)
  | 0x03 => some s.cntDrop
  | 0x04 => some s.cntLock
  | 0x05 => some s.cntClkErr
  | 0x06 => some s.cntProto
  | 0x07 => some s.cntCrcErr
  | 0x08 => some s.cntRec
  | 0x09 => some (s.idTrack.setWidth 32)
  | 0x0A => some (s.idSide.setWidth 32)
  | 0x0B => some (s.idSector.setWidth 32)
  | 0x0C => some (s.idSizeCode.setWidth 32)
  | 0x0D => some (s.decodedSize.setWidth 32)
  | 0x0E => some (s.syncSr.setWidth 32)
  | _ => none

/-- The decoded size `128 << c` of a size code (30_encoding.md R96); meant for `c` in 0..6, where it fits 14 bits. -/
def decodedSizeOf (c : Byte) : Len14 :=
  BitVec.ofNat 14 (128 <<< c.toNat)

/-- A 16-bit CRC from its two bytes, the first received high (20_memory.md R64). -/
def foundCrc (hi lo : Byte) : Word16 :=
  hi ++ lo

/-- Cell `i` of a frame in time order: the earliest is bit 15 (30_encoding.md R91, R92). -/
def frameCell (cells : Word16) (i : Nat) : Bool :=
  cells.getLsbD (15 - i)

/-- The valid pair of a data bit after the previous one, clock bit first (30_encoding.md R90). -/
def mfmPair (dPrev d : Bool) : List Bool :=
  [expectedClock dPrev d, d]

/-- The data bits of a byte in time order, bit 7 first (20_memory.md R63). -/
def dataBits (v : Byte) : List Bool :=
  [v.getLsbD 7, v.getLsbD 6, v.getLsbD 5, v.getLsbD 4, v.getLsbD 3, v.getLsbD 2, v.getLsbD 1, v.getLsbD 0]

/-- The cells of a run of data bits after a data bit, every pair valid (30_encoding.md R90). -/
def mfmCells (dPrev : Bool) (ds : List Bool) : List Bool :=
  match ds with
  | [] => []
  | d :: rest => mfmPair dPrev d ++ mfmCells d rest

/-- The valid MFM frame of a byte after a data bit (30_encoding.md R90, R91), the earliest cell in bit 15. -/
def mfmFrame (dPrev : Bool) (v : Byte) : Word16 :=
  (mfmCells dPrev (dataBits v)).foldl shiftIn 0

/-- The part of the state a byte's row depends on (43_sector_fsm.md R199). -/
def context (s : State) : Context :=
  { fsm := s.fsm, idValid := s.idValid }

end Sys2Proof.Machine
end

