-- ==== Sys2Proof/Machine/Crc.lean ====
section
/-!
DEFINITION. The CRC-16 checker (44_crc16.md): a pure function of a byte sequence, and the operation that exposes one step of
it.
-/

namespace Sys2Proof.Machine

/-- One bit into the CRC register: shift left, and XOR the polynomial when the bit leaving the register differs from the bit
entering (44_crc16.md R230). -/
def crcBit (c : Word16) (b : Bool) : Word16 :=
  if c.getLsbD 15 ^^ b then (c <<< 1) ^^^ Config.crcPoly else c <<< 1

/-- CRC_STEP, one byte into the CRC register, the most significant bit first (44_crc16.md R230). -/
def crcStep (c : Word16) (x : Byte) : Word16 :=
  (dataBits x).foldl crcBit c

/-- CRC16 of a byte sequence: a left fold from `0xFFFF`, no final XOR, no reflection (44_crc16.md R231). -/
def crc16 (bytes : List Byte) : Word16 :=
  bytes.foldl crcStep Config.crcInit

/-- One step of the double-width form: `c <- c << 1; if c[16] = 1: c <- c XOR 0x11021`, in 17 bits (44_crc16.md R232). -/
def crcWideBit (c : BitVec 17) : BitVec 17 :=
  if (c <<< 1).getLsbD 16 then (c <<< 1) ^^^ 0x11021#17 else c <<< 1

/-- The double-width form of CRC_STEP: `c XOR (x << 8)`, then eight steps (44_crc16.md R232). -/
def crcStepWide (c : Word16) (x : Byte) : Word16 :=
  (Nat.repeat crcWideBit 8 (c.setWidth 17 ^^^ (x.setWidth 17 <<< 8))).setWidth 16

/-- The ID check input (44_crc16.md R233). -/
def idCheckInput (track side sector code : Byte) : List Byte :=
  Config.crcPreamble ++ [Config.idMark, track, side, sector, code]

/-- The data check input (44_crc16.md R233). -/
def dataCheckInput (payload : List Byte) : List Byte :=
  Config.crcPreamble ++ Config.dataMark :: payload

/-- CRC_STEP as an operation of its own: the value it returns is shown at the model's `crcPort`; it writes no state element
(44_crc16.md R230; log 10). -/
def execCrcStep (c : Word16) (x : Byte) (s : State) : Result :=
  .next { s with crcPort := crcStep c x }

end Sys2Proof.Machine
end

