-- ==== Sys2Proof/Machine/SectorParser.lean ====
section
/-!
DEFINITION. The sector parser SP (43_sector_fsm.md): one operation per row of its transition table (R199), the dispatch
SP_BYTE over them (R181), and the meaning of each byte row. A byte is what FSM_STATE says it is: presented under the name of
a row whose condition does not hold, it is performed as SP_BYTE performs that byte (log 6).
-/

namespace Sys2Proof.Machine

/-! ### The rules, one operation each -/

/-- R182: a byte in NONE changes nothing. -/
def spNone (s : State) : State := s

/-- R183: the ID address mark. -/
def spAmId (s : State) : State :=
  goto .idTrack s

/-- R184: the data address mark with an ID established; the payload length is fixed here. -/
def spAmData (s : State) : State :=
  goto .data { s with dataN := s.decodedSize, dataIdx := 0 }

/-- R185: the data address mark with no ID established. -/
def spAmDataNoId (s : State) : State :=
  abortParse .dataNoId s

/-- R186: any other byte where an address mark is due. -/
def spAmOther (v : Byte) (s : State) : State :=
  abortParse (.badAm v) s

/-- R187: the track byte. -/
def spIdTrack (v : Byte) (s : State) : State :=
  goto .idSide { s with pTrack := v }

/-- R188: the side byte. -/
def spIdSide (v : Byte) (s : State) : State :=
  goto .idSector { s with pSide := v }

/-- R189: the sector byte. -/
def spIdSector (v : Byte) (s : State) : State :=
  goto .idSize { s with pSector := v }

/-- R190: a valid size code establishes the ID, all five registers together. -/
def spIdSizeValid (v : Byte) (s : State) : State :=
  goto .idCrcHi
    { s with
      idTrack := s.pTrack
      idSide := s.pSide
      idSector := s.pSector
      idSizeCode := v
      decodedSize := decodedSizeOf v
      idValid := true }

/-- R191: an invalid size code; nothing is established. -/
def spIdSizeInvalid (v : Byte) (s : State) : State :=
  abortParse (.badSize v) s

/-- R192: the high byte of the found ID CRC. -/
def spIdCrcHi (v : Byte) (s : State) : State :=
  goto .idCrcLo { s with crcHi := v }

/-- The CRC computed over the ID registers (R193). -/
def computedIdCrc (s : State) : Word16 :=
  crc16 (idCheckInput s.idTrack s.idSide s.idSector s.idSizeCode)

/-- R193: the low byte of the found ID CRC; only a mismatch is reported. -/
def spIdCrcLo (v : Byte) (s : State) : State :=
  let found := foundCrc s.crcHi v
  let computed := computedIdCrc s
  if found ≠ computed then goto .terminated (emit (.idCrcErr found computed) (cntInc .crcErr s))
  else goto .terminated s

/-- The second half of R194: `DATA_IDX <- DATA_IDX + 1`, and after the last payload byte the CRC is due. -/
def spCountByte (s : State) : State :=
  if s.dataIdx + 1 = s.dataN then goto .dataCrcHi { s with dataIdx := s.dataIdx + 1 }
  else { s with dataIdx := s.dataIdx + 1 }

/-- R194: one payload byte. -/
def spDataByte (v : Byte) (s : State) : Result :=
  andThen (bufWrite s.dataIdx.toNat v s) fun s1 => .next (spCountByte s1)

/-- R195: the high byte of the found data CRC. -/
def spDataCrcHi (v : Byte) (s : State) : State :=
  goto .dataCrcLo { s with crcHi := v }

/-- The record R196 emits for a payload and a found CRC. -/
def recordOf (payload : List Byte) (found : Word16) (s : State) : Event :=
  .record s.idTrack s.idSide s.idSector s.dataN payload found (crc16 (dataCheckInput payload))

/-- The end of R196, for a payload and a found CRC: the counters, the record and the end of the parse. -/
def spRecord (payload : List Byte) (found : Word16) (s : State) : State :=
  goto .terminated
    (emit (recordOf payload found s)
      (cntInc .record (if found ≠ crc16 (dataCheckInput payload) then cntInc .crcErr s else s)))

/-- R196: the low byte of the found data CRC; a record is emitted whether or not the CRCs match. -/
def spDataCrcLo (v : Byte) (s : State) : Result :=
  withBuf s.dataN.toNat s fun payload => .next (spRecord payload (foundCrc s.crcHi v) s)

/-- R197: a byte in TERMINATED changes nothing. -/
def spTerminated (s : State) : State := s

/-- SP_BYTE, one byte: dispatch on FSM_STATE (R181). -/
def spByte (v : Byte) (s : State) : Result :=
  match s.fsm with
  | .none => .next (spNone s)
  | .addressMark =>
    if v = Config.idMark then .next (spAmId s)
    else if v = Config.dataMark then .next (if s.idValid then spAmData s else spAmDataNoId s)
    else .next (spAmOther v s)
  | .idTrack => .next (spIdTrack v s)
  | .idSide => .next (spIdSide v s)
  | .idSector => .next (spIdSector v s)
  | .idSize => .next (if v.toNat ≤ Config.maxSizeCode.toNat then spIdSizeValid v s else spIdSizeInvalid v s)
  | .idCrcHi => .next (spIdCrcHi v s)
  | .idCrcLo => .next (spIdCrcLo v s)
  | .data => spDataByte v s
  | .dataCrcHi => .next (spDataCrcHi v s)
  | .dataCrcLo => spDataCrcLo v s
  | .terminated => .next (spTerminated s)

/-! ### The meanings of the byte rows -/

/-- AM_ID (R183). -/
def execAmId (s : State) : Result :=
  if s.fsm = .addressMark then .next (spAmId s) else spByte Config.idMark s

/-- AM_DATA (R184). -/
def execAmData (s : State) : Result :=
  if s.fsm = .addressMark ∧ s.idValid then .next (spAmData s) else spByte Config.dataMark s

/-- AM_DATA_NO_ID (R185). -/
def execAmDataNoId (s : State) : Result :=
  if s.fsm = .addressMark ∧ ¬s.idValid then .next (spAmDataNoId s) else spByte Config.dataMark s

/-- AM_OTHER (R186). -/
def execAmOther (v : Byte) (s : State) : Result :=
  if s.fsm = .addressMark ∧ v ≠ Config.idMark ∧ v ≠ Config.dataMark then .next (spAmOther v s) else spByte v s

/-- ID_TRACK (R187). -/
def execIdTrack (v : Byte) (s : State) : Result :=
  if s.fsm = .idTrack then .next (spIdTrack v s) else spByte v s

/-- ID_SIDE (R188). -/
def execIdSide (v : Byte) (s : State) : Result :=
  if s.fsm = .idSide then .next (spIdSide v s) else spByte v s

/-- ID_SECTOR (R189). -/
def execIdSector (v : Byte) (s : State) : Result :=
  if s.fsm = .idSector then .next (spIdSector v s) else spByte v s

/-- ID_SIZE_VALID (R190). -/
def execIdSizeValid (v : Byte) (s : State) : Result :=
  if s.fsm = .idSize ∧ v.toNat ≤ Config.maxSizeCode.toNat then .next (spIdSizeValid v s) else spByte v s

/-- ID_SIZE_INVALID (R191). -/
def execIdSizeInvalid (v : Byte) (s : State) : Result :=
  if s.fsm = .idSize ∧ Config.maxSizeCode.toNat < v.toNat then .next (spIdSizeInvalid v s) else spByte v s

/-- ID_CRC_HI (R192). -/
def execIdCrcHi (v : Byte) (s : State) : Result :=
  if s.fsm = .idCrcHi then .next (spIdCrcHi v s) else spByte v s

/-- ID_CRC_LO (R193). -/
def execIdCrcLo (v : Byte) (s : State) : Result :=
  if s.fsm = .idCrcLo then .next (spIdCrcLo v s) else spByte v s

/-- DATA_BYTE (R194). -/
def execDataByte (v : Byte) (s : State) : Result :=
  if s.fsm = .data then spDataByte v s else spByte v s

/-- DATA_CRC_HI (R195). -/
def execDataCrcHi (v : Byte) (s : State) : Result :=
  if s.fsm = .dataCrcHi then .next (spDataCrcHi v s) else spByte v s

/-- DATA_CRC_LO (R196). -/
def execDataCrcLo (v : Byte) (s : State) : Result :=
  if s.fsm = .dataCrcLo then spDataCrcLo v s else spByte v s

/-- BYTE_TERMINATED (R197). -/
def execByteTerminated (v : Byte) (s : State) : Result :=
  if s.fsm = .terminated then .next (spTerminated s) else spByte v s

/-- BYTE_NONE (R182). -/
def execByteNone (v : Byte) (s : State) : Result :=
  if s.fsm = .none then .next (spNone s) else spByte v s

end Sys2Proof.Machine
end

