-- ==== Sys2Proof/Machine/SyncClock.lean ====
section
/-!
DEFINITION. The sync detector and the clock validator (42_sync_and_clock.md): LOCK_STEP, CLOCK_CELL, DATA_CELL, the CELL
step, a sequence of cells, and the meanings of the operations that expose them.
-/

namespace Sys2Proof.Machine

/-- A bit cell with its scaled interval, `Cell(b, S, E)` (30_encoding.md R88). -/
structure BitCell where
  bit : Bool
  start : Scaled
  stop : Scaled
  deriving DecidableEq, Repr

/-- A fresh ByteChunker seeded with the lock cell (42_sync_and_clock.md R152); the previous one's pair and byte in progress
are discarded. -/
def freshChunker (seed : Bool) (s : State) : State :=
  { s with
    chActive := true
    chPhase := false
    chDprev := seed
    chDshift := 0
    chNbits := 0 }

/-- LOCK_STEP (42_sync_and_clock.md R152): a fresh chunker seeded with the lock cell, and the parser restarted. -/
def lockStep (b : Bool) (stop : Scaled) (s : State) : State :=
  spLock (freshChunker b (emit (.lock stop) (cntInc .lock s)))

/-- CLOCK_CELL, the first cell of a pair (42_sync_and_clock.md R154). -/
def clockCell (b : Bool) (start : Scaled) (s : State) : State :=
  { s with
    chClk := b
    chClkStart := start
    chByteStart := if s.chNbits = 0 then start else s.chByteStart
    chPhase := true }

/-- `CH_DPREV <- b` (42_sync_and_clock.md R155). -/
def setDprev (b : Bool) (s : State) : State :=
  { s with chDprev := b }

/-- DATA_CELL, part 1, the clock check (42_sync_and_clock.md R155): a mismatch is reported and decoding goes on. -/
def clockCheck (b : Bool) (stop : Scaled) (s : State) : State :=
  setDprev b
    (if s.chClk ≠ expectedClock s.chDprev b then
      emit (.clkErr s.chClkStart stop s.chClk (expectedClock s.chDprev b)) (cntInc .clkErr s)
    else s)

/-- The data bit is shifted into CH_DSHIFT, the next cell is a clock cell, and `n` data bits of the byte in progress are in
(42_sync_and_clock.md R156). -/
def takeBit (b : Bool) (n : BitVec 3) (s : State) : State :=
  { s with chDshift := shiftIn s.chDshift b, chPhase := false, chNbits := n }

/-- DATA_CELL, part 2, byte assembly (42_sync_and_clock.md R156): the eighth data bit delivers the byte. -/
def assembleBit (b : Bool) (s : State) : Result :=
  if s.chNbits = 7 then spByte (shiftIn s.chDshift b) (takeBit b 0 s)
  else .next (takeBit b (s.chNbits + 1) s)

/-- DATA_CELL, the second cell of a pair: the check comes before the delivery (42_sync_and_clock.md R155, R156). -/
def dataCell (b : Bool) (stop : Scaled) (s : State) : Result :=
  assembleBit b (clockCheck b stop s)

/-- The shift of every cell (42_sync_and_clock.md R151). -/
def shiftSync (b : Bool) (s : State) : State :=
  { s with syncSr := shiftIn s.syncSr b }

/-- CELL, one bit cell (42_sync_and_clock.md R150): the sync check first; a cell that locks goes to no chunker; before the
first lock nothing more happens (R153). -/
def cellStep (c : BitCell) (s : State) : Result :=
  if shiftIn s.syncSr c.bit = Config.syncPattern then .next (lockStep c.bit c.stop (shiftSync c.bit s))
  else if ¬s.chActive then .next (shiftSync c.bit s)
  else if ¬s.chPhase then .next (clockCell c.bit c.start (shiftSync c.bit s))
  else dataCell c.bit c.stop (shiftSync c.bit s)

/-- Cells in time order, each processed to its end before the next (20_memory.md R70). -/
def feedCells (cs : List BitCell) (s : State) : Result :=
  match cs with
  | [] => .next s
  | c :: rest => andThen (cellStep c s) (feedCells rest)

/-- The 16 cells of a frame in time order, from a scaled start, each of the nominal scaled length CFG_SR
(30_encoding.md R91, 41_flux_demodulator.md R124; log 9). -/
def frameCells (cells : Word16) (start : Scaled) (sr : Word32) : List BitCell :=
  (List.range 16).map fun i =>
    { bit := frameCell cells i
      start := start + BitVec.ofNat 96 (i * sr.toNat)
      stop := start + BitVec.ofNat 96 ((i + 1) * sr.toNat) }

/-! ### The meanings -/

/-- CELL (42_sync_and_clock.md R150). -/
def execCell (b : Bool) (start stop : Scaled) (s : State) : Result :=
  cellStep { bit := b, start := start, stop := stop } s

/-- SYNC_LOCK (42_sync_and_clock.md R152; log 8). -/
def execSyncLock (b : Bool) (stop : Scaled) (s : State) : Result :=
  .next (lockStep b stop s)

/-- MFM_CLOCK_CELL (42_sync_and_clock.md R154). -/
def execMfmClockCell (b : Bool) (start : Scaled) (s : State) : Result :=
  .next (clockCell b start s)

/-- MFM_DATA_CELL (42_sync_and_clock.md R155, R156). -/
def execMfmDataCell (b : Bool) (stop : Scaled) (s : State) : Result :=
  dataCell b stop s

/-- BYTE_FRAME: the 16 cells of a byte frame (42_sync_and_clock.md R156, 30_encoding.md R91; log 9). -/
def execByteFrame (cells : Word16) (start : Scaled) (s : State) : Result :=
  feedCells (frameCells cells start s.cfgSr) s

end Sys2Proof.Machine
end

