-- ==== Sys2Proof/Machine/FluxDemodulator.lean ====
section
/-!
DEFINITION. The flux demodulator FD (41_flux_demodulator.md): the exact rounding of a gap, its cells in scaled time, and the
EDGE transaction. All arithmetic is exact, on integers.
-/

namespace Sys2Proof.Machine

/-- `round_T(q, d)` for `d > 0`: the nearest integer to `q / d`, ties by TIE_RULE (41_flux_demodulator.md R122). -/
def roundT (tie : TieRule) (q : Int) (d : Nat) : Int :=
  let f := q / (d : Int)
  let r := q % (d : Int)
  if 2 * r < d then f
  else if d < 2 * r then f + 1
  else
    match tie with
    | .halfEven => if f % 2 = 0 then f else f + 1
    | .halfUp => f + 1

/-- `delta = t - prev`, signed and exact (41_flux_demodulator.md R120). -/
def gapDelta (prev t : Timestamp) : Int :=
  (t.toNat : Int) - prev.toNat

/-- The cell count of a gap, `p = round_T(delta * CFG_BF, CFG_SR)`, with no upper limit (41_flux_demodulator.md R123). -/
def cellCount (tie : TieRule) (sr bf : Word32) (prev t : Timestamp) : Int :=
  roundT tie (gapDelta prev t * bf.toNat) sr.toNat

/-- Cell `i` of a gap of `p` cells: a 1 first and then zeros; every cell but the last one nominal cell long, the last ending
at the edge (41_flux_demodulator.md R124, R125). -/
def gapCell (sr bf : Word32) (prev t : Timestamp) (p i : Nat) : BitCell where
  bit := i == 0
  start := BitVec.ofNat 96 (prev.toNat * bf.toNat + i * sr.toNat)
  stop :=
    if i + 1 < p then BitVec.ofNat 96 (prev.toNat * bf.toNat + (i + 1) * sr.toNat)
    else BitVec.ofNat 96 (t.toNat * bf.toNat)

/-- The cells of a gap, in time order (41_flux_demodulator.md R120). -/
def gapCells (sr bf : Word32) (prev t : Timestamp) (p : Nat) : List BitCell :=
  (List.range p).map (gapCell sr bf prev t p)

/-- The gap that an accepted edge closes: the order flag, then a DROP or the cells (41_flux_demodulator.md R120, R123 to
R127). PREV holds the closing edge already. -/
def closeGap (prev t : Timestamp) (s : State) : Result :=
  let s1 := if gapDelta prev t ≤ 0 then setOrderErr s else s
  let p := cellCount s.tieRule s.cfgSr s.cfgBf prev t
  if p ≤ 0 then .next (emit (.drop prev t) (cntInc .drop s1))
  else feedCells (gapCells s.cfgSr s.cfgBf prev t p.toNat) s1

/-- EDGE (41_flux_demodulator.md R120). -/
def execEdge (t : Timestamp) (s : State) : Result :=
  if s.ended then .next (setCmdErr s)
  else if s.cfgSr = 0 ∨ s.cfgBf = 0 then .next (setCfgErr s)
  else if ¬s.havePrev then .next { s with havePrev := true, prev := t }
  else closeGap s.prev t { s with prev := t }

end Sys2Proof.Machine
end

