-- ==== Sys2Proof/Machine/HostControl.lean ====
section
/-!
DEFINITION. The host control transactions other than EDGE (45_host_control.md).
-/

namespace Sys2Proof.Machine

/-- RESET, allowed in every state (45_host_control.md R251). -/
def execReset (s : State) : Result :=
  .next (powerOn s)

/-- CFG_SR (45_host_control.md R252). -/
def execCfgSr (value : Word32) (s : State) : Result :=
  if s.ended then .next (setCmdErr s) else .next { s with cfgSr := value }

/-- CFG_BF (45_host_control.md R253). -/
def execCfgBf (value : Word32) (s : State) : Result :=
  if s.ended then .next (setCmdErr s) else .next { s with cfgBf := value }

/-- END: the chunker is discarded, the parse ends, EOS is the last event of the run (45_host_control.md R254). -/
def execEndRun (s : State) : Result :=
  if s.ended then .next (setCmdErr s)
  else
    .next
      (emit .eos
        { s with
          chActive := false
          fsm := if s.fsm = .none then .none else .terminated
          ended := true })

/-- RDREG: exactly one REG_VALUE; a reserved index reads 0 and sets CMD_ERR (45_host_control.md R255). -/
def execRdreg (index : Byte) (s : State) : Result :=
  match readRegister index s with
  | some value => .next (emit (.regValue index value) s)
  | none => .next (emit (.regValue index 0) (setCmdErr s))

/-- RESERVED_0 (45_host_control.md R256). -/
def execReserved0 (s : State) : Result :=
  .next (setCmdErr s)

/-- RESERVED_7 (45_host_control.md R256). -/
def execReserved7 (s : State) : Result :=
  .next (setCmdErr s)

/-- RESERVED_8_TO_F, whatever the tag (45_host_control.md R256). -/
def execReserved8ToF (_tag : BitVec 4) (s : State) : Result :=
  .next (setCmdErr s)

end Sys2Proof.Machine
end

