-- ==== Sys2Proof/Machine/Dispatch.lean ====
section
/-!
DEFINITION. One arm per constructor of Instr, each one direct call of its meaning.
-/

namespace Sys2Proof.Machine

def exec (i : Instr) (s : State) : Host.Outcome State Fault Refusal :=
  match i with
  | .reset => Sys2Proof.Machine.execReset s
  | .cfgSr value => Sys2Proof.Machine.execCfgSr value s
  | .cfgBf value => Sys2Proof.Machine.execCfgBf value s
  | .edge t => Sys2Proof.Machine.execEdge t s
  | .endRun => Sys2Proof.Machine.execEndRun s
  | .rdreg index => Sys2Proof.Machine.execRdreg index s
  | .reserved0 => Sys2Proof.Machine.execReserved0 s
  | .reserved7 => Sys2Proof.Machine.execReserved7 s
  | .reserved8ToF tag => Sys2Proof.Machine.execReserved8ToF tag s
  | .cell b start stop => Sys2Proof.Machine.execCell b start stop s
  | .syncLock b stop => Sys2Proof.Machine.execSyncLock b stop s
  | .mfmClockCell b start => Sys2Proof.Machine.execMfmClockCell b start s
  | .mfmDataCell b stop => Sys2Proof.Machine.execMfmDataCell b stop s
  | .byteFrame cells start => Sys2Proof.Machine.execByteFrame cells start s
  | .amId => Sys2Proof.Machine.execAmId s
  | .amData => Sys2Proof.Machine.execAmData s
  | .amDataNoId => Sys2Proof.Machine.execAmDataNoId s
  | .amOther v => Sys2Proof.Machine.execAmOther v s
  | .idTrack v => Sys2Proof.Machine.execIdTrack v s
  | .idSide v => Sys2Proof.Machine.execIdSide v s
  | .idSector v => Sys2Proof.Machine.execIdSector v s
  | .idSizeValid v => Sys2Proof.Machine.execIdSizeValid v s
  | .idSizeInvalid v => Sys2Proof.Machine.execIdSizeInvalid v s
  | .idCrcHi v => Sys2Proof.Machine.execIdCrcHi v s
  | .idCrcLo v => Sys2Proof.Machine.execIdCrcLo v s
  | .dataByte v => Sys2Proof.Machine.execDataByte v s
  | .dataCrcHi v => Sys2Proof.Machine.execDataCrcHi v s
  | .dataCrcLo v => Sys2Proof.Machine.execDataCrcLo v s
  | .byteTerminated v => Sys2Proof.Machine.execByteTerminated v s
  | .byteNone v => Sys2Proof.Machine.execByteNone v s
  | .crcStep c x => Sys2Proof.Machine.execCrcStep c x s

end Sys2Proof.Machine
end

