-- ==== Sys2Proof/Machine/Fetch.lean ====
section
/-!
DEFINITION. Taking the next presented item: the block has no program counter and no stored program (10_state.md R21); its
program is the sequence of transactions the host presents, held in `input` (log 1).
-/

namespace Sys2Proof.Machine

/-- Perform the oldest presented item, read in the context of the state, to its end (00_scope.md R9, 45_host_control.md R250);
with nothing presented the block holds its state (60_exceptions.md R295). -/
def performNext (s : State) : Result :=
  match s.input with
  | [] => .next s
  | it :: rest => exec (decode (context s) it) { s with input := rest }

/-- `s` with a numbered word presented first, so that the next step performs it. A byte is presented in the context
`tableContext`, in which the decoder reads it (log 11). -/
def present (nbits w : Nat) (s : State) : State :=
  match tableItem nbits w with
  | .error _ => s
  | .ok (.byte v start stop) =>
    { s with
      fsm := tableContext.fsm
      idValid := tableContext.idValid
      input := .byte v start stop :: s.input }
  | .ok it => { s with input := it :: s.input }

end Sys2Proof.Machine
end

