-- ==== Sys2Proof/Machine/Step.lean ====
section
/-!
DEFINITION. One step of the machine: one transaction, performed to its end (70_reset_and_hazards.md R331).
-/

namespace Sys2Proof.Machine

/-- One step: the next presented transaction, or none. -/
def step (s : State) : Host.Outcome State Fault Refusal :=
  performNext s

/-- `s` with the word `w` of `nbits` bits, numbered as the opcode table numbers it, presented where the next step takes its
transaction (log 11). -/
def State.withFetchWord (s : State) (nbits w : Nat) : State :=
  present nbits w s

end Sys2Proof.Machine
end

