-- ==== Sys2Proof/Machine/Asm.lean ====
section
/-!
DEFINITION. The written forms of 30_encoding.md sections 5: the host-transaction assembly language with its
pseudo-instructions (R100, R101) and the event listing (R102). Words come from the model's own encoder.
-/

namespace Sys2Proof.Machine

/-- A line of the assembly language (30_encoding.md R100), pseudo-instructions included (R101). -/
inductive AsmLine where
  | reset
  | cfgSr (value : Word32)
  | cfgBf (value : Word32)
  | edge (t : Timestamp)
  | endRun
  | rdreg (index : Byte)
  /-- `.word <tag>, <payload>` -/
  | word (tag : BitVec 4) (payload : BitVec 64)
  /-- `CFG <sr>, <bf>` -/
  | cfg (sr bf : Word32)
  /-- `EDGES <t1>, ..., <tn>` -/
  | edges (ts : List Timestamp)
  /-- `CELLS <t0>, <k>, "<bits>"` -/
  | cells (t0 k : Nat) (bits : List Bool)
  deriving DecidableEq, Repr

/-- Why a line has no expansion or no reading; the spec names no error, so each is the model's (log 17). -/
inductive AsmError where
  /-- CELLS with `k = 0`, which R101 excludes -/
  | cellLengthNotPositive
  /-- CELLS whose first cell is not 1, which R101 excludes -/
  | firstCellNotOne
  /-- CELLS with an edge at or above 2^64 -/
  | timestampTooWide (t : Nat)
  /-- an operand that is no number or register name, or does not fit its field -/
  | badOperand (token : List Char)
  /-- a mnemonic that is none of R100 and R101 -/
  | badMnemonic (token : List Char)
  /-- operands that are not the ones the mnemonic takes -/
  | badOperands (mnemonic : List Char)
  deriving DecidableEq, Repr

/-- The word of a host transaction (30_encoding.md R81, R100); an internal operation has none. -/
def hostWords (i : Instr) : List HostWord :=
  match encode i with
  | .host w => [w]
  | _ => []

/-- The indices, from `i` on, of the ones of a cell string (30_encoding.md R101). -/
def onesFrom (i : Nat) (bits : List Bool) : List Nat :=
  match bits with
  | [] => []
  | b :: rest => if b then i :: onesFrom (i + 1) rest else onesFrom (i + 1) rest

/-- The edges of `CELLS`: one at `t0 + k*i` for each 1, and one at `t0 + k*L` (30_encoding.md R101). -/
def cellsEdges (t0 k : Nat) (bits : List Bool) : List Nat :=
  (onesFrom 0 bits).map (fun i => t0 + k * i) ++ [t0 + k * bits.length]

/-- The transactions a line stands for, in order (30_encoding.md R100, R101). -/
def asmWords (l : AsmLine) : Except AsmError (List HostWord) :=
  match l with
  | .reset => .ok (hostWords .reset)
  | .cfgSr value => .ok (hostWords (.cfgSr value))
  | .cfgBf value => .ok (hostWords (.cfgBf value))
  | .edge t => .ok (hostWords (.edge t))
  | .endRun => .ok (hostWords .endRun)
  | .rdreg index => .ok (hostWords (.rdreg index))
  | .word tag payload => .ok [hostWord tag payload]
  | .cfg sr bf => .ok (hostWords (.cfgSr sr) ++ hostWords (.cfgBf bf))
  | .edges ts => .ok (ts.flatMap fun t => hostWords (.edge t))
  | .cells t0 k bits =>
    if k = 0 then .error .cellLengthNotPositive
    else if bits.head? ≠ some true then .error .firstCellNotOne
    else if 2 ^ 64 ≤ t0 + k * bits.length then .error (.timestampTooWide (t0 + k * bits.length))
    else .ok ((cellsEdges t0 k bits).flatMap fun t => hostWords (.edge (BitVec.ofNat 64 t)))

/-! ### Reading text (30_encoding.md R100; log 17) -/

/-- The tokens of a line up to a comment: runs of other characters, and each comma alone. `cur` is the run so far, reversed. -/
def tokens (cs cur : List Char) : List (List Char) :=
  match cs with
  | [] => flush cur
  | c :: rest =>
    if c = ';' then flush cur
    else if c = ' ' ∨ c = '\t' ∨ c = '\r' then flush cur ++ tokens rest []
    else if c = ',' then flush cur ++ [','] :: tokens rest []
    else tokens rest (c :: cur)
where
  /-- The run read so far, if any. -/
  flush (cur : List Char) : List (List Char) := if cur.isEmpty then [] else [cur.reverse]

/-- The value of a hexadecimal digit. -/
def digitValue (c : Char) : Option Nat :=
  if '0' ≤ c ∧ c ≤ '9' then some (c.toNat - '0'.toNat)
  else if 'a' ≤ c ∧ c ≤ 'f' then some (c.toNat - 'a'.toNat + 10)
  else if 'A' ≤ c ∧ c ≤ 'F' then some (c.toNat - 'A'.toNat + 10)
  else none

/-- The number a string of digits in a base stands for, after `acc`. -/
def digits (base acc : Nat) (cs : List Char) : Option Nat :=
  match cs with
  | [] => some acc
  | c :: rest =>
    match digitValue c with
    | some d => if d < base then digits base (base * acc + d) rest else none
    | none => none

/-- A number, decimal or `0x` hexadecimal (30_encoding.md R100). -/
def number (cs : List Char) : Option Nat :=
  match cs with
  | [] => none
  | ['0', 'x'] => none
  | '0' :: 'x' :: rest => digits 16 0 rest
  | _ => digits 10 0 cs

/-- An operand of `n` bits. -/
def operand (n : Nat) (cs : List Char) : Except AsmError (BitVec n) :=
  match number cs with
  | some v => if v < 2 ^ n then .ok (BitVec.ofNat n v) else .error (.badOperand cs)
  | none => .error (.badOperand cs)

/-- The names of 10_state.md R42, in index order. -/
def registerNames : List String :=
  ["CFG_SR", "CFG_BF", "STATUS", "CNT_DROP", "CNT_LOCK", "CNT_CLKERR", "CNT_PROTO", "CNT_CRCERR"]
    ++ ["CNT_REC", "ID_TRACK", "ID_SIDE", "ID_SECTOR", "ID_SIZE_CODE", "DECODED_SIZE", "SYNC_SR"]

/-- An RDREG operand: an index or a register name (30_encoding.md R100). -/
def registerOperand (cs : List Char) : Except AsmError Byte :=
  match registerNames.findIdx? (fun name => name.toList == cs) with
  | some i => .ok (BitVec.ofNat 8 i)
  | none => operand 8 cs

/-- The operands of a line, given its tokens after the mnemonic: separated by single commas. -/
def operands (ts : List (List Char)) : Option (List (List Char)) :=
  match ts with
  | [] => some []
  | [t] => if t = [','] then none else some [t]
  | t :: sep :: rest =>
    if t = [','] ∨ sep ≠ [','] ∨ rest.isEmpty then none
    else (operands rest).map (t :: ·)

/-- The cell string between double quotes. -/
def cellString (cs : List Char) : Except AsmError (List Bool) :=
  match cs with
  | '"' :: rest =>
    if rest.getLast? = some '"' ∧ rest.dropLast.all (fun c => c == '0' || c == '1') then
      .ok (rest.dropLast.map (· == '1'))
    else .error (.badOperand cs)
  | _ => .error (.badOperand cs)

/-- A natural number of any size. -/
def natOperand (cs : List Char) : Except AsmError Nat :=
  match number cs with
  | some v => .ok v
  | none => .error (.badOperand cs)

/-- The line a mnemonic and its operands make (30_encoding.md R100, R101). -/
def mnemonicLine (m : List Char) (ops : List (List Char)) : Except AsmError AsmLine :=
  if m = "RESET".toList then (if ops.isEmpty then .ok .reset else .error (.badOperands m))
  else if m = "END".toList then (if ops.isEmpty then .ok .endRun else .error (.badOperands m))
  else if m = "CFG_SR".toList then one fun a => (operand 32 a).map .cfgSr
  else if m = "CFG_BF".toList then one fun a => (operand 32 a).map .cfgBf
  else if m = "EDGE".toList then one fun a => (operand 64 a).map .edge
  else if m = "RDREG".toList then one fun a => (registerOperand a).map .rdreg
  else if m = ".word".toList then two fun a b => (operand 4 a).bind fun t => (operand 64 b).map (.word t)
  else if m = "CFG".toList then two fun a b => (operand 32 a).bind fun sr => (operand 32 b).map (.cfg sr)
  else if m = "EDGES".toList then
    (if ops.isEmpty then .error (.badOperands m) else (ops.mapM (operand 64)).map .edges)
  else if m = "CELLS".toList then
    three fun a b c =>
      (operand 64 a).bind fun t0 => (natOperand b).bind fun k => (cellString c).map (.cells t0.toNat k)
  else .error (.badMnemonic m)
where
  /-- A line of one operand. -/
  one (f : List Char → Except AsmError AsmLine) : Except AsmError AsmLine :=
    match ops with
    | [a] => f a
    | _ => .error (.badOperands m)
  /-- A line of two operands. -/
  two (f : List Char → List Char → Except AsmError AsmLine) : Except AsmError AsmLine :=
    match ops with
    | [a, b] => f a b
    | _ => .error (.badOperands m)
  /-- A line of three operands. -/
  three (f : List Char → List Char → List Char → Except AsmError AsmLine) : Except AsmError AsmLine :=
    match ops with
    | [a, b, c] => f a b c
    | _ => .error (.badOperands m)

/-- The transactions of one line of text; none for an empty line or a comment (30_encoding.md R100). -/
def lineWords (cs : List Char) : Except AsmError (List HostWord) :=
  match tokens cs [] with
  | [] => .ok []
  | m :: rest =>
    match operands rest with
    | some ops => (mnemonicLine m ops).bind asmWords
    | none => .error (.badOperands m)

/-- The lines of a text. `cur` is the line so far, reversed. -/
def textLines (cs cur : List Char) : List (List Char) :=
  match cs with
  | [] => [cur.reverse]
  | c :: rest => if c = '\n' then cur.reverse :: textLines rest [] else textLines rest (c :: cur)

/-- The transactions of a program text, in order (30_encoding.md R100). -/
def assemble (text : String) : Except AsmError (List HostWord) :=
  ((textLines text.toList []).mapM lineWords).map List.flatten

/-- The machine with a program presented after what is already presented (70_reset_and_hazards.md R322; log 1). -/
def presentProgram (ws : List HostWord) (s : State) : State :=
  { s with input := s.input ++ ws.map .host }

/-! ### The event listing (30_encoding.md R102; log 18) -/

/-- A field in decimal. -/
def decText {n : Nat} (v : BitVec n) : String := toString v.toNat

/-- A 16-bit field in hexadecimal. -/
def hexText (v : Word16) : String :=
  "0x" ++ String.ofList ((((Nat.toDigits 16 (v.toNat + 65536)).drop 1)).map Char.toUpper)

/-- A 1-bit field. -/
def bitText (b : Bool) : String := if b then "1" else "0"

/-- An event in the listing syntax, `NAME(field, field, ...)` (30_encoding.md R102). -/
def eventText (e : Event) : String :=
  match e with
  | .drop prev this => "DROP(" ++ decText prev ++ ", " ++ decText this ++ ")"
  | .lock t => "LOCK(" ++ decText t ++ ")"
  | .clkErr start stop clock expected =>
    "CLKERR(" ++ decText start ++ ", " ++ decText stop ++ ", " ++ bitText clock ++ ", " ++ bitText expected ++ ")"
  | .badAm value => "BAD_AM(" ++ decText value ++ ")"
  | .dataNoId => "DATA_NO_ID"
  | .badSize code => "BAD_SIZE(" ++ decText code ++ ")"
  | .idCrcErr found computed => "ID_CRC_ERR(" ++ hexText found ++ ", " ++ hexText computed ++ ")"
  | .record cylinder head sector length payload found computed =>
    "REC(" ++ decText cylinder ++ ", " ++ decText head ++ ", " ++ decText sector ++ ", " ++ decText length
      ++ " bytes [" ++ " ".intercalate (payload.map decText) ++ "], " ++ hexText found ++ ", " ++ hexText computed ++ ")"
  | .regValue index value => "REG_VALUE(" ++ decText index ++ ", " ++ decText value ++ ")"
  | .eos => "EOS"

end Sys2Proof.Machine
end

