-- ==== Sys2Proof/Safety.lean ====
section
/-!
DEFINITION. The terms the statements use: runs of several operations, the invariants of the block, what a state shows, and
where an operation stores into BUF.
-/

namespace Sys2Proof.Machine

/-! ### Sub-blocks -/

/-- The parts of the block, one section file of the spec each (41_flux_demodulator.md to 45_host_control.md). -/
inductive SubBlock where
  | fluxDemodulator
  | syncAndClock
  | sectorParser
  | crcChecker
  | hostControl
  deriving DecidableEq, Repr

/-- The part whose rule gives an operation its meaning: the "rule" column of the opcode table. -/
def subBlockOf (i : Instr) : SubBlock :=
  match i with
  | .reset => .hostControl
  | .cfgSr _ => .hostControl
  | .cfgBf _ => .hostControl
  | .edge _ => .fluxDemodulator
  | .endRun => .hostControl
  | .rdreg _ => .hostControl
  | .reserved0 => .hostControl
  | .reserved7 => .hostControl
  | .reserved8ToF _ => .hostControl
  | .cell _ _ _ => .syncAndClock
  | .syncLock _ _ => .syncAndClock
  | .mfmClockCell _ _ => .syncAndClock
  | .mfmDataCell _ _ => .syncAndClock
  | .byteFrame _ _ => .syncAndClock
  | .amId => .sectorParser
  | .amData => .sectorParser
  | .amDataNoId => .sectorParser
  | .amOther _ => .sectorParser
  | .idTrack _ => .sectorParser
  | .idSide _ => .sectorParser
  | .idSector _ => .sectorParser
  | .idSizeValid _ => .sectorParser
  | .idSizeInvalid _ => .sectorParser
  | .idCrcHi _ => .sectorParser
  | .idCrcLo _ => .sectorParser
  | .dataByte _ => .sectorParser
  | .dataCrcHi _ => .sectorParser
  | .dataCrcLo _ => .sectorParser
  | .byteTerminated _ => .sectorParser
  | .byteNone _ => .sectorParser
  | .crcStep _ _ => .crcChecker

/-! ### Runs -/

/-- The operations of a list, one after another. -/
def execAll (is : List Instr) (s : State) : Result :=
  match is with
  | [] => .next s
  | i :: rest => andThen (exec i s) (execAll rest)

/-- The bytes of a list, each read in the context it arrives in, one after another (43_sector_fsm.md R181). -/
def execBytes (vs : List Byte) (s : State) : Result :=
  match vs with
  | [] => .next s
  | v :: rest => andThen (exec (decodeByte (context s) v) s) (execBytes rest)

/-- CELL operations for a list of cells. -/
def cellInstrs (cs : List BitCell) : List Instr :=
  cs.map fun c => .cell c.bit c.start c.stop

/-! ### Invariants -/

/-- The decoded sizes `128 << c` for `c` in 0..6 (30_encoding.md R96). -/
def payloadSizes : List Nat := [128, 256, 512, 1024, 2048, 4096, 8192]

/-- The states of the parser inside a data field after its mark (10_state.md R28). -/
def inDataField (f : FsmState) : Bool :=
  match f with
  | .data => true
  | .dataCrcHi => true
  | .dataCrcLo => true
  | _ => false

/-- The states of the parser inside an ID field after its size byte (10_state.md R28). -/
def inIdCrc (f : FsmState) : Bool :=
  match f with
  | .idCrcHi => true
  | .idCrcLo => true
  | _ => false

/-- What holds in every state a run reaches, whatever is presented at whichever interface. -/
structure BlockInv (s : State) : Prop where
  /-- BUF is in canonical form -/
  bufCanonical : Memory.wf s.buf
  /-- in DATA a payload byte is still due (43_sector_fsm.md R194) -/
  dataInside : s.fsm = .data → s.dataIdx.toNat < s.dataN.toNat
  /-- after the last payload byte DATA_IDX is DATA_N (R194) -/
  dataFull : s.fsm = .dataCrcHi ∨ s.fsm = .dataCrcLo → s.dataIdx = s.dataN
  /-- the length of a data field in progress is a decoded size (43_sector_fsm.md R184, R200) -/
  dataSize : inDataField s.fsm = true → s.dataN.toNat ∈ payloadSizes
  /-- a data field in progress has an established ID (R184), and so has an ID field after its size byte (R190) -/
  idForField : inDataField s.fsm = true ∨ inIdCrc s.fsm = true → s.idValid = true
  /-- after its size byte, an ID field's values are the established ones (43_sector_fsm.md R193) -/
  idHeld : inIdCrc s.fsm = true → s.idTrack = s.pTrack ∧ s.idSide = s.pSide ∧ s.idSector = s.pSector
  /-- an established ID has a valid size code and its size (10_state.md R31) -/
  idSized : s.idValid = true →
    s.idSizeCode.toNat ≤ Config.maxSizeCode.toNat ∧ s.decodedSize.toNat = 128 * 2 ^ s.idSizeCode.toNat
  /-- with no ID established the ID registers hold their reset value (10_state.md R31) -/
  idUnset : s.idValid = false →
    s.idTrack = 0 ∧ s.idSide = 0 ∧ s.idSector = 0 ∧ s.idSizeCode = 0 ∧ s.decodedSize = 0
  /-- a chunker is alive only with a parser instance (42_sync_and_clock.md R152) -/
  chunkerHasParser : s.chActive = true → s.fsm ≠ .none

/-- What holds besides in every state a host reaches through its transactions alone. -/
structure HostInv (s : State) : Prop where
  /-- only host transactions are presented -/
  hostOnly : ∀ it ∈ s.input, ∃ w, it = .host w
  /-- the chunker is alive from the first lock to END (42_sync_and_clock.md R157, R153) -/
  chunkerLife : s.chActive = true ↔ s.fsm ≠ .none ∧ s.ended = false
  /-- after END the parser is at rest (45_host_control.md R254) -/
  endedParser : s.ended = true → s.fsm = .none ∨ s.fsm = .terminated
  /-- before the first accepted edge nothing has been recorded or decoded (41_flux_demodulator.md R121) -/
  noEdgeYet : s.havePrev = false → s.prev = 0 ∧ s.syncSr = 0 ∧ s.fsm = .none

/-! ### What a state shows -/

/-- Every element of the table of 70_reset_and_hazards.md R320 at its reset value; BUF, which the table leaves unspecified,
is left out. -/
def AtResetValues (s : State) : Prop :=
  s.cfgSr = 0 ∧ s.cfgBf = 0 ∧ s.havePrev = false ∧ s.prev = 0 ∧ s.syncSr = 0 ∧
  s.chActive = false ∧ s.chPhase = false ∧ s.chClk = false ∧ s.chDprev = false ∧
  s.chClkStart = 0 ∧ s.chByteStart = 0 ∧ s.chDshift = 0 ∧ s.chNbits = 0 ∧ s.fsm = .none ∧
  s.pTrack = 0 ∧ s.pSide = 0 ∧ s.pSector = 0 ∧ s.crcHi = 0 ∧ s.dataN = 0 ∧ s.dataIdx = 0 ∧
  s.idTrack = 0 ∧ s.idSide = 0 ∧ s.idSector = 0 ∧ s.idSizeCode = 0 ∧ s.decodedSize = 0 ∧ s.idValid = false ∧
  s.ended = false ∧ s.cmdErr = false ∧ s.orderErr = false ∧ s.cfgErr = false ∧
  s.cntDrop = 0 ∧ s.cntLock = 0 ∧ s.cntClkErr = 0 ∧ s.cntProto = 0 ∧ s.cntCrcErr = 0 ∧ s.cntRec = 0 ∧
  status s = 0

/-- The registers of 10_state.md R42 in index order, each zero-extended to 32 bits. -/
def registerFile (s : State) : List Word32 :=
  [s.cfgSr, s.cfgBf, status s, s.cntDrop, s.cntLock, s.cntClkErr, s.cntProto, s.cntCrcErr, s.cntRec]
    ++ [s.idTrack.setWidth 32, s.idSide.setWidth 32, s.idSector.setWidth 32, s.idSizeCode.setWidth 32]
    ++ [s.decodedSize.setWidth 32, s.syncSr.setWidth 32]

/-- An EDGE is accepted: the run has not ended and both configuration registers are non-zero (41_flux_demodulator.md R120). -/
def accepts (s : State) : Prop :=
  s.ended = false ∧ s.cfgSr ≠ 0 ∧ s.cfgBf ≠ 0

/-- The bits of a host word its transaction uses: the TAG, and of the PAYLOAD the operand (30_encoding.md R81, R82). -/
def usedBits (tag : BitVec 4) : HostWord :=
  match tag.toNat with
  | 2 => hostWord 0xF 0xFFFFFFFF
  | 3 => hostWord 0xF 0xFFFFFFFF
  | 4 => hostWord 0xF 0xFFFFFFFFFFFFFFFF
  | 6 => hostWord 0xF 0xFF
  | _ => hostWord 0xF 0

/-! ### The transition table of the parser -/

/-- The next state and the events of a byte, row by row the table of 43_sector_fsm.md R199. -/
def spRow (s : State) (v : Byte) : FsmState × List Event :=
  match s.fsm with
  | .none => (.none, [])
  | .addressMark =>
    if v = 0xFE#8 then (.idTrack, [])
    else if v = 0xFB#8 then (if s.idValid then (.data, []) else (.terminated, [.dataNoId]))
    else (.terminated, [.badAm v])
  | .idTrack => (.idSide, [])
  | .idSide => (.idSector, [])
  | .idSector => (.idSize, [])
  | .idSize => if v.toNat ≤ 6 then (.idCrcHi, []) else (.terminated, [.badSize v])
  | .idCrcHi => (.idCrcLo, [])
  | .idCrcLo =>
    (.terminated,
      if s.crcHi ++ v = computedIdCrc s then [] else [.idCrcErr (s.crcHi ++ v) (computedIdCrc s)])
  | .data => (if s.dataIdx.toNat + 1 < s.dataN.toNat then .data else .dataCrcHi, [])
  | .dataCrcHi => (.dataCrcLo, [])
  | .dataCrcLo => (.terminated, [recordOf (Memory.slice s.buf s.dataN.toNat) (s.crcHi ++ v) s])
  | .terminated => (.terminated, [])

/-! ### Where an operation stores into BUF -/

/-- The index of BUF that a byte stores to, if it stores: DATA_IDX, in DATA (43_sector_fsm.md R194). -/
def byteStore (s : State) : Option Nat :=
  if s.fsm = .data then some s.dataIdx.toNat else none

/-- The index of BUF that a data cell stores to: a byte is delivered at the eighth data bit (42_sync_and_clock.md R156). -/
def dataCellStore (s : State) : Option Nat :=
  if s.chNbits = 7 then byteStore s else none

/-- The index of BUF that a cell stores to: it must be a data cell that does not lock (42_sync_and_clock.md R150). -/
def cellStore (b : Bool) (s : State) : Option Nat :=
  if shiftIn s.syncSr b ≠ Config.syncPattern ∧ s.chActive = true ∧ s.chPhase = true then dataCellStore s else none

/-- The indices of BUF that a sequence of cells stores to. -/
def cellStores (cs : List BitCell) (s : State) : List Nat :=
  match cs with
  | [] => []
  | c :: rest =>
    (cellStore c.bit s).toList ++
      match cellStep c s with
      | .next t => cellStores rest t
      | .fault _ => []
      | .refused _ => []

/-- The cells of the gap that an EDGE closes; none where it is refused, is the first edge or is a DROP
(41_flux_demodulator.md R120). -/
def edgeCells (t : Timestamp) (s : State) : List BitCell :=
  if s.ended = false ∧ s.cfgSr ≠ 0 ∧ s.cfgBf ≠ 0 ∧ s.havePrev = true then
    gapCells s.cfgSr s.cfgBf s.prev t (cellCount s.tieRule s.cfgSr s.cfgBf s.prev t).toNat
  else []

/-- The state in which an EDGE performs the first cell of the gap it closes (41_flux_demodulator.md R120, R127). -/
def edgeStart (t : Timestamp) (s : State) : State :=
  { s with prev := t, orderErr := s.orderErr || decide (gapDelta s.prev t ≤ 0) }

/-- The indices of BUF that an EDGE stores to: those of the cells of the gap it closes. -/
def edgeStores (t : Timestamp) (s : State) : List Nat :=
  cellStores (edgeCells t s) (edgeStart t s)

/-! ### Which operations establish an ID -/

/-- A byte establishes an ID: it is the size byte of an ID field, at most 6 (43_sector_fsm.md R190). -/
def byteEstablishes (v : Byte) (s : State) : Prop :=
  s.fsm = .idSize ∧ v.toNat ≤ 6

/-- A data cell establishes an ID: it completes a byte that does (42_sync_and_clock.md R156). -/
def dataCellEstablishes (b : Bool) (s : State) : Prop :=
  s.chNbits = 7 ∧ byteEstablishes (s.chDshift <<< 1 ||| (if b then 1 else 0)) s

/-- A cell establishes an ID: it does not lock and is a data cell that does (42_sync_and_clock.md R150). -/
def cellEstablishes (b : Bool) (s : State) : Prop :=
  s.syncSr <<< 1 ||| (if b then 1 else 0) ≠ 0x4489 ∧ s.chActive = true ∧ s.chPhase = true ∧ dataCellEstablishes b s

/-- A sequence of cells establishes an ID: one of its cells does, in the state the cells before it leave. -/
def cellsEstablish (cs : List BitCell) (s : State) : Prop :=
  ∃ before c after u, cs = before ++ c :: after ∧ feedCells before s = .next u ∧ cellEstablishes c.bit u

/-- An operation establishes an ID (10_state.md R31, R32): a byte, a cell or a data cell that does, or an EDGE or a BYTE_FRAME
one of whose cells does; no other operation. -/
def establishesId (i : Instr) (s : State) : Prop :=
  match i with
  | .edge t => cellsEstablish (edgeCells t s) (edgeStart t s)
  | .cell b _ _ => cellEstablishes b s
  | .mfmDataCell b _ => dataCellEstablishes b s
  | .byteFrame cells start => cellsEstablish (frameCells cells start s.cfgSr) s
  | .amId => byteEstablishes 0xFE s
  | .amData | .amDataNoId => byteEstablishes 0xFB s
  | .amOther v | .idTrack v | .idSide v | .idSector v | .idSizeValid v | .idSizeInvalid v | .idCrcHi v | .idCrcLo v
  | .dataByte v | .dataCrcHi v | .dataCrcLo v | .byteTerminated v | .byteNone v => byteEstablishes v s
  | .reset | .cfgSr _ | .cfgBf _ | .endRun | .rdreg _ | .reserved0 | .reserved7 | .reserved8ToF _ | .syncLock _ _
  | .mfmClockCell _ _ | .crcStep _ _ => False

/-- The established ID is the same in both states (10_state.md R31, R32). -/
structure SameId (s t : State) : Prop where
  idTrack : t.idTrack = s.idTrack
  idSide : t.idSide = s.idSide
  idSector : t.idSector = s.idSector
  idSizeCode : t.idSizeCode = s.idSizeCode
  decodedSize : t.decodedSize = s.decodedSize
  idValid : t.idValid = s.idValid

/-! ### What an operation leaves alone -/

/-- What a byte never touches: the parameter, the configuration, the demodulator, the sync register, the chunker, the flags
other than ID_VALID and the counters of other sub-blocks. -/
structure SpFrame (s t : State) : Prop where
  tieRule : t.tieRule = s.tieRule
  cfgSr : t.cfgSr = s.cfgSr
  cfgBf : t.cfgBf = s.cfgBf
  havePrev : t.havePrev = s.havePrev
  prev : t.prev = s.prev
  syncSr : t.syncSr = s.syncSr
  chActive : t.chActive = s.chActive
  chPhase : t.chPhase = s.chPhase
  chClk : t.chClk = s.chClk
  chClkStart : t.chClkStart = s.chClkStart
  chDprev : t.chDprev = s.chDprev
  chDshift : t.chDshift = s.chDshift
  chNbits : t.chNbits = s.chNbits
  chByteStart : t.chByteStart = s.chByteStart
  ended : t.ended = s.ended
  cmdErr : t.cmdErr = s.cmdErr
  orderErr : t.orderErr = s.orderErr
  cfgErr : t.cfgErr = s.cfgErr
  cntDrop : t.cntDrop = s.cntDrop
  cntLock : t.cntLock = s.cntLock
  cntClkErr : t.cntClkErr = s.cntClkErr
  crcPort : t.crcPort = s.crcPort
  input : t.input = s.input

/-- What a cell never touches: the parameter, the configuration, the demodulator and the host's flags. -/
structure CellFrame (s t : State) : Prop where
  tieRule : t.tieRule = s.tieRule
  cfgSr : t.cfgSr = s.cfgSr
  cfgBf : t.cfgBf = s.cfgBf
  havePrev : t.havePrev = s.havePrev
  prev : t.prev = s.prev
  ended : t.ended = s.ended
  cmdErr : t.cmdErr = s.cmdErr
  orderErr : t.orderErr = s.orderErr
  cfgErr : t.cfgErr = s.cfgErr
  cntDrop : t.cntDrop = s.cntDrop
  crcPort : t.crcPort = s.crcPort
  input : t.input = s.input

/-! ### The bytes of BUF that count -/

/-- How many bytes of BUF the rules can still read: those the data field in progress has written (10_state.md R30). -/
def liveBytes (s : State) : Nat :=
  match s.fsm with
  | .data => s.dataIdx.toNat
  | .dataCrcHi => s.dataN.toNat
  | .dataCrcLo => s.dataN.toNat
  | _ => 0

/-- Two states that differ at most in bytes of BUF that the data field in progress has not written. -/
def SameButUnwritten (s s' : State) : Prop :=
  s' = { s with buf := s'.buf } ∧ ∀ i < liveBytes s, Memory.read s'.buf i = Memory.read s.buf i

end Sys2Proof.Machine
end

