-- ==== Sys2Proof/Certificates/Slice0/Obligations.lean ====
section
/-!
DEFINITION. The statements about the model, for the provers: encodings, host control, the flux demodulator, the sync detector
and clock validator, the sector parser, the CRC checker, and the whole machine. OBLIGATIONS.json gives each its words.
-/

section Statements

open Sys2Proof Sys2Proof.Machine

/-! ### Encodings (30_encoding.md) -/

/-- O1. A host word is the transaction its TAG names, its operand the low bits of PAYLOAD (R81, R82). -/
def Obligations.HostWordsDecodeByTag : Prop :=
  ∀ (c : Context) (p : BitVec 64),
    decode c (.host (0x0#4 ++ p)) = .reserved0 ∧
    decode c (.host (0x1#4 ++ p)) = .reset ∧
    decode c (.host (0x2#4 ++ p)) = .cfgSr (p.extractLsb' 0 32) ∧
    decode c (.host (0x3#4 ++ p)) = .cfgBf (p.extractLsb' 0 32) ∧
    decode c (.host (0x4#4 ++ p)) = .edge p ∧
    decode c (.host (0x5#4 ++ p)) = .endRun ∧
    decode c (.host (0x6#4 ++ p)) = .rdreg (p.extractLsb' 0 8) ∧
    decode c (.host (0x7#4 ++ p)) = .reserved7 ∧
    ∀ tag : BitVec 4, 8 ≤ tag.toNat → decode c (.host (tag ++ p)) = .reserved8ToF tag

/-- O2. Words written out from the encodings decode to the operations they stand for (30_encoding.md, 95_test_vectors.md). -/
def Obligations.WordsWrittenOutDecode : Prop :=
  decodeTableWord 68 0x10000000000000000 = some .reset ∧
  decodeTableWord 68 0x200000000016E3600 = some (.cfgSr 24000000) ∧
  decodeTableWord 68 0x3000000000007A120 = some (.cfgBf 500000) ∧
  decodeTableWord 68 0x4FFFFFFFFFFFFFFFF = some (.edge 0xFFFFFFFFFFFFFFFF) ∧
  decodeTableWord 68 0x50000000000000000 = some .endRun ∧
  decodeTableWord 68 0x6000000000000FF0E = some (.rdreg 0x0E) ∧
  decodeTableWord 68 0x00000000000000000 = some .reserved0 ∧
  decodeTableWord 68 0x70000000000000000 = some .reserved7 ∧
  decodeTableWord 68 0x80000000000000001 = some (.reserved8ToF 0x8) ∧
  decodeTableWord 68 0xF0000000000000000 = some (.reserved8ToF 0xF) ∧
  decodeTableWord 16 0x4489 = some (.syncLock true 0) ∧
  decodeTableWord 16 0x44A9 = some (.byteFrame 0x44A9 0) ∧
  decodeTableWord 24 0xFFFFA1 = some (.crcStep 0xFFFF 0xA1) ∧
  decodeTableWord 8 0xFE = some .amId ∧
  decodeTableWord 8 0xA1 = some (.amOther 0xA1) ∧
  decode { fsm := .addressMark, idValid := true } (.byte 0xFB 0 1) = .amData ∧
  decode { fsm := .addressMark, idValid := false } (.byte 0xFB 0 1) = .amDataNoId ∧
  decode { fsm := .idSize, idValid := false } (.byte 0x06 0 1) = .idSizeValid 0x06 ∧
  decode { fsm := .idSize, idValid := false } (.byte 0x07 0 1) = .idSizeInvalid 0x07 ∧
  decode { fsm := .data, idValid := true } (.byte 0xFB 0 1) = .dataByte 0xFB

/-- O3. Encoding an operation and decoding it again gives it back, every operand at every value (30_encoding.md,
43_sector_fsm.md, 92_eei_decisions.md). -/
def Obligations.DecodeOfEncodeIsTheOperation : Prop :=
  ∀ (i : Instr) (c : Context), i.wf = true → i.fits c = true → decode c (encode i) = i

/-- O4. Re-encoding a decoded host word gives the word with its ignored PAYLOAD bits cleared and nothing else changed
(30_encoding.md). -/
def Obligations.HostWordSurvivesButItsIgnoredBits : Prop :=
  ∀ (c : Context) (w : HostWord), encode (decode c (.host w)) = .host (w &&& usedBits (hostTag w))

/-- O5. Decoding is total: every host word and every byte is a well-formed operation whose row applies (30_encoding.md,
43_sector_fsm.md). -/
def Obligations.EveryItemIsARowThatApplies : Prop :=
  (∀ (c : Context) (w : HostWord), (decode c (.host w)).wf = true ∧ (decode c (.host w)).fits c = true) ∧
  (∀ (c : Context) (v : Byte) (start stop : Scaled),
    (decode c (.byte v start stop)).wf = true ∧ (decode c (.byte v start stop)).fits c = true) ∧
  (∀ (c : Context) (b : Bool) (start stop : Scaled), start.toNat < stop.toNat →
    (decode c (.cell b start stop)).wf = true) ∧
  ∀ (c : Context) (stop : Scaled), (decode c (.lock true stop)).wf = true

/-- O6. A step performs the oldest presented item as the operation it decodes to; with nothing presented it changes nothing
(45_host_control.md, 60_exceptions.md, 00_scope.md). -/
def Obligations.StepPerformsTheNextItem : Prop :=
  (∀ (s : State) (it : Item) (rest : List Item), s.input = it :: rest →
    step s = exec (decode { fsm := s.fsm, idValid := s.idValid } it) { s with input := rest }) ∧
  ∀ s : State, s.input = [] → step s = .next s

/-! ### Reset and host control (45_host_control.md, 70_reset_and_hazards.md) -/

/-- O7. Power-on and RESET give every element of the state its reset value; RESET emits nothing and retracts nothing (R320,
R251). -/
def Obligations.ResetGivesEveryElementItsValue : Prop :=
  AtResetValues State.reset ∧
  ∀ s : State, ∃ t, exec .reset s = .next t ∧ AtResetValues t ∧ t.out = s.out

/-- O8. RESET leaves nothing of the state: only TIE_RULE, what is presented and what was emitted stay (logs 1 to 4, 10)
(45_host_control.md, 70_reset_and_hazards.md, 10_state.md). -/
def Obligations.ResetKeepsOnlyWhatIsNotState : Prop :=
  (∀ s : State, exec .reset s = .next { State.reset with tieRule := s.tieRule, input := s.input, out := s.out }) ∧
  State.reset.input = [] ∧ State.reset.out = [] ∧ State.reset.tieRule = .halfEven ∧ State.reset.crcPort = 0 ∧
  ∀ i : Nat, Memory.read State.reset.buf i = 0

/-- O9. CFG_SR and CFG_BF write their register alone, effective at the next EDGE, or after END set CMD_ERR alone (R252,
R253). -/
def Obligations.CfgWritesItsRegisterAlone : Prop :=
  ∀ (s : State) (value : Word32) (c : Context) (p : BitVec 64),
    (s.ended = false →
      exec (.cfgSr value) s = .next { s with cfgSr := value } ∧
      exec (.cfgBf value) s = .next { s with cfgBf := value } ∧
      configured { s with cfgSr := 0 } = false ∧ configured { s with cfgBf := 0 } = false ∧
      ∀ t : Timestamp,
        execAll [.cfgSr 0, .edge t] s = .next { s with cfgSr := 0, cfgErr := true } ∧
        execAll [.cfgBf 0, .edge t] s = .next { s with cfgBf := 0, cfgErr := true } ∧
        (value ≠ 0 → s.havePrev = true →
          let orderErr := s.orderErr || decide (t.toNat ≤ s.prev.toNat)
          (s.cfgBf ≠ 0 →
            let n := cellCount s.tieRule value s.cfgBf s.prev t
            let s1 : State := { s with cfgSr := value, prev := t, orderErr := orderErr }
            execAll [.cfgSr value, .edge t] s =
              if n ≤ 0 then .next { s1 with cntDrop := s.cntDrop + 1, out := s.out ++ [.drop s.prev t] }
              else execAll (cellInstrs (gapCells value s.cfgBf s.prev t n.toNat)) s1) ∧
          (s.cfgSr ≠ 0 →
            let n := cellCount s.tieRule s.cfgSr value s.prev t
            let s1 : State := { s with cfgBf := value, prev := t, orderErr := orderErr }
            execAll [.cfgBf value, .edge t] s =
              if n ≤ 0 then .next { s1 with cntDrop := s.cntDrop + 1, out := s.out ++ [.drop s.prev t] }
              else execAll (cellInstrs (gapCells s.cfgSr value s.prev t n.toNat)) s1))) ∧
    (s.ended = true →
      exec (.cfgSr value) s = .next { s with cmdErr := true } ∧
      exec (.cfgBf value) s = .next { s with cmdErr := true }) ∧
    decode c (.host (0x2#4 ++ p)) = .cfgSr (p.extractLsb' 0 32) ∧
    decode c (.host (0x3#4 ++ p)) = .cfgBf (p.extractLsb' 0 32)

/-- O10. END discards the chunker, ends the parse, sets ENDED and emits EOS last; a second END only sets CMD_ERR (R254). -/
def Obligations.EndClosesTheRun : Prop :=
  ∀ s : State,
    (s.ended = false →
      exec .endRun s =
        .next
          { s with
            chActive := false
            fsm := if s.fsm = .none then .none else .terminated
            ended := true
            out := s.out ++ [.eos] }) ∧
    (s.ended = true → exec .endRun s = .next { s with cmdErr := true }) ∧
    ∀ (c : Context) (p : BitVec 64), decode c (.host (0x5#4 ++ p)) = .endRun

/-- O11. RDREG emits the register at its index, zero-extended; a reserved index reads 0 and sets CMD_ERR (R255, R42). -/
def Obligations.RdregEmitsOneRegisterValue : Prop :=
  ∀ (s : State) (index : Byte),
    (∀ value, (registerFile s)[index.toNat]? = some value →
      exec (.rdreg index) s = .next { s with out := s.out ++ [.regValue index value] }) ∧
    (index.toNat ≤ 0x0E → ∃ value, (registerFile s)[index.toNat]? = some value) ∧
    (0x0F ≤ index.toNat →
      exec (.rdreg index) s = .next { s with cmdErr := true, out := s.out ++ [.regValue index 0] }) ∧
    ∀ (c : Context) (p : BitVec 64), decode c (.host (0x6#4 ++ p)) = .rdreg (p.extractLsb' 0 8)

/-- O12. STATUS is composed of CONFIGURED, HAVE_PREV, CH_ACTIVE, ID_VALID, FSM_STATE and the four error flags; the rest is 0
(R38). -/
def Obligations.StatusComposesTheFlags : Prop :=
  (∀ s : State,
    (status s).getLsbD 0 = decide (s.cfgSr ≠ 0 ∧ s.cfgBf ≠ 0) ∧
    (status s).getLsbD 1 = s.havePrev ∧
    (status s).getLsbD 2 = s.chActive ∧
    (status s).getLsbD 3 = s.idValid ∧
    (status s).extractLsb' 4 4 = fsmCode s.fsm ∧
    (status s).getLsbD 8 = s.ended ∧
    (status s).getLsbD 9 = s.cmdErr ∧
    (status s).getLsbD 10 = s.orderErr ∧
    (status s).getLsbD 11 = s.cfgErr ∧
    (status s).extractLsb' 12 20 = 0) ∧
  [FsmState.none, .addressMark, .idTrack, .idSide, .idSector, .idSize, .idCrcHi, .idCrcLo, .data, .dataCrcHi,
      .dataCrcLo, .terminated].map fsmCode =
    (List.range 12).map (BitVec.ofNat 4) ∧
  status State.reset = 0

/-- O13. A reserved word sets CMD_ERR and does nothing else, in every state (R256). -/
def Obligations.ReservedWordsSetCmdErr : Prop :=
  ∀ s : State,
    exec .reserved0 s = .next { s with cmdErr := true } ∧
    exec .reserved7 s = .next { s with cmdErr := true } ∧
    (∀ tag : BitVec 4, exec (.reserved8ToF tag) s = .next { s with cmdErr := true }) ∧
    ∀ (c : Context) (tag : BitVec 4) (p : BitVec 64), tag = 0x0#4 ∨ 7 ≤ tag.toNat →
      exec (decode c (.host (tag ++ p))) s = .next { s with cmdErr := true }

/-- O14. After END, EDGE, CFG_SR, CFG_BF and END only set CMD_ERR; RDREG, RESET and reserved words are as ever (R257, R129). -/
def Obligations.AfterEndOnlyCmdErr : Prop :=
  ∀ s : State, s.ended = true →
    (∀ t, exec (.edge t) s = .next { s with cmdErr := true }) ∧
    (∀ value, exec (.cfgSr value) s = .next { s with cmdErr := true }) ∧
    (∀ value, exec (.cfgBf value) s = .next { s with cmdErr := true }) ∧
    exec .endRun s = .next { s with cmdErr := true } ∧
    (∀ index : Byte,
      exec (.rdreg index) s =
        .next
          { s with
            cmdErr := s.cmdErr || decide (0x0F ≤ index.toNat)
            out := s.out ++ [.regValue index ((registerFile s).getD index.toNat 0)] }) ∧
    (∃ t, exec .reset s = .next t ∧ AtResetValues t ∧ t.out = s.out) ∧
    exec .reserved0 s = .next { s with cmdErr := true } ∧
    exec .reserved7 s = .next { s with cmdErr := true } ∧
    ∀ tag : BitVec 4, exec (.reserved8ToF tag) s = .next { s with cmdErr := true }

/-! ### The flux demodulator (41_flux_demodulator.md) -/

/-- O15. An EDGE while CFG_SR = 0 or CFG_BF = 0 sets CFG_ERR and changes nothing else (R128). -/
def Obligations.EdgeBeforeConfigurationIsRefused : Prop :=
  ∀ (s : State) (t : Timestamp), s.ended = false → s.cfgSr = 0 ∨ s.cfgBf = 0 →
    exec (.edge t) s = .next { s with cfgErr := true }

/-- O16. The first accepted edge only records its time; every accepted edge leaves PREV at its own time (R121). -/
def Obligations.AcceptedEdgeRecordsItsTime : Prop :=
  ∀ (s : State) (t : Timestamp), accepts s →
    (s.havePrev = false → exec (.edge t) s = .next { s with havePrev := true, prev := t }) ∧
    ∀ u, exec (.edge t) s = .next u → u.havePrev = true ∧ u.prev = t

/-- O17. round_T(q, d) is the integer nearest to q / d, a tie to the even one under HALF_EVEN and up under HALF_UP (R122). -/
def Obligations.RoundIsTheNearestInteger : Prop :=
  ∀ (tie : TieRule) (q : Int) (d : Nat), 0 < d →
    (2 * (q % d) < d → roundT tie q d = q / d) ∧
    ((d : Int) < 2 * (q % d) → roundT tie q d = q / d + 1) ∧
    (2 * (q % d) = d → q / d % 2 = 0 → roundT .halfEven q d = q / d) ∧
    (2 * (q % d) = d → q / d % 2 = 1 → roundT .halfEven q d = q / d + 1) ∧
    (2 * (q % d) = d → roundT .halfUp q d = q / d + 1) ∧
    -(d : Int) ≤ 2 * (q - roundT tie q d * d) ∧ 2 * (q - roundT tie q d * d) ≤ d ∧
    (2 * (q - roundT tie q d * d) = d ∨ 2 * (q - roundT tie q d * d) = -d →
      (tie = .halfEven → roundT tie q d % 2 = 0) ∧ (tie = .halfUp → q < roundT tie q d * d))

/-- O18. A gap that rounds to no cell is a DROP: counted, emitted with both raw timestamps, PREV moved, nothing else (R126). -/
def Obligations.GapUnderHalfACellIsDropped : Prop :=
  ∀ (s : State) (t : Timestamp), accepts s → s.havePrev = true →
    (cellCount s.tieRule s.cfgSr s.cfgBf s.prev t ≤ 0 ↔
      2 * (((t.toNat : Int) - s.prev.toNat) * s.cfgBf.toNat) < s.cfgSr.toNat ∨
      2 * (((t.toNat : Int) - s.prev.toNat) * s.cfgBf.toNat) = s.cfgSr.toNat ∧ s.tieRule = .halfEven) ∧
    (2 * (((t.toNat : Int) - s.prev.toNat) * s.cfgBf.toNat) < s.cfgSr.toNat ∨
      2 * (((t.toNat : Int) - s.prev.toNat) * s.cfgBf.toNat) = s.cfgSr.toNat ∧ s.tieRule = .halfEven →
      exec (.edge t) s =
        .next
          { s with
            prev := t
            orderErr := s.orderErr || decide (t.toNat ≤ s.prev.toNat)
            cntDrop := s.cntDrop + 1
            out := s.out ++ [.drop s.prev t] })

/-- O19. A timestamp not above PREV sets ORDER_ERR and is a DROP, PREV taking the new value (R127). -/
def Obligations.TimestampNotAbovePrevIsADrop : Prop :=
  ∀ (s : State) (t : Timestamp), accepts s → s.havePrev = true → t.toNat ≤ s.prev.toNat →
    exec (.edge t) s =
      .next
        { s with
          prev := t
          orderErr := true
          cntDrop := s.cntDrop + 1
          out := s.out ++ [.drop s.prev t] }

/-- O20. EDGE: refused, recorded, dropped, or performed as the CELL operations of its gap, at exact scaled times (R120, R123,
R124, R125). -/
def Obligations.EdgeRunsTheCellsOfItsGap : Prop :=
  ∀ (s : State) (t : Timestamp), BlockInv s → ∃ u, exec (.edge t) s = .next u ∧
    if s.ended = true then u = { s with cmdErr := true }
    else if s.cfgSr = 0 ∨ s.cfgBf = 0 then u = { s with cfgErr := true }
    else if s.havePrev = false then u = { s with havePrev := true, prev := t }
    else
      let delta : Int := (t.toNat : Int) - s.prev.toNat
      let p : Int := roundT s.tieRule (delta * s.cfgBf.toNat) s.cfgSr.toNat
      let s1 : State := { s with prev := t, orderErr := s.orderErr || decide (delta ≤ 0) }
      if p ≤ 0 then u = { s1 with cntDrop := s.cntDrop + 1, out := s.out ++ [.drop s.prev t] }
      else
        execAll
            ((List.range p.toNat).map fun i =>
              Instr.cell (decide (i = 0))
                (BitVec.ofNat 96 (s.prev.toNat * s.cfgBf.toNat + i * s.cfgSr.toNat))
                (if i + 1 < p.toNat then BitVec.ofNat 96 (s.prev.toNat * s.cfgBf.toNat + (i + 1) * s.cfgSr.toNat)
                else BitVec.ofNat 96 (t.toNat * s.cfgBf.toNat)))
            s1 =
          .next u

/-- O21. The cells of a gap tile it exactly: adjacent, nominal but the last, one 1 first, no scaled time overflows
(41_flux_demodulator.md). -/
def Obligations.GapCellsTileTheGap : Prop :=
  ∀ (tie : TieRule) (sr bf : Word32) (prev t : Timestamp), sr ≠ 0 → 0 < cellCount tie sr bf prev t →
    let p := (cellCount tie sr bf prev t).toNat
    let cs := gapCells sr bf prev t p
    cs.map BitCell.bit = true :: List.replicate (p - 1) false ∧
    (∀ i, i < p → ∃ c, cs[i]? = some c ∧ c.start.toNat = prev.toNat * bf.toNat + i * sr.toNat ∧
      c.stop.toNat = (if i + 1 < p then prev.toNat * bf.toNat + (i + 1) * sr.toNat else t.toNat * bf.toNat) ∧
      c.start.toNat < c.stop.toNat) ∧
    (∀ c, cs.getLast? = some c →
      sr.toNat ≤ 2 * (c.stop.toNat - c.start.toNat) ∧ 2 * (c.stop.toNat - c.start.toNat) ≤ 3 * sr.toNat) ∧
    (cs.map fun c => c.stop.toNat - c.start.toNat).sum = (t.toNat - prev.toNat) * bf.toNat

/-- O22. A gap of exactly k nominal cells gives k cells, each of the nominal length, under either tie rule
(41_flux_demodulator.md). -/
def Obligations.WholeGapsNeedNoRounding : Prop :=
  ∀ (tie : TieRule) (sr bf : Word32) (prev t : Timestamp) (k : Nat), sr ≠ 0 → 0 < k →
    t.toNat * bf.toNat = prev.toNat * bf.toNat + k * sr.toNat →
    cellCount tie sr bf prev t = k ∧
    ∀ i, i < k → ∃ c, (gapCells sr bf prev t k)[i]? = some c ∧ c.stop.toNat = c.start.toNat + sr.toNat

/-- O23. What an EDGE leaves alone: configuration, host flags, other queues, and every byte of BUF its cells do not store to
(41_flux_demodulator.md, 42_sync_and_clock.md, 43_sector_fsm.md). -/
def Obligations.EdgeFrame : Prop :=
  ∀ (s : State) (t : Timestamp) (u : State), exec (.edge t) s = .next u →
    u.tieRule = s.tieRule ∧ u.cfgSr = s.cfgSr ∧ u.cfgBf = s.cfgBf ∧ u.ended = s.ended ∧
    u.crcPort = s.crcPort ∧ u.input = s.input ∧
    (s.ended = false → u.cmdErr = s.cmdErr) ∧
    (s.ended = true ∨ s.cfgSr ≠ 0 ∧ s.cfgBf ≠ 0 → u.cfgErr = s.cfgErr) ∧
    u.orderErr =
      (s.orderErr || decide (s.ended = false ∧ s.cfgSr ≠ 0 ∧ s.cfgBf ≠ 0 ∧ s.havePrev = true ∧ t.toNat ≤ s.prev.toNat)) ∧
    (∃ evs, u.out = s.out ++ evs) ∧
    ∀ j, j ∉ edgeStores t s → Memory.read u.buf j = Memory.read s.buf j

/-! ### Sync detector and clock validator (42_sync_and_clock.md) -/

/-- O24. CELL shifts SYNC_SR, and then locks, or stops before the first lock, or is a clock or a data cell (R150, R151). -/
def Obligations.CellShiftsThenDispatches : Prop :=
  (∀ (b : Bool) (start stop : Scaled) (s : State),
    let s1 : State := { s with syncSr := s.syncSr <<< 1 ||| (if b then 1 else 0) }
    exec (.cell b start stop) s =
      if s1.syncSr = 0x4489 then exec (.syncLock b stop) s1
      else if s1.chActive = false then .next s1
      else if s1.chPhase = false then exec (.mfmClockCell b start) s1
      else exec (.mfmDataCell b stop) s1) ∧
  ∀ r : Word16,
    [false, true, false, false, false, true, false, false, true, false, false, false, true, false, false, true].foldl
        (fun (r : Word16) b => r <<< 1 ||| (if b then 1 else 0)) r =
      0x4489

/-- O25. A lock counts and emits LOCK, seeds a fresh chunker with a 1 and restarts the parser, and changes nothing else
(R152, R180, R158). -/
def Obligations.LockRestartsChunkerAndParser : Prop :=
  (∀ (b : Bool) (stop : Scaled) (s : State),
    exec (.syncLock b stop) s =
      .next
        { s with
          cntLock := s.cntLock + 1
          out := s.out ++ [.lock stop]
          chActive := true
          chPhase := false
          chDprev := b
          chDshift := 0
          chNbits := 0
          fsm := .addressMark }) ∧
  ∀ (b : Bool) (start stop : Scaled) (s : State), s.syncSr <<< 1 ||| (if b then 1 else 0) = 0x4489 →
    exec (.cell b start stop) s =
      .next
        { s with
          syncSr := 0x4489
          cntLock := s.cntLock + 1
          out := s.out ++ [.lock stop]
          chActive := true
          chPhase := false
          chDprev := true
          chDshift := 0
          chNbits := 0
          fsm := .addressMark }

/-- O26. Without a chunker, a cell that does not lock only shifts SYNC_SR (R153). -/
def Obligations.CellsBeforeTheFirstLockOnlyShift : Prop :=
  (∀ (b : Bool) (start stop : Scaled) (s : State), s.chActive = false →
    s.syncSr <<< 1 ||| (if b then 1 else 0) ≠ 0x4489 →
    exec (.cell b start stop) s = .next { s with syncSr := s.syncSr <<< 1 ||| (if b then 1 else 0) }) ∧
  State.reset.chActive = false ∧
  (∀ s t, exec .reset s = .next t → t.chActive = false) ∧
  ∀ s t, s.ended = false → exec .endRun s = .next t → t.chActive = false

/-- O27. A clock cell is held with its start, marks the start of a byte at its first pair, and emits nothing (R154). -/
def Obligations.ClockCellIsHeld : Prop :=
  (∀ (b : Bool) (start : Scaled) (s : State),
    exec (.mfmClockCell b start) s =
      .next
        { s with
          chClk := b
          chClkStart := start
          chByteStart := if s.chNbits = 0 then start else s.chByteStart
          chPhase := true }) ∧
  (∀ (b : Bool) (stop : Scaled) (s t : State), exec (.syncLock b stop) s = .next t → t.chPhase = false) ∧
  ∀ (b : Bool) (stop : Scaled) (s t : State), exec (.mfmDataCell b stop) s = .next t → t.chPhase = false

/-- O28. A data cell checks the clock against NOT(prev OR this), then takes the bit, and the eighth delivers the byte (R155,
R156). -/
def Obligations.DataCellChecksAndAssembles : Prop :=
  ∀ (b : Bool) (stop : Scaled) (s : State),
    let expected : Bool := !(s.chDprev || b)
    let s1 : State :=
      { s with
        cntClkErr := if s.chClk = expected then s.cntClkErr else s.cntClkErr + 1
        out := if s.chClk = expected then s.out else s.out ++ [.clkErr s.chClkStart stop s.chClk expected]
        chDprev := b
        chDshift := s.chDshift <<< 1 ||| (if b then 1 else 0)
        chPhase := false }
    (s.chNbits ≠ 7 → exec (.mfmDataCell b stop) s = .next { s1 with chNbits := s.chNbits + 1 }) ∧
    (s.chNbits = 7 →
      exec (.mfmDataCell b stop) s =
        exec (decodeByte { fsm := s.fsm, idValid := s.idValid } s1.chDshift) { s1 with chNbits := 0 })

/-- O29. A cell emits LOCK alone, or at most one CLKERR and then at most one parser event (60_exceptions.md,
42_sync_and_clock.md). -/
def Obligations.CellEmitsAtMostTwoEvents : Prop :=
  ∀ (b : Bool) (start stop : Scaled) (s u : State), exec (.cell b start stop) s = .next u →
    (s.syncSr <<< 1 ||| (if b then 1 else 0) = 0x4489 → u.out = s.out ++ [.lock stop]) ∧
    (s.syncSr <<< 1 ||| (if b then 1 else 0) ≠ 0x4489 →
      ∃ clk sp, u.out = s.out ++ clk ++ sp ∧ clk.length ≤ 1 ∧ sp.length ≤ 1 ∧
        (∀ e ∈ clk, eventKind e = 0x3) ∧ ∀ e ∈ sp, 4 ≤ (eventKind e).toNat ∧ (eventKind e).toNat ≤ 8)

/-- O30. What cells leave alone: configuration, FD state, host flags, and every byte of BUF but the one stored to
(42_sync_and_clock.md, 43_sector_fsm.md). -/
def Obligations.CellFrames : Prop :=
  (∀ (b : Bool) (start stop : Scaled) (s u : State), exec (.cell b start stop) s = .next u →
    CellFrame s u ∧ ∀ j, cellStore b s ≠ some j → Memory.read u.buf j = Memory.read s.buf j) ∧
  (∀ (b : Bool) (stop : Scaled) (s u : State), exec (.mfmDataCell b stop) s = .next u →
    CellFrame s u ∧ ∀ j, dataCellStore s ≠ some j → Memory.read u.buf j = Memory.read s.buf j) ∧
  ∀ (cells : Word16) (start : Scaled) (s u : State), exec (.byteFrame cells start) s = .next u →
    CellFrame s u ∧
      ∀ j, j ∉ cellStores (frameCells cells start s.cfgSr) s → Memory.read u.buf j = Memory.read s.buf j

/-- O31. With SYNC_SR = 0 the 15 cells 100010010001001 lock at the last one, and no shorter sequence can lock (R160). -/
def Obligations.FifteenCellsLockAfterReset : Prop :=
  ∀ s : State, s.syncSr = 0 → s.chActive = false →
    (∀ (cs : List BitCell) (last : BitCell),
      cs.map BitCell.bit =
        [true, false, false, false, true, false, false, true, false, false, false, true, false, false, true] →
      cs.getLast? = some last →
      ∃ u, execAll (cellInstrs cs) s = .next u ∧ u.syncSr = 0x4489 ∧ u.cntLock = s.cntLock + 1 ∧
        u.out = s.out ++ [.lock last.stop] ∧ u.fsm = .addressMark) ∧
    ∀ cs : List BitCell, cs.length ≤ 14 →
      ∃ sr, execAll (cellInstrs cs) s = .next { s with syncSr := sr }

/-- O32. The 16 cells of a correctly encoded byte reach the parser as that byte, with no clock error (30_encoding.md,
42_sync_and_clock.md, 20_memory.md). -/
def Obligations.EncodedByteReachesTheParser : Prop :=
  ∀ (s : State) (v : Byte) (start : Scaled), s.chActive = true → s.chPhase = false → s.chNbits = 0 →
    (∀ k < 16, ((s.syncSr ++ mfmFrame s.chDprev v : BitVec 32) >>> (15 - k)).setWidth 16 ≠ Config.syncPattern) →
    exec (.byteFrame (mfmFrame s.chDprev v) start) s =
      exec (decodeByte { fsm := s.fsm, idValid := s.idValid } v)
        { s with
          syncSr := mfmFrame s.chDprev v
          chClk := !(v.getLsbD 1 || v.getLsbD 0)
          chClkStart := start + BitVec.ofNat 96 (14 * s.cfgSr.toNat)
          chByteStart := start
          chDprev := v.getLsbD 0
          chDshift := v }

/-- O33. No 16 consecutive cells of correctly encoded MFM data are the sync pattern, at either alignment
(70_reset_and_hazards.md, 30_encoding.md). -/
def Obligations.EncodedDataNeverHoldsThePattern : Prop :=
  ∀ (dPrev : Bool) (ds before window after : List Bool), mfmCells dPrev ds = before ++ window ++ after →
    window.length = 16 → window.foldl shiftIn (0 : Word16) ≠ Config.syncPattern

/-- O34. A sync pattern read at a byte boundary reports exactly its missing clock and then locks, delivering no byte
(42_sync_and_clock.md, 30_encoding.md). -/
def Obligations.PatternInARunningChunker : Prop :=
  ∀ (s : State) (start : Scaled), s.chActive = true → s.chPhase = false → s.chNbits = 0 →
    (∀ k < 15, ((s.syncSr ++ Config.syncPattern : BitVec 32) >>> (15 - k)).setWidth 16 ≠ Config.syncPattern) →
    exec (.byteFrame 0x4489 start) s =
      .next
        { s with
          syncSr := 0x4489
          cntClkErr := s.cntClkErr + 1
          cntLock := s.cntLock + 1
          out :=
            s.out ++
              [.clkErr (start + BitVec.ofNat 96 (10 * s.cfgSr.toNat)) (start + BitVec.ofNat 96 (12 * s.cfgSr.toNat))
                  false true,
                .lock (start + BitVec.ofNat 96 (16 * s.cfgSr.toNat))]
          chClk := false
          chClkStart := start + BitVec.ofNat 96 (14 * s.cfgSr.toNat)
          chByteStart := start
          chDprev := true
          chDshift := 0
          fsm := .addressMark }

/-! ### The sector parser (43_sector_fsm.md) -/

/-- O35. At the address mark: FE opens an ID field, FB a data field or DATA_NO_ID, any other byte is BAD_AM (R183, R184,
R185, R186). -/
def Obligations.AddressMarkBytes : Prop :=
  ∀ s : State, s.fsm = .addressMark →
    exec .amId s = .next { s with fsm := .idTrack } ∧
    (s.idValid = true →
      exec .amData s = .next { s with dataN := s.decodedSize, dataIdx := 0, fsm := .data }) ∧
    (s.idValid = false →
      exec .amDataNoId s =
        .next { s with cntProto := s.cntProto + 1, out := s.out ++ [.dataNoId], fsm := .terminated }) ∧
    ∀ v : Byte, v ≠ 0xFE → v ≠ 0xFB →
      exec (.amOther v) s =
        .next { s with cntProto := s.cntProto + 1, out := s.out ++ [.badAm v], fsm := .terminated }

/-- O36. Track, side, sector and the high CRC byte are stored, any value, and the parser moves on (R187, R188, R189, R192). -/
def Obligations.IdFieldBytes : Prop :=
  ∀ (s : State) (v : Byte),
    (s.fsm = .idTrack → exec (.idTrack v) s = .next { s with pTrack := v, fsm := .idSide }) ∧
    (s.fsm = .idSide → exec (.idSide v) s = .next { s with pSide := v, fsm := .idSector }) ∧
    (s.fsm = .idSector → exec (.idSector v) s = .next { s with pSector := v, fsm := .idSize }) ∧
    (s.fsm = .idCrcHi → exec (.idCrcHi v) s = .next { s with crcHi := v, fsm := .idCrcLo })

/-- O37. A size code up to 6 establishes the whole ID at once with size 128 << c; a larger one is BAD_SIZE (R190, R191, R96). -/
def Obligations.SizeByteEstablishesOrRejects : Prop :=
  (∀ (s : State) (v : Byte), s.fsm = .idSize →
    (v.toNat ≤ 6 →
      exec (.idSizeValid v) s =
        .next
          { s with
            idTrack := s.pTrack
            idSide := s.pSide
            idSector := s.pSector
            idSizeCode := v
            decodedSize := BitVec.ofNat 14 (128 * 2 ^ v.toNat)
            idValid := true
            fsm := .idCrcHi }) ∧
    (6 < v.toNat →
      exec (.idSizeInvalid v) s =
        .next { s with cntProto := s.cntProto + 1, out := s.out ++ [.badSize v], fsm := .terminated })) ∧
  (List.range 7).map (fun c => (decodedSizeOf (BitVec.ofNat 8 c)).toNat) = [128, 256, 512, 1024, 2048, 4096, 8192]

/-- O38. The low CRC byte of an ID field ends it; a mismatch is counted and emitted, and the ID stays established (R193). -/
def Obligations.IdCrcIsCheckedAgainstTheId : Prop :=
  ∀ (s : State) (v : Byte), s.fsm = .idCrcLo →
    let found : Word16 := s.crcHi ++ v
    let computed : Word16 := crc16 [0xA1, 0xA1, 0xA1, 0xFE, s.idTrack, s.idSide, s.idSector, s.idSizeCode]
    (found = computed → exec (.idCrcLo v) s = .next { s with fsm := .terminated }) ∧
    (found ≠ computed →
      exec (.idCrcLo v) s =
        .next
          { s with
            cntCrcErr := s.cntCrcErr + 1
            out := s.out ++ [.idCrcErr found computed]
            fsm := .terminated })

/-- O39. A payload byte is stored at DATA_IDX, which advances; the last one moves the parser to the CRC (R194). -/
def Obligations.DataByteIsStored : Prop :=
  (∀ (s : State) (v : Byte), s.fsm = .data → s.dataIdx.toNat < 8192 → Memory.wf s.buf →
    ∃ u, exec (.dataByte v) s = .next u ∧
      u =
        { s with
          buf := u.buf
          dataIdx := s.dataIdx + 1
          fsm := if s.dataIdx + 1 = s.dataN then .dataCrcHi else .data } ∧
      Memory.read u.buf s.dataIdx.toNat = v ∧
      (∀ j, j ≠ s.dataIdx.toNat → Memory.read u.buf j = Memory.read s.buf j) ∧ Memory.wf u.buf) ∧
  ∀ s : State, BlockInv s → s.fsm = .data → s.dataIdx.toNat < s.dataN.toNat ∧ s.dataN.toNat ≤ 8192

/-- O40. An access outside BUF, which no run makes, stops with the model's one fault (log 5) (20_memory.md,
43_sector_fsm.md). -/
def Obligations.BufferAccessOutsideStops : Prop :=
  (∀ (s : State) (v : Byte), s.fsm = .data → 8192 ≤ s.dataIdx.toNat →
    exec (.dataByte v) s = .fault (.bufIndexOutOfRange s.dataIdx.toNat)) ∧
  ∀ (s : State) (v : Byte), s.fsm = .dataCrcLo → 8192 < s.dataN.toNat →
    exec (.dataCrcLo v) s = .fault (.bufIndexOutOfRange (s.dataN.toNat - 1))

/-- O41. The CRC bytes of a data field end it with a record, whether or not the CRCs match (R195, R196). -/
def Obligations.DataCrcBytesYieldTheRecord : Prop :=
  ∀ (s : State) (v : Byte),
    (s.fsm = .dataCrcHi → exec (.dataCrcHi v) s = .next { s with crcHi := v, fsm := .dataCrcLo }) ∧
    (s.fsm = .dataCrcLo → s.dataN.toNat ≤ 8192 →
      let found : Word16 := s.crcHi ++ v
      let payload : List Byte := (List.range s.dataN.toNat).map (Memory.read s.buf)
      let computed : Word16 := crc16 ([0xA1, 0xA1, 0xA1, 0xFB] ++ payload)
      exec (.dataCrcLo v) s =
        .next
          { s with
            cntCrcErr := if found = computed then s.cntCrcErr else s.cntCrcErr + 1
            cntRec := s.cntRec + 1
            out := s.out ++ [.record s.idTrack s.idSide s.idSector s.dataN payload found computed]
            fsm := .terminated })

/-- O42. A byte in NONE or in TERMINATED changes nothing and emits nothing (R182, R197). -/
def Obligations.BytesAtRestChangeNothing : Prop :=
  (∀ (s : State) (v : Byte),
    (s.fsm = .none → exec (.byteNone v) s = .next s) ∧
    (s.fsm = .terminated → exec (.byteTerminated v) s = .next s)) ∧
  ∀ s : State, BlockInv s → s.fsm = .none → s.chActive = false

/-- O43. A byte does what the parser's state makes of it, under whatever row it is presented (log 6) (43_sector_fsm.md). -/
def Obligations.ByteIsReadByTheParserState : Prop :=
  ∀ (c c' : Context) (v : Byte) (s : State), exec (decodeByte c v) s = exec (decodeByte c' v) s

/-- O44. Every byte in every state of the parser takes the transition and emits the event of the table (R199). -/
def Obligations.ParserTransitionTable : Prop :=
  (∀ (s : State) (v : Byte), BlockInv s →
    ∃ u, exec (decodeByte { fsm := s.fsm, idValid := s.idValid } v) s = .next u ∧
      u.fsm = (spRow s v).1 ∧ u.out = s.out ++ (spRow s v).2 ∧ (spRow s v).2.length ≤ 1) ∧
  ∀ (s : State) (b : Bool) (stop : Scaled),
    ∃ u, exec (.syncLock b stop) s = .next u ∧ u.fsm = .addressMark ∧ u.out = s.out ++ [.lock stop]

/-- O45. The seven bytes of an ID field establish its ID and check its CRC; an invalid size code ends it at the fifth
(30_encoding.md, 43_sector_fsm.md). -/
def Obligations.IdFieldEstablishesTheId : Prop :=
  ∀ (s : State) (track side sector c hi lo : Byte), s.fsm = .addressMark →
    let computed : Word16 := crc16 [0xA1, 0xA1, 0xA1, 0xFE, track, side, sector, c]
    (c.toNat ≤ 6 →
      execBytes [0xFE, track, side, sector, c, hi, lo] s =
        .next
          { s with
            pTrack := track
            pSide := side
            pSector := sector
            idTrack := track
            idSide := side
            idSector := sector
            idSizeCode := c
            decodedSize := BitVec.ofNat 14 (128 * 2 ^ c.toNat)
            idValid := true
            crcHi := hi
            cntCrcErr := if hi ++ lo = computed then s.cntCrcErr else s.cntCrcErr + 1
            out := if hi ++ lo = computed then s.out else s.out ++ [.idCrcErr (hi ++ lo) computed]
            fsm := .terminated }) ∧
    (6 < c.toNat →
      execBytes [0xFE, track, side, sector, c] s =
        .next
          { s with
            pTrack := track
            pSide := side
            pSector := sector
            cntProto := s.cntProto + 1
            out := s.out ++ [.badSize c]
            fsm := .terminated })

/-- O46. FB, a payload of the established size and two CRC bytes yield exactly one record, holding that payload
(30_encoding.md, 43_sector_fsm.md, 44_crc16.md, 20_memory.md). -/
def Obligations.DataFieldYieldsItsRecord : Prop :=
  ∀ (s : State) (payload : List Byte) (hi lo : Byte), BlockInv s → s.fsm = .addressMark → s.idValid = true →
    payload.length = s.decodedSize.toNat →
    let computed : Word16 := crc16 ([0xA1, 0xA1, 0xA1, 0xFB] ++ payload)
    ∃ u, execBytes (0xFB :: payload ++ [hi, lo]) s = .next u ∧
      u.out = s.out ++ [.record s.idTrack s.idSide s.idSector s.decodedSize payload (hi ++ lo) computed] ∧
      u.cntRec = s.cntRec + 1 ∧
      u.cntCrcErr = (if hi ++ lo = computed then s.cntCrcErr else s.cntCrcErr + 1) ∧
      u.fsm = .terminated ∧
      u.idTrack = s.idTrack ∧ u.idSide = s.idSide ∧ u.idSector = s.idSector ∧ u.idSizeCode = s.idSizeCode ∧
      u.decodedSize = s.decodedSize ∧ u.idValid = s.idValid

/-! ### The CRC checker (44_crc16.md) -/

/-- O47. CRC_STEP returns the eight-step loop of R230, most significant bit first, and writes no state of the block
(44_crc16.md). -/
def Obligations.CrcStepIsTheLoop : Prop :=
  ∀ (c : Word16) (x : Byte) (s : State),
    exec (.crcStep c x) s =
      .next
        { s with
          crcPort :=
            [7, 6, 5, 4, 3, 2, 1, 0].foldl
              (fun (r : Word16) i => if r.getLsbD 15 ≠ x.getLsbD i then r <<< 1 ^^^ 0x1021 else r <<< 1) c }

/-- O48. The double-width form of the CRC step gives the same result for every register and byte (R232). -/
def Obligations.CrcWideFormAgrees : Prop :=
  ∀ (c : Word16) (x : Byte),
    crcStepWide c x = crcStep c x ∧
    (Nat.repeat crcWideBit 8 (c.setWidth 17 ^^^ (x.setWidth 17 <<< 8))).getLsbD 16 = false

/-- O49. A byte sequence followed by two bytes has CRC 0 exactly when those bytes are its CRC, high byte first (R235). -/
def Obligations.CrcResidueIsZero : Prop :=
  (∀ m : List Byte, crc16 (m ++ [(crc16 m).extractLsb' 8 8, (crc16 m).extractLsb' 0 8]) = 0) ∧
  (∀ (m : List Byte) (hi lo : Byte), crc16 (m ++ [hi, lo]) = 0 ↔ hi ++ lo = crc16 m) ∧
  crc16 [0xA1, 0xA1, 0xA1, 0xFE, 5, 0, 3, 2, 0x10, 0x48] = 0

/-- O50. Changing any one byte of a byte sequence changes its CRC, so every single-bit error is detected (44_crc16.md). -/
def Obligations.CrcDetectsOneChangedByte : Prop :=
  ∀ (before after : List Byte) (x y : Byte), x ≠ y → crc16 (before ++ x :: after) ≠ crc16 (before ++ y :: after)

/-- O51. CRC16 is the left fold of CRC_STEP from 0xFFFF, and has the spec's preamble constants and check value (R231, R234). -/
def Obligations.CrcConstants : Prop :=
  crc16 [] = 0xFFFF ∧
  (∀ (m : List Byte) (x : Byte), crc16 (m ++ [x]) = crcStep (crc16 m) x) ∧
  crc16 [0xA1] = 0x443B ∧
  crc16 [0xA1, 0xA1] = 0x968B ∧
  crc16 [0xA1, 0xA1, 0xA1] = 0xCDB4 ∧
  crc16 [0xA1, 0xA1, 0xA1, 0xFE] = 0xB230 ∧
  crc16 [0xA1, 0xA1, 0xA1, 0xFB] = 0xE295 ∧
  crc16 [0x31, 0x32, 0x33, 0x34, 0x35, 0x36, 0x37, 0x38, 0x39] = 0x29B1

/-! ### The whole machine -/

/-- O52. Both invariants of the block hold after reset (70_reset_and_hazards.md, 10_state.md). -/
def Obligations.InvariantsHoldAtReset : Prop :=
  BlockInv State.reset ∧ HostInv State.reset

/-- O53. Every step keeps the block's invariant, whatever is presented at whichever interface (10_state.md,
42_sync_and_clock.md, 43_sector_fsm.md). -/
def Obligations.EveryStepKeepsTheInvariant : Prop :=
  ∀ s t : State, BlockInv s → step s = .next t → BlockInv t

/-- O54. No input stops the block: every operation, in every state the invariant allows, answers a next state
(60_exceptions.md, 70_reset_and_hazards.md). -/
def Obligations.NoInputStopsTheBlock : Prop :=
  (∀ (i : Instr) (s : State), BlockInv s → ∃ t, exec i s = .next t) ∧ ∀ s : State, BlockInv s → ∃ t, step s = .next t

/-- O55. Under host transactions alone the chunker lives from the first lock to END, and the parser rests after END
(42_sync_and_clock.md, 45_host_control.md, 41_flux_demodulator.md). -/
def Obligations.HostTransactionsKeepTheHostInvariant : Prop :=
  ∀ s t : State, HostInv s → step s = .next t → HostInv t

/-- O56. Events are only ever appended, and each counter counts exactly its events modulo 2^32 (10_state.md, 20_memory.md,
60_exceptions.md). -/
def Obligations.EventsAppendAndAreCounted : Prop :=
  ∀ (i : Instr) (s t : State), exec i s = .next t →
    ∃ evs, t.out = s.out ++ evs ∧ (i = .reset → evs = []) ∧
      (i ≠ .reset → ∀ c, cnt c t = cnt c s + BitVec.ofNat 32 (evs.map (eventCount c)).sum)

/-- O57. Each flag is set only by its own rules, and only RESET clears one (10_state.md, 45_host_control.md,
41_flux_demodulator.md, 43_sector_fsm.md). -/
def Obligations.FlagsFollowTheirRules : Prop :=
  (∀ (i : Instr) (s t : State), exec i s = .next t → i ≠ .reset →
    (s.idValid = true → t.idValid = true) ∧ (s.ended = true → t.ended = true) ∧ (s.cmdErr = true → t.cmdErr = true) ∧
    (s.orderErr = true → t.orderErr = true) ∧ (s.cfgErr = true → t.cfgErr = true) ∧
    (s.ended = false → t.ended = true → i = .endRun) ∧
    (s.cmdErr = false → t.cmdErr = true →
      i = .reserved0 ∨ i = .reserved7 ∨ (∃ tag, i = .reserved8ToF tag) ∨ (∃ index, i = .rdreg index ∧ 0x0F ≤ index.toNat) ∨
        s.ended = true ∧ ((∃ u, i = .edge u) ∨ (∃ v, i = .cfgSr v) ∨ (∃ v, i = .cfgBf v) ∨ i = .endRun)) ∧
    (s.orderErr = false → t.orderErr = true →
      ∃ u, i = .edge u ∧ accepts s ∧ s.havePrev = true ∧ u.toNat ≤ s.prev.toNat) ∧
    (s.cfgErr = false → t.cfgErr = true → (∃ u, i = .edge u) ∧ s.ended = false ∧ (s.cfgSr = 0 ∨ s.cfgBf = 0)) ∧
    (t.idValid = true ↔ s.idValid = true ∨ establishesId i s) ∧
    ((∃ v, i = decodeByte { fsm := s.fsm, idValid := s.idValid } v) → s.idValid = false → t.idValid = true →
      ∃ v, i = .idSizeValid v ∧ s.fsm = .idSize)) ∧
  ∀ s : State, configured s = true ↔ s.cfgSr ≠ 0 ∧ s.cfgBf ≠ 0

/-- O58. Configuration, FD state, SYNC_SR, the established ID, and TIE_RULE, queue and CRC port (logs 4, 1, 10), change only
by the operations named (10_state.md, 43_sector_fsm.md, 45_host_control.md). -/
def Obligations.RegistersAreWrittenByTheirRulesAlone : Prop :=
  ∀ (i : Instr) (s t : State), exec i s = .next t →
    (t.cfgSr = s.cfgSr ∨ i = .reset ∨ i = .cfgSr t.cfgSr) ∧
    (t.cfgBf = s.cfgBf ∨ i = .reset ∨ i = .cfgBf t.cfgBf) ∧
    (t.havePrev = s.havePrev ∧ t.prev = s.prev ∨ i = .reset ∨ ∃ u, i = .edge u) ∧
    t.tieRule = s.tieRule ∧ t.input = s.input ∧
    (t.crcPort = s.crcPort ∨ i = .reset ∨ ∃ c x, i = .crcStep c x) ∧
    (t.syncSr = s.syncSr ∨ i = .reset ∨ (∃ u, i = .edge u) ∨ (∃ b u v, i = .cell b u v) ∨ ∃ w u, i = .byteFrame w u) ∧
    (SameId s t ∨ i = .reset ∨ establishesId i s) ∧
    ((∀ u, i ≠ .edge u) → (∀ w u, i ≠ .byteFrame w u) → establishesId i s →
      t.fsm = .idCrcHi ∧ t.idTrack = s.pTrack ∧ t.idSide = s.pSide ∧ t.idSector = s.pSector ∧
        t.idSizeCode.toNat ≤ 6 ∧ t.decodedSize.toNat = 128 * 2 ^ t.idSizeCode.toNat ∧ t.idValid = true)

/-- O59. What BUF holds where the field in progress has not written is never seen: no event depends on it
(70_reset_and_hazards.md, 10_state.md). -/
def Obligations.UnwrittenBufferIsInvisible : Prop :=
  ∀ (i : Instr) (s s' t : State), BlockInv s → BlockInv s' → SameButUnwritten s s' → exec i s = .next t →
    ∃ t', exec i s' = .next t' ∧ t'.out = t.out ∧ SameButUnwritten t t'

/-- O60. The assembler's CELLS, at k samples a cell, makes the demodulator produce exactly the cells written in it
(30_encoding.md, 41_flux_demodulator.md). -/
def Obligations.CellsPseudoInstructionMakesItsCells : Prop :=
  ∀ (s : State) (t0 k : Nat) (bits : List Bool) (ws : List HostWord), accepts s → s.havePrev = false →
    s.cfgSr.toNat = k * s.cfgBf.toNat → asmWords (.cells t0 k bits) = .ok ws →
    execAll (ws.map decodeHost) s =
      execAll
        ((List.range bits.length).map fun i =>
          Instr.cell (bits.getD i false) (BitVec.ofNat 96 ((t0 + k * i) * s.cfgBf.toNat))
            (BitVec.ofNat 96 ((t0 + k * (i + 1)) * s.cfgBf.toNat)))
        { s with havePrev := true, prev := BitVec.ofNat 64 (t0 + k * bits.length) }

end Statements
end

