-- ==== Sys2Proof/Laws/Crc.lean ====
section
/-!
SUPPORT. One bit into the CRC register: it is linear over XOR, its bit 0 shows the feedback, and up to 16 bits clear the
register exactly when they are its top bits and the rest is zero.
-/

namespace Sys2Proof.Machine

theorem Word16.shiftLeft_xor (a b : Word16) : (a ^^^ b) <<< 1 = (a <<< 1) ^^^ (b <<< 1) := by
  apply BitVec.eq_of_getLsbD_eq
  intro i hi
  simp [hi]
  cases i <;> simp

theorem crcBit_eq (c : Word16) (b : Bool) :
    crcBit c b = (c <<< 1) ^^^ (if c.getLsbD 15 ^^ b then Config.crcPoly else 0) := by
  unfold crcBit
  split <;> simp

/-- The bit shifted in at the bottom is the feedback: the polynomial has bit 0 set. -/
theorem crcBit_bit0 (c : Word16) (b : Bool) : (crcBit c b).getLsbD 0 = (c.getLsbD 15 ^^ b) := by
  unfold crcBit
  split <;> simp_all [Config.crcPoly]

/-- One bit is linear over XOR, in the register and the bit together. -/
theorem crcBit_xor (a b : Word16) (x y : Bool) : crcBit (a ^^^ b) (x ^^ y) = crcBit a x ^^^ crcBit b y := by
  have select (p q : Bool) (m : Word16) :
      (if p ^^ q then m else 0) = (if p then m else 0) ^^^ (if q then m else 0) := by
    cases p <;> cases q <;> simp
  rw [crcBit_eq, crcBit_eq, crcBit_eq, Word16.shiftLeft_xor, BitVec.getLsbD_xor,
    show ((a.getLsbD 15 ^^ b.getLsbD 15) ^^ (x ^^ y)) = ((a.getLsbD 15 ^^ x) ^^ (b.getLsbD 15 ^^ y)) by
      cases a.getLsbD 15 <;> cases b.getLsbD 15 <;> cases x <;> cases y <;> rfl,
    select]
  generalize (if a.getLsbD 15 ^^ x then Config.crcPoly else 0) = u
  generalize (if b.getLsbD 15 ^^ y then Config.crcPoly else 0) = v
  rw [BitVec.xor_assoc, BitVec.xor_assoc, ← BitVec.xor_assoc (b <<< 1), BitVec.xor_comm (b <<< 1) u, BitVec.xor_assoc]

/-- A run of bits is linear over XOR. -/
theorem foldl_crcBit_xor (xs ys : List Bool) (a b : Word16) (h : xs.length = ys.length) :
    (List.zipWith xor xs ys).foldl crcBit (a ^^^ b) = xs.foldl crcBit a ^^^ ys.foldl crcBit b := by
  induction xs generalizing ys a b with
  | nil => cases ys <;> simp_all
  | cons x xs ih =>
    cases ys with
    | nil => simp at h
    | cons y ys =>
      simp only [List.zipWith_cons_cons, List.foldl_cons, crcBit_xor]
      exact ih ys _ _ (by simpa using h)

/-- Up to 16 bits clear the register exactly when they are its top bits and its other bits are zero. -/
theorem foldl_crcBit_eq_zero (bs : List Bool) (c : Word16) (h : bs.length ≤ 16) :
    bs.foldl crcBit c = 0 ↔ ∀ i < 16, c.getLsbD (15 - i) = bs.getD i false := by
  induction bs generalizing c with
  | nil =>
    simp only [List.foldl_nil, List.getD_nil]
    constructor
    · rintro rfl i _
      simp
    · intro h
      apply BitVec.eq_of_getLsbD_eq
      intro i hi
      have := h (15 - i) (by omega)
      rw [show 15 - (15 - i) = i by omega] at this
      simpa using this
  | cons b bs ih =>
    simp only [List.length_cons] at h
    rw [List.foldl_cons, ih _ (by omega)]
    constructor
    · intro hz
      have h0 := hz 15 (by omega)
      have : bs.getD 15 false = false := by rw [List.getD_eq_default]; omega
      simp only [Nat.sub_self, this, crcBit_bit0] at h0
      have hb : c.getLsbD 15 = b := by simpa using h0
      intro i hi
      rcases i with _ | i
      · simpa using hb
      · have := hz i (by omega)
        simp only [crcBit, h0, Bool.false_eq_true, if_false] at this
        rw [List.getD_cons_succ, ← this, BitVec.getLsbD_shiftLeft]
        simp [show 15 - i < 16 by omega, show ¬(15 - i < 1) by omega]
        congr 1
        omega
    · intro hz i hi
      have h0 := hz 0 (by omega)
      simp only [List.getD_cons_zero, Nat.sub_zero] at h0
      have : (c.getLsbD 15 ^^ b) = false := by rw [h0]; simp
      simp only [crcBit, this, Bool.false_eq_true, if_false, BitVec.getLsbD_shiftLeft]
      by_cases h15 : i = 15
      · subst h15
        rw [List.getD_eq_default _ _ (by omega)]
        simp
      · have := hz (i + 1) (by omega)
        rw [List.getD_cons_succ] at this
        rw [← this]
        simp [show 15 - i < 16 by omega, show ¬(15 - i < 1) by omega]
        congr 1
        omega

end Sys2Proof.Machine
end

