-- ==== Sys2Proof/Laws/Decode.lean ====
section
/-!
SUPPORT. The fields of a host word, and what the decoder does with a byte in each state of the sector parser.
-/

namespace Sys2Proof

/-- Bit `i` of a word is bit `i` of its PAYLOAD below 64 and bit `i - 64` of its TAG from there on. -/
theorem hostWord_bit (tag : BitVec 4) (payload : BitVec 64) (i : Nat) :
    (hostWord tag payload).getLsbD i = if i < 64 then payload.getLsbD i else tag.getLsbD (i - 64) :=
  BitVec.getLsbD_append (x := tag) (y := payload) (i := i)

@[simp] theorem hostTag_hostWord (tag : BitVec 4) (payload : BitVec 64) : hostTag (hostWord tag payload) = tag := by
  ext i hi
  simp [hostTag, hostWord_bit, BitVec.getLsbD_eq_getElem hi]

@[simp] theorem hostPayload_hostWord (tag : BitVec 4) (payload : BitVec 64) :
    hostPayload (hostWord tag payload) = payload := by
  ext i hi
  simp [hostPayload, hostWord_bit, hi]

/-- A word is its TAG above its PAYLOAD: no bit of it is anything else. -/
theorem hostWord_fields (w : HostWord) : hostWord (hostTag w) (hostPayload w) = w := by
  apply BitVec.eq_of_getLsbD_eq
  intro i hi
  rw [hostWord_bit]
  split
  · simp [hostPayload, *]
  · simp [hostTag, show i - 64 < 4 by omega, show 64 + (i - 64) = i by omega]

end Sys2Proof
end

