-- ==== Sys2Proof/Laws/Memory.lean ====
section
/-!
SUPPORT. The laws of the payload buffer: a byte written is read back, every other byte is left alone, and the canonical form
is kept.
-/

namespace Sys2Proof.Machine

@[simp] theorem Memory.read_nil (i : Nat) : Memory.read [] i = Config.bufUnwritten := rfl

theorem Memory.read_cons (a : Nat) (w : Byte) (m : List Host.Cell) (i : Nat) :
    Memory.read ((a, w) :: m) i = if a = i then w else Memory.read m i := rfl

/-- A byte below every listed index is unwritten. -/
theorem Memory.read_of_lt (m : List Host.Cell) (i : Nat) (h : ∀ x ∈ m, i < x.1) :
    Memory.read m i = Config.bufUnwritten := by
  induction m with
  | nil => rfl
  | cons x m ih =>
    obtain ⟨a, w⟩ := x
    have ha : i < a := h (a, w) (by simp)
    rw [Memory.read_cons, if_neg (by omega), ih fun y hy => h y (by simp [hy])]

theorem Memory.read_put_same (i : Nat) (v : Byte) (m : List Host.Cell) (h : ∀ x ∈ m, i < x.1) :
    Memory.read (Memory.put i v m) i = v := by
  unfold Memory.put
  split
  · rw [Memory.read_of_lt m i h]; simp_all
  · simp [Memory.read_cons]

theorem Memory.read_put_ne (i j : Nat) (v : Byte) (m : List Host.Cell) (h : j ≠ i) :
    Memory.read (Memory.put i v m) j = Memory.read m j := by
  unfold Memory.put
  split
  · rfl
  · rw [Memory.read_cons, if_neg (by omega)]

theorem Memory.read_write_same (m : List Host.Cell) (i : Nat) (v : Byte) (h : m.Pairwise fun x y => x.1 < y.1) :
    Memory.read (Memory.write m i v) i = v := by
  induction m with
  | nil => exact Memory.read_put_same i v [] (by simp)
  | cons x m ih =>
    obtain ⟨a, w⟩ := x
    rw [List.pairwise_cons] at h
    simp only [Memory.write]
    split
    · rw [Memory.read_cons, if_neg (by omega), ih h.2]
    · split
      · exact Memory.read_put_same i v m fun y hy => by have := h.1 y hy; simp only at this; omega
      · refine Memory.read_put_same i v _ fun y hy => ?_
        rcases List.mem_cons.1 hy with rfl | hy
        · simp only; omega
        · have := h.1 y hy; simp only at this; omega

theorem Memory.read_write_ne (m : List Host.Cell) (i j : Nat) (v : Byte) (h : j ≠ i) :
    Memory.read (Memory.write m i v) j = Memory.read m j := by
  induction m with
  | nil => exact Memory.read_put_ne i j v [] h
  | cons x m ih =>
    obtain ⟨a, w⟩ := x
    simp only [Memory.write]
    split
    · rw [Memory.read_cons, Memory.read_cons, ih]
    · split
      · rw [Memory.read_put_ne i j v m h, Memory.read_cons, if_neg (by omega)]
      · rw [Memory.read_put_ne i j v _ h]

theorem Memory.mem_put {i : Nat} {v : Byte} {m : List Host.Cell} {x : Host.Cell} (h : x ∈ Memory.put i v m) :
    (x = (i, v) ∧ v ≠ Config.bufUnwritten) ∨ x ∈ m := by
  unfold Memory.put at h
  split at h
  · exact .inr h
  · rcases List.mem_cons.1 h with rfl | h
    · exact .inl ⟨rfl, by assumption⟩
    · exact .inr h

theorem Memory.mem_write {i : Nat} {v : Byte} {m : List Host.Cell} {x : Host.Cell} (h : x ∈ Memory.write m i v) :
    (x = (i, v) ∧ v ≠ Config.bufUnwritten) ∨ x ∈ m := by
  induction m with
  | nil => exact Memory.mem_put h
  | cons y m ih =>
    obtain ⟨a, w⟩ := y
    simp only [Memory.write] at h
    split at h
    · rcases List.mem_cons.1 h with rfl | h
      · exact .inr (by simp)
      · exact (ih h).imp id (by simp_all)
    · split at h
      · exact (Memory.mem_put h).imp id (by simp_all)
      · exact Memory.mem_put h

theorem Memory.pairwise_put (i : Nat) (v : Byte) (m : List Host.Cell) (h : m.Pairwise fun x y => x.1 < y.1)
    (hi : ∀ x ∈ m, i < x.1) : (Memory.put i v m).Pairwise fun x y => x.1 < y.1 := by
  unfold Memory.put
  split
  · exact h
  · exact List.pairwise_cons.2 ⟨hi, h⟩

theorem Memory.pairwise_write (m : List Host.Cell) (i : Nat) (v : Byte) (h : m.Pairwise fun x y => x.1 < y.1) :
    (Memory.write m i v).Pairwise fun x y => x.1 < y.1 := by
  induction m with
  | nil => exact Memory.pairwise_put i v [] List.Pairwise.nil (by simp)
  | cons x m ih =>
    obtain ⟨a, w⟩ := x
    have hc := List.pairwise_cons.1 h
    simp only [Memory.write]
    split
    · refine List.pairwise_cons.2 ⟨fun y hy => ?_, ih hc.2⟩
      rcases Memory.mem_write hy with ⟨rfl, -⟩ | hy
      · assumption
      · exact hc.1 y hy
    · split
      · exact Memory.pairwise_put i v m hc.2 fun y hy => by have := hc.1 y hy; simp only at this; omega
      · refine Memory.pairwise_put i v _ h fun y hy => ?_
        rcases List.mem_cons.1 hy with rfl | hy
        · simp only; omega
        · have := hc.1 y hy; simp only at this; omega

/-- A write inside BUF keeps the canonical form. -/
theorem Memory.wf_write (m : List Host.Cell) (i : Nat) (v : Byte) (h : Memory.wf m) (hi : i < Config.bufBytes) :
    Memory.wf (Memory.write m i v) := by
  refine ⟨Memory.pairwise_write m i v h.1, fun x hx => ?_⟩
  rcases Memory.mem_write hx with ⟨rfl, hv⟩ | hx
  · exact ⟨hi, hv⟩
  · exact h.2 x hx

theorem Memory.wf_nil : Memory.wf [] := ⟨List.Pairwise.nil, by simp⟩

/-- The reset memory is canonical. -/
theorem Memory.wf_reset : Memory.wf State.reset.buf := Memory.wf_nil

@[simp] theorem Memory.slice_length (m : List Host.Cell) (n : Nat) : (Memory.slice m n).length = n := by
  simp [Memory.slice]

/-- Two memories that read alike below `n` have the same first `n` bytes. -/
theorem Memory.slice_congr (m m' : List Host.Cell) (n : Nat) (h : ∀ i < n, Memory.read m i = Memory.read m' i) :
    Memory.slice m n = Memory.slice m' n := by
  simp only [Memory.slice]
  exact List.map_congr_left fun i hi => h i (List.mem_range.1 hi)

end Sys2Proof.Machine
end

