-- ==== Sys2Proof/Laws/State.lean ====
section
/-!
SUPPORT. What each named update of the state does to each field: one lemma per field per update, so that no proof unfolds a
record update.
-/

namespace Sys2Proof.Machine

/-! ### `emit` -/

@[simp] theorem emit_tieRule (e : Event) (s : State) :
    (emit e s).tieRule = s.tieRule := rfl
@[simp] theorem emit_cfgSr (e : Event) (s : State) :
    (emit e s).cfgSr = s.cfgSr := rfl
@[simp] theorem emit_cfgBf (e : Event) (s : State) :
    (emit e s).cfgBf = s.cfgBf := rfl
@[simp] theorem emit_havePrev (e : Event) (s : State) :
    (emit e s).havePrev = s.havePrev := rfl
@[simp] theorem emit_prev (e : Event) (s : State) :
    (emit e s).prev = s.prev := rfl
@[simp] theorem emit_syncSr (e : Event) (s : State) :
    (emit e s).syncSr = s.syncSr := rfl
@[simp] theorem emit_chActive (e : Event) (s : State) :
    (emit e s).chActive = s.chActive := rfl
@[simp] theorem emit_chPhase (e : Event) (s : State) :
    (emit e s).chPhase = s.chPhase := rfl
@[simp] theorem emit_chClk (e : Event) (s : State) :
    (emit e s).chClk = s.chClk := rfl
@[simp] theorem emit_chClkStart (e : Event) (s : State) :
    (emit e s).chClkStart = s.chClkStart := rfl
@[simp] theorem emit_chDprev (e : Event) (s : State) :
    (emit e s).chDprev = s.chDprev := rfl
@[simp] theorem emit_chDshift (e : Event) (s : State) :
    (emit e s).chDshift = s.chDshift := rfl
@[simp] theorem emit_chNbits (e : Event) (s : State) :
    (emit e s).chNbits = s.chNbits := rfl
@[simp] theorem emit_chByteStart (e : Event) (s : State) :
    (emit e s).chByteStart = s.chByteStart := rfl
@[simp] theorem emit_fsm (e : Event) (s : State) :
    (emit e s).fsm = s.fsm := rfl
@[simp] theorem emit_pTrack (e : Event) (s : State) :
    (emit e s).pTrack = s.pTrack := rfl
@[simp] theorem emit_pSide (e : Event) (s : State) :
    (emit e s).pSide = s.pSide := rfl
@[simp] theorem emit_pSector (e : Event) (s : State) :
    (emit e s).pSector = s.pSector := rfl
@[simp] theorem emit_crcHi (e : Event) (s : State) :
    (emit e s).crcHi = s.crcHi := rfl
@[simp] theorem emit_dataN (e : Event) (s : State) :
    (emit e s).dataN = s.dataN := rfl
@[simp] theorem emit_dataIdx (e : Event) (s : State) :
    (emit e s).dataIdx = s.dataIdx := rfl
@[simp] theorem emit_buf (e : Event) (s : State) :
    (emit e s).buf = s.buf := rfl
@[simp] theorem emit_idTrack (e : Event) (s : State) :
    (emit e s).idTrack = s.idTrack := rfl
@[simp] theorem emit_idSide (e : Event) (s : State) :
    (emit e s).idSide = s.idSide := rfl
@[simp] theorem emit_idSector (e : Event) (s : State) :
    (emit e s).idSector = s.idSector := rfl
@[simp] theorem emit_idSizeCode (e : Event) (s : State) :
    (emit e s).idSizeCode = s.idSizeCode := rfl
@[simp] theorem emit_decodedSize (e : Event) (s : State) :
    (emit e s).decodedSize = s.decodedSize := rfl
@[simp] theorem emit_idValid (e : Event) (s : State) :
    (emit e s).idValid = s.idValid := rfl
@[simp] theorem emit_ended (e : Event) (s : State) :
    (emit e s).ended = s.ended := rfl
@[simp] theorem emit_cmdErr (e : Event) (s : State) :
    (emit e s).cmdErr = s.cmdErr := rfl
@[simp] theorem emit_orderErr (e : Event) (s : State) :
    (emit e s).orderErr = s.orderErr := rfl
@[simp] theorem emit_cfgErr (e : Event) (s : State) :
    (emit e s).cfgErr = s.cfgErr := rfl
@[simp] theorem emit_cntDrop (e : Event) (s : State) :
    (emit e s).cntDrop = s.cntDrop := rfl
@[simp] theorem emit_cntLock (e : Event) (s : State) :
    (emit e s).cntLock = s.cntLock := rfl
@[simp] theorem emit_cntClkErr (e : Event) (s : State) :
    (emit e s).cntClkErr = s.cntClkErr := rfl
@[simp] theorem emit_cntProto (e : Event) (s : State) :
    (emit e s).cntProto = s.cntProto := rfl
@[simp] theorem emit_cntCrcErr (e : Event) (s : State) :
    (emit e s).cntCrcErr = s.cntCrcErr := rfl
@[simp] theorem emit_cntRec (e : Event) (s : State) :
    (emit e s).cntRec = s.cntRec := rfl
@[simp] theorem emit_crcPort (e : Event) (s : State) :
    (emit e s).crcPort = s.crcPort := rfl
@[simp] theorem emit_input (e : Event) (s : State) :
    (emit e s).input = s.input := rfl
@[simp] theorem emit_out (e : Event) (s : State) :
    (emit e s).out = s.out ++ [e] := rfl

/-! ### `goto` -/

@[simp] theorem goto_tieRule (f : FsmState) (s : State) :
    (goto f s).tieRule = s.tieRule := rfl
@[simp] theorem goto_cfgSr (f : FsmState) (s : State) :
    (goto f s).cfgSr = s.cfgSr := rfl
@[simp] theorem goto_cfgBf (f : FsmState) (s : State) :
    (goto f s).cfgBf = s.cfgBf := rfl
@[simp] theorem goto_havePrev (f : FsmState) (s : State) :
    (goto f s).havePrev = s.havePrev := rfl
@[simp] theorem goto_prev (f : FsmState) (s : State) :
    (goto f s).prev = s.prev := rfl
@[simp] theorem goto_syncSr (f : FsmState) (s : State) :
    (goto f s).syncSr = s.syncSr := rfl
@[simp] theorem goto_chActive (f : FsmState) (s : State) :
    (goto f s).chActive = s.chActive := rfl
@[simp] theorem goto_chPhase (f : FsmState) (s : State) :
    (goto f s).chPhase = s.chPhase := rfl
@[simp] theorem goto_chClk (f : FsmState) (s : State) :
    (goto f s).chClk = s.chClk := rfl
@[simp] theorem goto_chClkStart (f : FsmState) (s : State) :
    (goto f s).chClkStart = s.chClkStart := rfl
@[simp] theorem goto_chDprev (f : FsmState) (s : State) :
    (goto f s).chDprev = s.chDprev := rfl
@[simp] theorem goto_chDshift (f : FsmState) (s : State) :
    (goto f s).chDshift = s.chDshift := rfl
@[simp] theorem goto_chNbits (f : FsmState) (s : State) :
    (goto f s).chNbits = s.chNbits := rfl
@[simp] theorem goto_chByteStart (f : FsmState) (s : State) :
    (goto f s).chByteStart = s.chByteStart := rfl
@[simp] theorem goto_fsm (f : FsmState) (s : State) :
    (goto f s).fsm = f := rfl
@[simp] theorem goto_pTrack (f : FsmState) (s : State) :
    (goto f s).pTrack = s.pTrack := rfl
@[simp] theorem goto_pSide (f : FsmState) (s : State) :
    (goto f s).pSide = s.pSide := rfl
@[simp] theorem goto_pSector (f : FsmState) (s : State) :
    (goto f s).pSector = s.pSector := rfl
@[simp] theorem goto_crcHi (f : FsmState) (s : State) :
    (goto f s).crcHi = s.crcHi := rfl
@[simp] theorem goto_dataN (f : FsmState) (s : State) :
    (goto f s).dataN = s.dataN := rfl
@[simp] theorem goto_dataIdx (f : FsmState) (s : State) :
    (goto f s).dataIdx = s.dataIdx := rfl
@[simp] theorem goto_buf (f : FsmState) (s : State) :
    (goto f s).buf = s.buf := rfl
@[simp] theorem goto_idTrack (f : FsmState) (s : State) :
    (goto f s).idTrack = s.idTrack := rfl
@[simp] theorem goto_idSide (f : FsmState) (s : State) :
    (goto f s).idSide = s.idSide := rfl
@[simp] theorem goto_idSector (f : FsmState) (s : State) :
    (goto f s).idSector = s.idSector := rfl
@[simp] theorem goto_idSizeCode (f : FsmState) (s : State) :
    (goto f s).idSizeCode = s.idSizeCode := rfl
@[simp] theorem goto_decodedSize (f : FsmState) (s : State) :
    (goto f s).decodedSize = s.decodedSize := rfl
@[simp] theorem goto_idValid (f : FsmState) (s : State) :
    (goto f s).idValid = s.idValid := rfl
@[simp] theorem goto_ended (f : FsmState) (s : State) :
    (goto f s).ended = s.ended := rfl
@[simp] theorem goto_cmdErr (f : FsmState) (s : State) :
    (goto f s).cmdErr = s.cmdErr := rfl
@[simp] theorem goto_orderErr (f : FsmState) (s : State) :
    (goto f s).orderErr = s.orderErr := rfl
@[simp] theorem goto_cfgErr (f : FsmState) (s : State) :
    (goto f s).cfgErr = s.cfgErr := rfl
@[simp] theorem goto_cntDrop (f : FsmState) (s : State) :
    (goto f s).cntDrop = s.cntDrop := rfl
@[simp] theorem goto_cntLock (f : FsmState) (s : State) :
    (goto f s).cntLock = s.cntLock := rfl
@[simp] theorem goto_cntClkErr (f : FsmState) (s : State) :
    (goto f s).cntClkErr = s.cntClkErr := rfl
@[simp] theorem goto_cntProto (f : FsmState) (s : State) :
    (goto f s).cntProto = s.cntProto := rfl
@[simp] theorem goto_cntCrcErr (f : FsmState) (s : State) :
    (goto f s).cntCrcErr = s.cntCrcErr := rfl
@[simp] theorem goto_cntRec (f : FsmState) (s : State) :
    (goto f s).cntRec = s.cntRec := rfl
@[simp] theorem goto_crcPort (f : FsmState) (s : State) :
    (goto f s).crcPort = s.crcPort := rfl
@[simp] theorem goto_input (f : FsmState) (s : State) :
    (goto f s).input = s.input := rfl
@[simp] theorem goto_out (f : FsmState) (s : State) :
    (goto f s).out = s.out := rfl

/-! ### `cntInc` -/

@[simp] theorem cntInc_tieRule (c : Counter) (s : State) :
    (cntInc c s).tieRule = s.tieRule := by cases c <;> rfl
@[simp] theorem cntInc_cfgSr (c : Counter) (s : State) :
    (cntInc c s).cfgSr = s.cfgSr := by cases c <;> rfl
@[simp] theorem cntInc_cfgBf (c : Counter) (s : State) :
    (cntInc c s).cfgBf = s.cfgBf := by cases c <;> rfl
@[simp] theorem cntInc_havePrev (c : Counter) (s : State) :
    (cntInc c s).havePrev = s.havePrev := by cases c <;> rfl
@[simp] theorem cntInc_prev (c : Counter) (s : State) :
    (cntInc c s).prev = s.prev := by cases c <;> rfl
@[simp] theorem cntInc_syncSr (c : Counter) (s : State) :
    (cntInc c s).syncSr = s.syncSr := by cases c <;> rfl
@[simp] theorem cntInc_chActive (c : Counter) (s : State) :
    (cntInc c s).chActive = s.chActive := by cases c <;> rfl
@[simp] theorem cntInc_chPhase (c : Counter) (s : State) :
    (cntInc c s).chPhase = s.chPhase := by cases c <;> rfl
@[simp] theorem cntInc_chClk (c : Counter) (s : State) :
    (cntInc c s).chClk = s.chClk := by cases c <;> rfl
@[simp] theorem cntInc_chClkStart (c : Counter) (s : State) :
    (cntInc c s).chClkStart = s.chClkStart := by cases c <;> rfl
@[simp] theorem cntInc_chDprev (c : Counter) (s : State) :
    (cntInc c s).chDprev = s.chDprev := by cases c <;> rfl
@[simp] theorem cntInc_chDshift (c : Counter) (s : State) :
    (cntInc c s).chDshift = s.chDshift := by cases c <;> rfl
@[simp] theorem cntInc_chNbits (c : Counter) (s : State) :
    (cntInc c s).chNbits = s.chNbits := by cases c <;> rfl
@[simp] theorem cntInc_chByteStart (c : Counter) (s : State) :
    (cntInc c s).chByteStart = s.chByteStart := by cases c <;> rfl
@[simp] theorem cntInc_fsm (c : Counter) (s : State) :
    (cntInc c s).fsm = s.fsm := by cases c <;> rfl
@[simp] theorem cntInc_pTrack (c : Counter) (s : State) :
    (cntInc c s).pTrack = s.pTrack := by cases c <;> rfl
@[simp] theorem cntInc_pSide (c : Counter) (s : State) :
    (cntInc c s).pSide = s.pSide := by cases c <;> rfl
@[simp] theorem cntInc_pSector (c : Counter) (s : State) :
    (cntInc c s).pSector = s.pSector := by cases c <;> rfl
@[simp] theorem cntInc_crcHi (c : Counter) (s : State) :
    (cntInc c s).crcHi = s.crcHi := by cases c <;> rfl
@[simp] theorem cntInc_dataN (c : Counter) (s : State) :
    (cntInc c s).dataN = s.dataN := by cases c <;> rfl
@[simp] theorem cntInc_dataIdx (c : Counter) (s : State) :
    (cntInc c s).dataIdx = s.dataIdx := by cases c <;> rfl
@[simp] theorem cntInc_buf (c : Counter) (s : State) :
    (cntInc c s).buf = s.buf := by cases c <;> rfl
@[simp] theorem cntInc_idTrack (c : Counter) (s : State) :
    (cntInc c s).idTrack = s.idTrack := by cases c <;> rfl
@[simp] theorem cntInc_idSide (c : Counter) (s : State) :
    (cntInc c s).idSide = s.idSide := by cases c <;> rfl
@[simp] theorem cntInc_idSector (c : Counter) (s : State) :
    (cntInc c s).idSector = s.idSector := by cases c <;> rfl
@[simp] theorem cntInc_idSizeCode (c : Counter) (s : State) :
    (cntInc c s).idSizeCode = s.idSizeCode := by cases c <;> rfl
@[simp] theorem cntInc_decodedSize (c : Counter) (s : State) :
    (cntInc c s).decodedSize = s.decodedSize := by cases c <;> rfl
@[simp] theorem cntInc_idValid (c : Counter) (s : State) :
    (cntInc c s).idValid = s.idValid := by cases c <;> rfl
@[simp] theorem cntInc_ended (c : Counter) (s : State) :
    (cntInc c s).ended = s.ended := by cases c <;> rfl
@[simp] theorem cntInc_cmdErr (c : Counter) (s : State) :
    (cntInc c s).cmdErr = s.cmdErr := by cases c <;> rfl
@[simp] theorem cntInc_orderErr (c : Counter) (s : State) :
    (cntInc c s).orderErr = s.orderErr := by cases c <;> rfl
@[simp] theorem cntInc_cfgErr (c : Counter) (s : State) :
    (cntInc c s).cfgErr = s.cfgErr := by cases c <;> rfl
@[simp] theorem cntInc_cntDrop (c : Counter) (s : State) :
    (cntInc c s).cntDrop = if c = .drop then s.cntDrop + 1 else s.cntDrop := by cases c <;> rfl
@[simp] theorem cntInc_cntLock (c : Counter) (s : State) :
    (cntInc c s).cntLock = if c = .lock then s.cntLock + 1 else s.cntLock := by cases c <;> rfl
@[simp] theorem cntInc_cntClkErr (c : Counter) (s : State) :
    (cntInc c s).cntClkErr = if c = .clkErr then s.cntClkErr + 1 else s.cntClkErr := by cases c <;> rfl
@[simp] theorem cntInc_cntProto (c : Counter) (s : State) :
    (cntInc c s).cntProto = if c = .proto then s.cntProto + 1 else s.cntProto := by cases c <;> rfl
@[simp] theorem cntInc_cntCrcErr (c : Counter) (s : State) :
    (cntInc c s).cntCrcErr = if c = .crcErr then s.cntCrcErr + 1 else s.cntCrcErr := by cases c <;> rfl
@[simp] theorem cntInc_cntRec (c : Counter) (s : State) :
    (cntInc c s).cntRec = if c = .record then s.cntRec + 1 else s.cntRec := by cases c <;> rfl
@[simp] theorem cntInc_crcPort (c : Counter) (s : State) :
    (cntInc c s).crcPort = s.crcPort := by cases c <;> rfl
@[simp] theorem cntInc_input (c : Counter) (s : State) :
    (cntInc c s).input = s.input := by cases c <;> rfl
@[simp] theorem cntInc_out (c : Counter) (s : State) :
    (cntInc c s).out = s.out := by cases c <;> rfl

@[simp] theorem cnt_cntInc (c d : Counter) (s : State) :
    cnt d (cntInc c s) = if c = d then cnt d s + 1 else cnt d s := by cases c <;> cases d <;> rfl

/-! ### `setCmdErr` -/

@[simp] theorem setCmdErr_tieRule (s : State) :
    (setCmdErr s).tieRule = s.tieRule := rfl
@[simp] theorem setCmdErr_cfgSr (s : State) :
    (setCmdErr s).cfgSr = s.cfgSr := rfl
@[simp] theorem setCmdErr_cfgBf (s : State) :
    (setCmdErr s).cfgBf = s.cfgBf := rfl
@[simp] theorem setCmdErr_havePrev (s : State) :
    (setCmdErr s).havePrev = s.havePrev := rfl
@[simp] theorem setCmdErr_prev (s : State) :
    (setCmdErr s).prev = s.prev := rfl
@[simp] theorem setCmdErr_syncSr (s : State) :
    (setCmdErr s).syncSr = s.syncSr := rfl
@[simp] theorem setCmdErr_chActive (s : State) :
    (setCmdErr s).chActive = s.chActive := rfl
@[simp] theorem setCmdErr_chPhase (s : State) :
    (setCmdErr s).chPhase = s.chPhase := rfl
@[simp] theorem setCmdErr_chClk (s : State) :
    (setCmdErr s).chClk = s.chClk := rfl
@[simp] theorem setCmdErr_chClkStart (s : State) :
    (setCmdErr s).chClkStart = s.chClkStart := rfl
@[simp] theorem setCmdErr_chDprev (s : State) :
    (setCmdErr s).chDprev = s.chDprev := rfl
@[simp] theorem setCmdErr_chDshift (s : State) :
    (setCmdErr s).chDshift = s.chDshift := rfl
@[simp] theorem setCmdErr_chNbits (s : State) :
    (setCmdErr s).chNbits = s.chNbits := rfl
@[simp] theorem setCmdErr_chByteStart (s : State) :
    (setCmdErr s).chByteStart = s.chByteStart := rfl
@[simp] theorem setCmdErr_fsm (s : State) :
    (setCmdErr s).fsm = s.fsm := rfl
@[simp] theorem setCmdErr_pTrack (s : State) :
    (setCmdErr s).pTrack = s.pTrack := rfl
@[simp] theorem setCmdErr_pSide (s : State) :
    (setCmdErr s).pSide = s.pSide := rfl
@[simp] theorem setCmdErr_pSector (s : State) :
    (setCmdErr s).pSector = s.pSector := rfl
@[simp] theorem setCmdErr_crcHi (s : State) :
    (setCmdErr s).crcHi = s.crcHi := rfl
@[simp] theorem setCmdErr_dataN (s : State) :
    (setCmdErr s).dataN = s.dataN := rfl
@[simp] theorem setCmdErr_dataIdx (s : State) :
    (setCmdErr s).dataIdx = s.dataIdx := rfl
@[simp] theorem setCmdErr_buf (s : State) :
    (setCmdErr s).buf = s.buf := rfl
@[simp] theorem setCmdErr_idTrack (s : State) :
    (setCmdErr s).idTrack = s.idTrack := rfl
@[simp] theorem setCmdErr_idSide (s : State) :
    (setCmdErr s).idSide = s.idSide := rfl
@[simp] theorem setCmdErr_idSector (s : State) :
    (setCmdErr s).idSector = s.idSector := rfl
@[simp] theorem setCmdErr_idSizeCode (s : State) :
    (setCmdErr s).idSizeCode = s.idSizeCode := rfl
@[simp] theorem setCmdErr_decodedSize (s : State) :
    (setCmdErr s).decodedSize = s.decodedSize := rfl
@[simp] theorem setCmdErr_idValid (s : State) :
    (setCmdErr s).idValid = s.idValid := rfl
@[simp] theorem setCmdErr_ended (s : State) :
    (setCmdErr s).ended = s.ended := rfl
@[simp] theorem setCmdErr_cmdErr (s : State) :
    (setCmdErr s).cmdErr = true := rfl
@[simp] theorem setCmdErr_orderErr (s : State) :
    (setCmdErr s).orderErr = s.orderErr := rfl
@[simp] theorem setCmdErr_cfgErr (s : State) :
    (setCmdErr s).cfgErr = s.cfgErr := rfl
@[simp] theorem setCmdErr_cntDrop (s : State) :
    (setCmdErr s).cntDrop = s.cntDrop := rfl
@[simp] theorem setCmdErr_cntLock (s : State) :
    (setCmdErr s).cntLock = s.cntLock := rfl
@[simp] theorem setCmdErr_cntClkErr (s : State) :
    (setCmdErr s).cntClkErr = s.cntClkErr := rfl
@[simp] theorem setCmdErr_cntProto (s : State) :
    (setCmdErr s).cntProto = s.cntProto := rfl
@[simp] theorem setCmdErr_cntCrcErr (s : State) :
    (setCmdErr s).cntCrcErr = s.cntCrcErr := rfl
@[simp] theorem setCmdErr_cntRec (s : State) :
    (setCmdErr s).cntRec = s.cntRec := rfl
@[simp] theorem setCmdErr_crcPort (s : State) :
    (setCmdErr s).crcPort = s.crcPort := rfl
@[simp] theorem setCmdErr_input (s : State) :
    (setCmdErr s).input = s.input := rfl
@[simp] theorem setCmdErr_out (s : State) :
    (setCmdErr s).out = s.out := rfl

/-! ### `setOrderErr` -/

@[simp] theorem setOrderErr_tieRule (s : State) :
    (setOrderErr s).tieRule = s.tieRule := rfl
@[simp] theorem setOrderErr_cfgSr (s : State) :
    (setOrderErr s).cfgSr = s.cfgSr := rfl
@[simp] theorem setOrderErr_cfgBf (s : State) :
    (setOrderErr s).cfgBf = s.cfgBf := rfl
@[simp] theorem setOrderErr_havePrev (s : State) :
    (setOrderErr s).havePrev = s.havePrev := rfl
@[simp] theorem setOrderErr_prev (s : State) :
    (setOrderErr s).prev = s.prev := rfl
@[simp] theorem setOrderErr_syncSr (s : State) :
    (setOrderErr s).syncSr = s.syncSr := rfl
@[simp] theorem setOrderErr_chActive (s : State) :
    (setOrderErr s).chActive = s.chActive := rfl
@[simp] theorem setOrderErr_chPhase (s : State) :
    (setOrderErr s).chPhase = s.chPhase := rfl
@[simp] theorem setOrderErr_chClk (s : State) :
    (setOrderErr s).chClk = s.chClk := rfl
@[simp] theorem setOrderErr_chClkStart (s : State) :
    (setOrderErr s).chClkStart = s.chClkStart := rfl
@[simp] theorem setOrderErr_chDprev (s : State) :
    (setOrderErr s).chDprev = s.chDprev := rfl
@[simp] theorem setOrderErr_chDshift (s : State) :
    (setOrderErr s).chDshift = s.chDshift := rfl
@[simp] theorem setOrderErr_chNbits (s : State) :
    (setOrderErr s).chNbits = s.chNbits := rfl
@[simp] theorem setOrderErr_chByteStart (s : State) :
    (setOrderErr s).chByteStart = s.chByteStart := rfl
@[simp] theorem setOrderErr_fsm (s : State) :
    (setOrderErr s).fsm = s.fsm := rfl
@[simp] theorem setOrderErr_pTrack (s : State) :
    (setOrderErr s).pTrack = s.pTrack := rfl
@[simp] theorem setOrderErr_pSide (s : State) :
    (setOrderErr s).pSide = s.pSide := rfl
@[simp] theorem setOrderErr_pSector (s : State) :
    (setOrderErr s).pSector = s.pSector := rfl
@[simp] theorem setOrderErr_crcHi (s : State) :
    (setOrderErr s).crcHi = s.crcHi := rfl
@[simp] theorem setOrderErr_dataN (s : State) :
    (setOrderErr s).dataN = s.dataN := rfl
@[simp] theorem setOrderErr_dataIdx (s : State) :
    (setOrderErr s).dataIdx = s.dataIdx := rfl
@[simp] theorem setOrderErr_buf (s : State) :
    (setOrderErr s).buf = s.buf := rfl
@[simp] theorem setOrderErr_idTrack (s : State) :
    (setOrderErr s).idTrack = s.idTrack := rfl
@[simp] theorem setOrderErr_idSide (s : State) :
    (setOrderErr s).idSide = s.idSide := rfl
@[simp] theorem setOrderErr_idSector (s : State) :
    (setOrderErr s).idSector = s.idSector := rfl
@[simp] theorem setOrderErr_idSizeCode (s : State) :
    (setOrderErr s).idSizeCode = s.idSizeCode := rfl
@[simp] theorem setOrderErr_decodedSize (s : State) :
    (setOrderErr s).decodedSize = s.decodedSize := rfl
@[simp] theorem setOrderErr_idValid (s : State) :
    (setOrderErr s).idValid = s.idValid := rfl
@[simp] theorem setOrderErr_ended (s : State) :
    (setOrderErr s).ended = s.ended := rfl
@[simp] theorem setOrderErr_cmdErr (s : State) :
    (setOrderErr s).cmdErr = s.cmdErr := rfl
@[simp] theorem setOrderErr_orderErr (s : State) :
    (setOrderErr s).orderErr = true := rfl
@[simp] theorem setOrderErr_cfgErr (s : State) :
    (setOrderErr s).cfgErr = s.cfgErr := rfl
@[simp] theorem setOrderErr_cntDrop (s : State) :
    (setOrderErr s).cntDrop = s.cntDrop := rfl
@[simp] theorem setOrderErr_cntLock (s : State) :
    (setOrderErr s).cntLock = s.cntLock := rfl
@[simp] theorem setOrderErr_cntClkErr (s : State) :
    (setOrderErr s).cntClkErr = s.cntClkErr := rfl
@[simp] theorem setOrderErr_cntProto (s : State) :
    (setOrderErr s).cntProto = s.cntProto := rfl
@[simp] theorem setOrderErr_cntCrcErr (s : State) :
    (setOrderErr s).cntCrcErr = s.cntCrcErr := rfl
@[simp] theorem setOrderErr_cntRec (s : State) :
    (setOrderErr s).cntRec = s.cntRec := rfl
@[simp] theorem setOrderErr_crcPort (s : State) :
    (setOrderErr s).crcPort = s.crcPort := rfl
@[simp] theorem setOrderErr_input (s : State) :
    (setOrderErr s).input = s.input := rfl
@[simp] theorem setOrderErr_out (s : State) :
    (setOrderErr s).out = s.out := rfl

/-! ### `setCfgErr` -/

@[simp] theorem setCfgErr_tieRule (s : State) :
    (setCfgErr s).tieRule = s.tieRule := rfl
@[simp] theorem setCfgErr_cfgSr (s : State) :
    (setCfgErr s).cfgSr = s.cfgSr := rfl
@[simp] theorem setCfgErr_cfgBf (s : State) :
    (setCfgErr s).cfgBf = s.cfgBf := rfl
@[simp] theorem setCfgErr_havePrev (s : State) :
    (setCfgErr s).havePrev = s.havePrev := rfl
@[simp] theorem setCfgErr_prev (s : State) :
    (setCfgErr s).prev = s.prev := rfl
@[simp] theorem setCfgErr_syncSr (s : State) :
    (setCfgErr s).syncSr = s.syncSr := rfl
@[simp] theorem setCfgErr_chActive (s : State) :
    (setCfgErr s).chActive = s.chActive := rfl
@[simp] theorem setCfgErr_chPhase (s : State) :
    (setCfgErr s).chPhase = s.chPhase := rfl
@[simp] theorem setCfgErr_chClk (s : State) :
    (setCfgErr s).chClk = s.chClk := rfl
@[simp] theorem setCfgErr_chClkStart (s : State) :
    (setCfgErr s).chClkStart = s.chClkStart := rfl
@[simp] theorem setCfgErr_chDprev (s : State) :
    (setCfgErr s).chDprev = s.chDprev := rfl
@[simp] theorem setCfgErr_chDshift (s : State) :
    (setCfgErr s).chDshift = s.chDshift := rfl
@[simp] theorem setCfgErr_chNbits (s : State) :
    (setCfgErr s).chNbits = s.chNbits := rfl
@[simp] theorem setCfgErr_chByteStart (s : State) :
    (setCfgErr s).chByteStart = s.chByteStart := rfl
@[simp] theorem setCfgErr_fsm (s : State) :
    (setCfgErr s).fsm = s.fsm := rfl
@[simp] theorem setCfgErr_pTrack (s : State) :
    (setCfgErr s).pTrack = s.pTrack := rfl
@[simp] theorem setCfgErr_pSide (s : State) :
    (setCfgErr s).pSide = s.pSide := rfl
@[simp] theorem setCfgErr_pSector (s : State) :
    (setCfgErr s).pSector = s.pSector := rfl
@[simp] theorem setCfgErr_crcHi (s : State) :
    (setCfgErr s).crcHi = s.crcHi := rfl
@[simp] theorem setCfgErr_dataN (s : State) :
    (setCfgErr s).dataN = s.dataN := rfl
@[simp] theorem setCfgErr_dataIdx (s : State) :
    (setCfgErr s).dataIdx = s.dataIdx := rfl
@[simp] theorem setCfgErr_buf (s : State) :
    (setCfgErr s).buf = s.buf := rfl
@[simp] theorem setCfgErr_idTrack (s : State) :
    (setCfgErr s).idTrack = s.idTrack := rfl
@[simp] theorem setCfgErr_idSide (s : State) :
    (setCfgErr s).idSide = s.idSide := rfl
@[simp] theorem setCfgErr_idSector (s : State) :
    (setCfgErr s).idSector = s.idSector := rfl
@[simp] theorem setCfgErr_idSizeCode (s : State) :
    (setCfgErr s).idSizeCode = s.idSizeCode := rfl
@[simp] theorem setCfgErr_decodedSize (s : State) :
    (setCfgErr s).decodedSize = s.decodedSize := rfl
@[simp] theorem setCfgErr_idValid (s : State) :
    (setCfgErr s).idValid = s.idValid := rfl
@[simp] theorem setCfgErr_ended (s : State) :
    (setCfgErr s).ended = s.ended := rfl
@[simp] theorem setCfgErr_cmdErr (s : State) :
    (setCfgErr s).cmdErr = s.cmdErr := rfl
@[simp] theorem setCfgErr_orderErr (s : State) :
    (setCfgErr s).orderErr = s.orderErr := rfl
@[simp] theorem setCfgErr_cfgErr (s : State) :
    (setCfgErr s).cfgErr = true := rfl
@[simp] theorem setCfgErr_cntDrop (s : State) :
    (setCfgErr s).cntDrop = s.cntDrop := rfl
@[simp] theorem setCfgErr_cntLock (s : State) :
    (setCfgErr s).cntLock = s.cntLock := rfl
@[simp] theorem setCfgErr_cntClkErr (s : State) :
    (setCfgErr s).cntClkErr = s.cntClkErr := rfl
@[simp] theorem setCfgErr_cntProto (s : State) :
    (setCfgErr s).cntProto = s.cntProto := rfl
@[simp] theorem setCfgErr_cntCrcErr (s : State) :
    (setCfgErr s).cntCrcErr = s.cntCrcErr := rfl
@[simp] theorem setCfgErr_cntRec (s : State) :
    (setCfgErr s).cntRec = s.cntRec := rfl
@[simp] theorem setCfgErr_crcPort (s : State) :
    (setCfgErr s).crcPort = s.crcPort := rfl
@[simp] theorem setCfgErr_input (s : State) :
    (setCfgErr s).input = s.input := rfl
@[simp] theorem setCfgErr_out (s : State) :
    (setCfgErr s).out = s.out := rfl

/-! ### `shiftSync` -/

@[simp] theorem shiftSync_tieRule (b : Bool) (s : State) :
    (shiftSync b s).tieRule = s.tieRule := rfl
@[simp] theorem shiftSync_cfgSr (b : Bool) (s : State) :
    (shiftSync b s).cfgSr = s.cfgSr := rfl
@[simp] theorem shiftSync_cfgBf (b : Bool) (s : State) :
    (shiftSync b s).cfgBf = s.cfgBf := rfl
@[simp] theorem shiftSync_havePrev (b : Bool) (s : State) :
    (shiftSync b s).havePrev = s.havePrev := rfl
@[simp] theorem shiftSync_prev (b : Bool) (s : State) :
    (shiftSync b s).prev = s.prev := rfl
@[simp] theorem shiftSync_syncSr (b : Bool) (s : State) :
    (shiftSync b s).syncSr = shiftIn s.syncSr b := rfl
@[simp] theorem shiftSync_chActive (b : Bool) (s : State) :
    (shiftSync b s).chActive = s.chActive := rfl
@[simp] theorem shiftSync_chPhase (b : Bool) (s : State) :
    (shiftSync b s).chPhase = s.chPhase := rfl
@[simp] theorem shiftSync_chClk (b : Bool) (s : State) :
    (shiftSync b s).chClk = s.chClk := rfl
@[simp] theorem shiftSync_chClkStart (b : Bool) (s : State) :
    (shiftSync b s).chClkStart = s.chClkStart := rfl
@[simp] theorem shiftSync_chDprev (b : Bool) (s : State) :
    (shiftSync b s).chDprev = s.chDprev := rfl
@[simp] theorem shiftSync_chDshift (b : Bool) (s : State) :
    (shiftSync b s).chDshift = s.chDshift := rfl
@[simp] theorem shiftSync_chNbits (b : Bool) (s : State) :
    (shiftSync b s).chNbits = s.chNbits := rfl
@[simp] theorem shiftSync_chByteStart (b : Bool) (s : State) :
    (shiftSync b s).chByteStart = s.chByteStart := rfl
@[simp] theorem shiftSync_fsm (b : Bool) (s : State) :
    (shiftSync b s).fsm = s.fsm := rfl
@[simp] theorem shiftSync_pTrack (b : Bool) (s : State) :
    (shiftSync b s).pTrack = s.pTrack := rfl
@[simp] theorem shiftSync_pSide (b : Bool) (s : State) :
    (shiftSync b s).pSide = s.pSide := rfl
@[simp] theorem shiftSync_pSector (b : Bool) (s : State) :
    (shiftSync b s).pSector = s.pSector := rfl
@[simp] theorem shiftSync_crcHi (b : Bool) (s : State) :
    (shiftSync b s).crcHi = s.crcHi := rfl
@[simp] theorem shiftSync_dataN (b : Bool) (s : State) :
    (shiftSync b s).dataN = s.dataN := rfl
@[simp] theorem shiftSync_dataIdx (b : Bool) (s : State) :
    (shiftSync b s).dataIdx = s.dataIdx := rfl
@[simp] theorem shiftSync_buf (b : Bool) (s : State) :
    (shiftSync b s).buf = s.buf := rfl
@[simp] theorem shiftSync_idTrack (b : Bool) (s : State) :
    (shiftSync b s).idTrack = s.idTrack := rfl
@[simp] theorem shiftSync_idSide (b : Bool) (s : State) :
    (shiftSync b s).idSide = s.idSide := rfl
@[simp] theorem shiftSync_idSector (b : Bool) (s : State) :
    (shiftSync b s).idSector = s.idSector := rfl
@[simp] theorem shiftSync_idSizeCode (b : Bool) (s : State) :
    (shiftSync b s).idSizeCode = s.idSizeCode := rfl
@[simp] theorem shiftSync_decodedSize (b : Bool) (s : State) :
    (shiftSync b s).decodedSize = s.decodedSize := rfl
@[simp] theorem shiftSync_idValid (b : Bool) (s : State) :
    (shiftSync b s).idValid = s.idValid := rfl
@[simp] theorem shiftSync_ended (b : Bool) (s : State) :
    (shiftSync b s).ended = s.ended := rfl
@[simp] theorem shiftSync_cmdErr (b : Bool) (s : State) :
    (shiftSync b s).cmdErr = s.cmdErr := rfl
@[simp] theorem shiftSync_orderErr (b : Bool) (s : State) :
    (shiftSync b s).orderErr = s.orderErr := rfl
@[simp] theorem shiftSync_cfgErr (b : Bool) (s : State) :
    (shiftSync b s).cfgErr = s.cfgErr := rfl
@[simp] theorem shiftSync_cntDrop (b : Bool) (s : State) :
    (shiftSync b s).cntDrop = s.cntDrop := rfl
@[simp] theorem shiftSync_cntLock (b : Bool) (s : State) :
    (shiftSync b s).cntLock = s.cntLock := rfl
@[simp] theorem shiftSync_cntClkErr (b : Bool) (s : State) :
    (shiftSync b s).cntClkErr = s.cntClkErr := rfl
@[simp] theorem shiftSync_cntProto (b : Bool) (s : State) :
    (shiftSync b s).cntProto = s.cntProto := rfl
@[simp] theorem shiftSync_cntCrcErr (b : Bool) (s : State) :
    (shiftSync b s).cntCrcErr = s.cntCrcErr := rfl
@[simp] theorem shiftSync_cntRec (b : Bool) (s : State) :
    (shiftSync b s).cntRec = s.cntRec := rfl
@[simp] theorem shiftSync_crcPort (b : Bool) (s : State) :
    (shiftSync b s).crcPort = s.crcPort := rfl
@[simp] theorem shiftSync_input (b : Bool) (s : State) :
    (shiftSync b s).input = s.input := rfl
@[simp] theorem shiftSync_out (b : Bool) (s : State) :
    (shiftSync b s).out = s.out := rfl

/-! ### `clockCell` -/

@[simp] theorem clockCell_tieRule (b : Bool) (start : Scaled) (s : State) :
    (clockCell b start s).tieRule = s.tieRule := rfl
@[simp] theorem clockCell_cfgSr (b : Bool) (start : Scaled) (s : State) :
    (clockCell b start s).cfgSr = s.cfgSr := rfl
@[simp] theorem clockCell_cfgBf (b : Bool) (start : Scaled) (s : State) :
    (clockCell b start s).cfgBf = s.cfgBf := rfl
@[simp] theorem clockCell_havePrev (b : Bool) (start : Scaled) (s : State) :
    (clockCell b start s).havePrev = s.havePrev := rfl
@[simp] theorem clockCell_prev (b : Bool) (start : Scaled) (s : State) :
    (clockCell b start s).prev = s.prev := rfl
@[simp] theorem clockCell_syncSr (b : Bool) (start : Scaled) (s : State) :
    (clockCell b start s).syncSr = s.syncSr := rfl
@[simp] theorem clockCell_chActive (b : Bool) (start : Scaled) (s : State) :
    (clockCell b start s).chActive = s.chActive := rfl
@[simp] theorem clockCell_chPhase (b : Bool) (start : Scaled) (s : State) :
    (clockCell b start s).chPhase = true := rfl
@[simp] theorem clockCell_chClk (b : Bool) (start : Scaled) (s : State) :
    (clockCell b start s).chClk = b := rfl
@[simp] theorem clockCell_chClkStart (b : Bool) (start : Scaled) (s : State) :
    (clockCell b start s).chClkStart = start := rfl
@[simp] theorem clockCell_chDprev (b : Bool) (start : Scaled) (s : State) :
    (clockCell b start s).chDprev = s.chDprev := rfl
@[simp] theorem clockCell_chDshift (b : Bool) (start : Scaled) (s : State) :
    (clockCell b start s).chDshift = s.chDshift := rfl
@[simp] theorem clockCell_chNbits (b : Bool) (start : Scaled) (s : State) :
    (clockCell b start s).chNbits = s.chNbits := rfl
@[simp] theorem clockCell_chByteStart (b : Bool) (start : Scaled) (s : State) :
    (clockCell b start s).chByteStart = if s.chNbits = 0 then start else s.chByteStart := rfl
@[simp] theorem clockCell_fsm (b : Bool) (start : Scaled) (s : State) :
    (clockCell b start s).fsm = s.fsm := rfl
@[simp] theorem clockCell_pTrack (b : Bool) (start : Scaled) (s : State) :
    (clockCell b start s).pTrack = s.pTrack := rfl
@[simp] theorem clockCell_pSide (b : Bool) (start : Scaled) (s : State) :
    (clockCell b start s).pSide = s.pSide := rfl
@[simp] theorem clockCell_pSector (b : Bool) (start : Scaled) (s : State) :
    (clockCell b start s).pSector = s.pSector := rfl
@[simp] theorem clockCell_crcHi (b : Bool) (start : Scaled) (s : State) :
    (clockCell b start s).crcHi = s.crcHi := rfl
@[simp] theorem clockCell_dataN (b : Bool) (start : Scaled) (s : State) :
    (clockCell b start s).dataN = s.dataN := rfl
@[simp] theorem clockCell_dataIdx (b : Bool) (start : Scaled) (s : State) :
    (clockCell b start s).dataIdx = s.dataIdx := rfl
@[simp] theorem clockCell_buf (b : Bool) (start : Scaled) (s : State) :
    (clockCell b start s).buf = s.buf := rfl
@[simp] theorem clockCell_idTrack (b : Bool) (start : Scaled) (s : State) :
    (clockCell b start s).idTrack = s.idTrack := rfl
@[simp] theorem clockCell_idSide (b : Bool) (start : Scaled) (s : State) :
    (clockCell b start s).idSide = s.idSide := rfl
@[simp] theorem clockCell_idSector (b : Bool) (start : Scaled) (s : State) :
    (clockCell b start s).idSector = s.idSector := rfl
@[simp] theorem clockCell_idSizeCode (b : Bool) (start : Scaled) (s : State) :
    (clockCell b start s).idSizeCode = s.idSizeCode := rfl
@[simp] theorem clockCell_decodedSize (b : Bool) (start : Scaled) (s : State) :
    (clockCell b start s).decodedSize = s.decodedSize := rfl
@[simp] theorem clockCell_idValid (b : Bool) (start : Scaled) (s : State) :
    (clockCell b start s).idValid = s.idValid := rfl
@[simp] theorem clockCell_ended (b : Bool) (start : Scaled) (s : State) :
    (clockCell b start s).ended = s.ended := rfl
@[simp] theorem clockCell_cmdErr (b : Bool) (start : Scaled) (s : State) :
    (clockCell b start s).cmdErr = s.cmdErr := rfl
@[simp] theorem clockCell_orderErr (b : Bool) (start : Scaled) (s : State) :
    (clockCell b start s).orderErr = s.orderErr := rfl
@[simp] theorem clockCell_cfgErr (b : Bool) (start : Scaled) (s : State) :
    (clockCell b start s).cfgErr = s.cfgErr := rfl
@[simp] theorem clockCell_cntDrop (b : Bool) (start : Scaled) (s : State) :
    (clockCell b start s).cntDrop = s.cntDrop := rfl
@[simp] theorem clockCell_cntLock (b : Bool) (start : Scaled) (s : State) :
    (clockCell b start s).cntLock = s.cntLock := rfl
@[simp] theorem clockCell_cntClkErr (b : Bool) (start : Scaled) (s : State) :
    (clockCell b start s).cntClkErr = s.cntClkErr := rfl
@[simp] theorem clockCell_cntProto (b : Bool) (start : Scaled) (s : State) :
    (clockCell b start s).cntProto = s.cntProto := rfl
@[simp] theorem clockCell_cntCrcErr (b : Bool) (start : Scaled) (s : State) :
    (clockCell b start s).cntCrcErr = s.cntCrcErr := rfl
@[simp] theorem clockCell_cntRec (b : Bool) (start : Scaled) (s : State) :
    (clockCell b start s).cntRec = s.cntRec := rfl
@[simp] theorem clockCell_crcPort (b : Bool) (start : Scaled) (s : State) :
    (clockCell b start s).crcPort = s.crcPort := rfl
@[simp] theorem clockCell_input (b : Bool) (start : Scaled) (s : State) :
    (clockCell b start s).input = s.input := rfl
@[simp] theorem clockCell_out (b : Bool) (start : Scaled) (s : State) :
    (clockCell b start s).out = s.out := rfl

/-! ### `freshChunker` -/

@[simp] theorem freshChunker_tieRule (seed : Bool) (s : State) :
    (freshChunker seed s).tieRule = s.tieRule := rfl
@[simp] theorem freshChunker_cfgSr (seed : Bool) (s : State) :
    (freshChunker seed s).cfgSr = s.cfgSr := rfl
@[simp] theorem freshChunker_cfgBf (seed : Bool) (s : State) :
    (freshChunker seed s).cfgBf = s.cfgBf := rfl
@[simp] theorem freshChunker_havePrev (seed : Bool) (s : State) :
    (freshChunker seed s).havePrev = s.havePrev := rfl
@[simp] theorem freshChunker_prev (seed : Bool) (s : State) :
    (freshChunker seed s).prev = s.prev := rfl
@[simp] theorem freshChunker_syncSr (seed : Bool) (s : State) :
    (freshChunker seed s).syncSr = s.syncSr := rfl
@[simp] theorem freshChunker_chActive (seed : Bool) (s : State) :
    (freshChunker seed s).chActive = true := rfl
@[simp] theorem freshChunker_chPhase (seed : Bool) (s : State) :
    (freshChunker seed s).chPhase = false := rfl
@[simp] theorem freshChunker_chClk (seed : Bool) (s : State) :
    (freshChunker seed s).chClk = s.chClk := rfl
@[simp] theorem freshChunker_chClkStart (seed : Bool) (s : State) :
    (freshChunker seed s).chClkStart = s.chClkStart := rfl
@[simp] theorem freshChunker_chDprev (seed : Bool) (s : State) :
    (freshChunker seed s).chDprev = seed := rfl
@[simp] theorem freshChunker_chDshift (seed : Bool) (s : State) :
    (freshChunker seed s).chDshift = 0 := rfl
@[simp] theorem freshChunker_chNbits (seed : Bool) (s : State) :
    (freshChunker seed s).chNbits = 0 := rfl
@[simp] theorem freshChunker_chByteStart (seed : Bool) (s : State) :
    (freshChunker seed s).chByteStart = s.chByteStart := rfl
@[simp] theorem freshChunker_fsm (seed : Bool) (s : State) :
    (freshChunker seed s).fsm = s.fsm := rfl
@[simp] theorem freshChunker_pTrack (seed : Bool) (s : State) :
    (freshChunker seed s).pTrack = s.pTrack := rfl
@[simp] theorem freshChunker_pSide (seed : Bool) (s : State) :
    (freshChunker seed s).pSide = s.pSide := rfl
@[simp] theorem freshChunker_pSector (seed : Bool) (s : State) :
    (freshChunker seed s).pSector = s.pSector := rfl
@[simp] theorem freshChunker_crcHi (seed : Bool) (s : State) :
    (freshChunker seed s).crcHi = s.crcHi := rfl
@[simp] theorem freshChunker_dataN (seed : Bool) (s : State) :
    (freshChunker seed s).dataN = s.dataN := rfl
@[simp] theorem freshChunker_dataIdx (seed : Bool) (s : State) :
    (freshChunker seed s).dataIdx = s.dataIdx := rfl
@[simp] theorem freshChunker_buf (seed : Bool) (s : State) :
    (freshChunker seed s).buf = s.buf := rfl
@[simp] theorem freshChunker_idTrack (seed : Bool) (s : State) :
    (freshChunker seed s).idTrack = s.idTrack := rfl
@[simp] theorem freshChunker_idSide (seed : Bool) (s : State) :
    (freshChunker seed s).idSide = s.idSide := rfl
@[simp] theorem freshChunker_idSector (seed : Bool) (s : State) :
    (freshChunker seed s).idSector = s.idSector := rfl
@[simp] theorem freshChunker_idSizeCode (seed : Bool) (s : State) :
    (freshChunker seed s).idSizeCode = s.idSizeCode := rfl
@[simp] theorem freshChunker_decodedSize (seed : Bool) (s : State) :
    (freshChunker seed s).decodedSize = s.decodedSize := rfl
@[simp] theorem freshChunker_idValid (seed : Bool) (s : State) :
    (freshChunker seed s).idValid = s.idValid := rfl
@[simp] theorem freshChunker_ended (seed : Bool) (s : State) :
    (freshChunker seed s).ended = s.ended := rfl
@[simp] theorem freshChunker_cmdErr (seed : Bool) (s : State) :
    (freshChunker seed s).cmdErr = s.cmdErr := rfl
@[simp] theorem freshChunker_orderErr (seed : Bool) (s : State) :
    (freshChunker seed s).orderErr = s.orderErr := rfl
@[simp] theorem freshChunker_cfgErr (seed : Bool) (s : State) :
    (freshChunker seed s).cfgErr = s.cfgErr := rfl
@[simp] theorem freshChunker_cntDrop (seed : Bool) (s : State) :
    (freshChunker seed s).cntDrop = s.cntDrop := rfl
@[simp] theorem freshChunker_cntLock (seed : Bool) (s : State) :
    (freshChunker seed s).cntLock = s.cntLock := rfl
@[simp] theorem freshChunker_cntClkErr (seed : Bool) (s : State) :
    (freshChunker seed s).cntClkErr = s.cntClkErr := rfl
@[simp] theorem freshChunker_cntProto (seed : Bool) (s : State) :
    (freshChunker seed s).cntProto = s.cntProto := rfl
@[simp] theorem freshChunker_cntCrcErr (seed : Bool) (s : State) :
    (freshChunker seed s).cntCrcErr = s.cntCrcErr := rfl
@[simp] theorem freshChunker_cntRec (seed : Bool) (s : State) :
    (freshChunker seed s).cntRec = s.cntRec := rfl
@[simp] theorem freshChunker_crcPort (seed : Bool) (s : State) :
    (freshChunker seed s).crcPort = s.crcPort := rfl
@[simp] theorem freshChunker_input (seed : Bool) (s : State) :
    (freshChunker seed s).input = s.input := rfl
@[simp] theorem freshChunker_out (seed : Bool) (s : State) :
    (freshChunker seed s).out = s.out := rfl

/-! ### `takeBit` -/

@[simp] theorem takeBit_tieRule (b : Bool) (n : BitVec 3) (s : State) :
    (takeBit b n s).tieRule = s.tieRule := rfl
@[simp] theorem takeBit_cfgSr (b : Bool) (n : BitVec 3) (s : State) :
    (takeBit b n s).cfgSr = s.cfgSr := rfl
@[simp] theorem takeBit_cfgBf (b : Bool) (n : BitVec 3) (s : State) :
    (takeBit b n s).cfgBf = s.cfgBf := rfl
@[simp] theorem takeBit_havePrev (b : Bool) (n : BitVec 3) (s : State) :
    (takeBit b n s).havePrev = s.havePrev := rfl
@[simp] theorem takeBit_prev (b : Bool) (n : BitVec 3) (s : State) :
    (takeBit b n s).prev = s.prev := rfl
@[simp] theorem takeBit_syncSr (b : Bool) (n : BitVec 3) (s : State) :
    (takeBit b n s).syncSr = s.syncSr := rfl
@[simp] theorem takeBit_chActive (b : Bool) (n : BitVec 3) (s : State) :
    (takeBit b n s).chActive = s.chActive := rfl
@[simp] theorem takeBit_chPhase (b : Bool) (n : BitVec 3) (s : State) :
    (takeBit b n s).chPhase = false := rfl
@[simp] theorem takeBit_chClk (b : Bool) (n : BitVec 3) (s : State) :
    (takeBit b n s).chClk = s.chClk := rfl
@[simp] theorem takeBit_chClkStart (b : Bool) (n : BitVec 3) (s : State) :
    (takeBit b n s).chClkStart = s.chClkStart := rfl
@[simp] theorem takeBit_chDprev (b : Bool) (n : BitVec 3) (s : State) :
    (takeBit b n s).chDprev = s.chDprev := rfl
@[simp] theorem takeBit_chDshift (b : Bool) (n : BitVec 3) (s : State) :
    (takeBit b n s).chDshift = shiftIn s.chDshift b := rfl
@[simp] theorem takeBit_chNbits (b : Bool) (n : BitVec 3) (s : State) :
    (takeBit b n s).chNbits = n := rfl
@[simp] theorem takeBit_chByteStart (b : Bool) (n : BitVec 3) (s : State) :
    (takeBit b n s).chByteStart = s.chByteStart := rfl
@[simp] theorem takeBit_fsm (b : Bool) (n : BitVec 3) (s : State) :
    (takeBit b n s).fsm = s.fsm := rfl
@[simp] theorem takeBit_pTrack (b : Bool) (n : BitVec 3) (s : State) :
    (takeBit b n s).pTrack = s.pTrack := rfl
@[simp] theorem takeBit_pSide (b : Bool) (n : BitVec 3) (s : State) :
    (takeBit b n s).pSide = s.pSide := rfl
@[simp] theorem takeBit_pSector (b : Bool) (n : BitVec 3) (s : State) :
    (takeBit b n s).pSector = s.pSector := rfl
@[simp] theorem takeBit_crcHi (b : Bool) (n : BitVec 3) (s : State) :
    (takeBit b n s).crcHi = s.crcHi := rfl
@[simp] theorem takeBit_dataN (b : Bool) (n : BitVec 3) (s : State) :
    (takeBit b n s).dataN = s.dataN := rfl
@[simp] theorem takeBit_dataIdx (b : Bool) (n : BitVec 3) (s : State) :
    (takeBit b n s).dataIdx = s.dataIdx := rfl
@[simp] theorem takeBit_buf (b : Bool) (n : BitVec 3) (s : State) :
    (takeBit b n s).buf = s.buf := rfl
@[simp] theorem takeBit_idTrack (b : Bool) (n : BitVec 3) (s : State) :
    (takeBit b n s).idTrack = s.idTrack := rfl
@[simp] theorem takeBit_idSide (b : Bool) (n : BitVec 3) (s : State) :
    (takeBit b n s).idSide = s.idSide := rfl
@[simp] theorem takeBit_idSector (b : Bool) (n : BitVec 3) (s : State) :
    (takeBit b n s).idSector = s.idSector := rfl
@[simp] theorem takeBit_idSizeCode (b : Bool) (n : BitVec 3) (s : State) :
    (takeBit b n s).idSizeCode = s.idSizeCode := rfl
@[simp] theorem takeBit_decodedSize (b : Bool) (n : BitVec 3) (s : State) :
    (takeBit b n s).decodedSize = s.decodedSize := rfl
@[simp] theorem takeBit_idValid (b : Bool) (n : BitVec 3) (s : State) :
    (takeBit b n s).idValid = s.idValid := rfl
@[simp] theorem takeBit_ended (b : Bool) (n : BitVec 3) (s : State) :
    (takeBit b n s).ended = s.ended := rfl
@[simp] theorem takeBit_cmdErr (b : Bool) (n : BitVec 3) (s : State) :
    (takeBit b n s).cmdErr = s.cmdErr := rfl
@[simp] theorem takeBit_orderErr (b : Bool) (n : BitVec 3) (s : State) :
    (takeBit b n s).orderErr = s.orderErr := rfl
@[simp] theorem takeBit_cfgErr (b : Bool) (n : BitVec 3) (s : State) :
    (takeBit b n s).cfgErr = s.cfgErr := rfl
@[simp] theorem takeBit_cntDrop (b : Bool) (n : BitVec 3) (s : State) :
    (takeBit b n s).cntDrop = s.cntDrop := rfl
@[simp] theorem takeBit_cntLock (b : Bool) (n : BitVec 3) (s : State) :
    (takeBit b n s).cntLock = s.cntLock := rfl
@[simp] theorem takeBit_cntClkErr (b : Bool) (n : BitVec 3) (s : State) :
    (takeBit b n s).cntClkErr = s.cntClkErr := rfl
@[simp] theorem takeBit_cntProto (b : Bool) (n : BitVec 3) (s : State) :
    (takeBit b n s).cntProto = s.cntProto := rfl
@[simp] theorem takeBit_cntCrcErr (b : Bool) (n : BitVec 3) (s : State) :
    (takeBit b n s).cntCrcErr = s.cntCrcErr := rfl
@[simp] theorem takeBit_cntRec (b : Bool) (n : BitVec 3) (s : State) :
    (takeBit b n s).cntRec = s.cntRec := rfl
@[simp] theorem takeBit_crcPort (b : Bool) (n : BitVec 3) (s : State) :
    (takeBit b n s).crcPort = s.crcPort := rfl
@[simp] theorem takeBit_input (b : Bool) (n : BitVec 3) (s : State) :
    (takeBit b n s).input = s.input := rfl
@[simp] theorem takeBit_out (b : Bool) (n : BitVec 3) (s : State) :
    (takeBit b n s).out = s.out := rfl

/-! ### `setDprev` -/

@[simp] theorem setDprev_tieRule (b : Bool) (s : State) :
    (setDprev b s).tieRule = s.tieRule := rfl
@[simp] theorem setDprev_cfgSr (b : Bool) (s : State) :
    (setDprev b s).cfgSr = s.cfgSr := rfl
@[simp] theorem setDprev_cfgBf (b : Bool) (s : State) :
    (setDprev b s).cfgBf = s.cfgBf := rfl
@[simp] theorem setDprev_havePrev (b : Bool) (s : State) :
    (setDprev b s).havePrev = s.havePrev := rfl
@[simp] theorem setDprev_prev (b : Bool) (s : State) :
    (setDprev b s).prev = s.prev := rfl
@[simp] theorem setDprev_syncSr (b : Bool) (s : State) :
    (setDprev b s).syncSr = s.syncSr := rfl
@[simp] theorem setDprev_chActive (b : Bool) (s : State) :
    (setDprev b s).chActive = s.chActive := rfl
@[simp] theorem setDprev_chPhase (b : Bool) (s : State) :
    (setDprev b s).chPhase = s.chPhase := rfl
@[simp] theorem setDprev_chClk (b : Bool) (s : State) :
    (setDprev b s).chClk = s.chClk := rfl
@[simp] theorem setDprev_chClkStart (b : Bool) (s : State) :
    (setDprev b s).chClkStart = s.chClkStart := rfl
@[simp] theorem setDprev_chDprev (b : Bool) (s : State) :
    (setDprev b s).chDprev = b := rfl
@[simp] theorem setDprev_chDshift (b : Bool) (s : State) :
    (setDprev b s).chDshift = s.chDshift := rfl
@[simp] theorem setDprev_chNbits (b : Bool) (s : State) :
    (setDprev b s).chNbits = s.chNbits := rfl
@[simp] theorem setDprev_chByteStart (b : Bool) (s : State) :
    (setDprev b s).chByteStart = s.chByteStart := rfl
@[simp] theorem setDprev_fsm (b : Bool) (s : State) :
    (setDprev b s).fsm = s.fsm := rfl
@[simp] theorem setDprev_pTrack (b : Bool) (s : State) :
    (setDprev b s).pTrack = s.pTrack := rfl
@[simp] theorem setDprev_pSide (b : Bool) (s : State) :
    (setDprev b s).pSide = s.pSide := rfl
@[simp] theorem setDprev_pSector (b : Bool) (s : State) :
    (setDprev b s).pSector = s.pSector := rfl
@[simp] theorem setDprev_crcHi (b : Bool) (s : State) :
    (setDprev b s).crcHi = s.crcHi := rfl
@[simp] theorem setDprev_dataN (b : Bool) (s : State) :
    (setDprev b s).dataN = s.dataN := rfl
@[simp] theorem setDprev_dataIdx (b : Bool) (s : State) :
    (setDprev b s).dataIdx = s.dataIdx := rfl
@[simp] theorem setDprev_buf (b : Bool) (s : State) :
    (setDprev b s).buf = s.buf := rfl
@[simp] theorem setDprev_idTrack (b : Bool) (s : State) :
    (setDprev b s).idTrack = s.idTrack := rfl
@[simp] theorem setDprev_idSide (b : Bool) (s : State) :
    (setDprev b s).idSide = s.idSide := rfl
@[simp] theorem setDprev_idSector (b : Bool) (s : State) :
    (setDprev b s).idSector = s.idSector := rfl
@[simp] theorem setDprev_idSizeCode (b : Bool) (s : State) :
    (setDprev b s).idSizeCode = s.idSizeCode := rfl
@[simp] theorem setDprev_decodedSize (b : Bool) (s : State) :
    (setDprev b s).decodedSize = s.decodedSize := rfl
@[simp] theorem setDprev_idValid (b : Bool) (s : State) :
    (setDprev b s).idValid = s.idValid := rfl
@[simp] theorem setDprev_ended (b : Bool) (s : State) :
    (setDprev b s).ended = s.ended := rfl
@[simp] theorem setDprev_cmdErr (b : Bool) (s : State) :
    (setDprev b s).cmdErr = s.cmdErr := rfl
@[simp] theorem setDprev_orderErr (b : Bool) (s : State) :
    (setDprev b s).orderErr = s.orderErr := rfl
@[simp] theorem setDprev_cfgErr (b : Bool) (s : State) :
    (setDprev b s).cfgErr = s.cfgErr := rfl
@[simp] theorem setDprev_cntDrop (b : Bool) (s : State) :
    (setDprev b s).cntDrop = s.cntDrop := rfl
@[simp] theorem setDprev_cntLock (b : Bool) (s : State) :
    (setDprev b s).cntLock = s.cntLock := rfl
@[simp] theorem setDprev_cntClkErr (b : Bool) (s : State) :
    (setDprev b s).cntClkErr = s.cntClkErr := rfl
@[simp] theorem setDprev_cntProto (b : Bool) (s : State) :
    (setDprev b s).cntProto = s.cntProto := rfl
@[simp] theorem setDprev_cntCrcErr (b : Bool) (s : State) :
    (setDprev b s).cntCrcErr = s.cntCrcErr := rfl
@[simp] theorem setDprev_cntRec (b : Bool) (s : State) :
    (setDprev b s).cntRec = s.cntRec := rfl
@[simp] theorem setDprev_crcPort (b : Bool) (s : State) :
    (setDprev b s).crcPort = s.crcPort := rfl
@[simp] theorem setDprev_input (b : Bool) (s : State) :
    (setDprev b s).input = s.input := rfl
@[simp] theorem setDprev_out (b : Bool) (s : State) :
    (setDprev b s).out = s.out := rfl

/-! ### `lockStep` -/

@[simp] theorem lockStep_tieRule (b : Bool) (stop : Scaled) (s : State) :
    (lockStep b stop s).tieRule = s.tieRule := by
  simp [lockStep, spLock]
@[simp] theorem lockStep_cfgSr (b : Bool) (stop : Scaled) (s : State) :
    (lockStep b stop s).cfgSr = s.cfgSr := by
  simp [lockStep, spLock]
@[simp] theorem lockStep_cfgBf (b : Bool) (stop : Scaled) (s : State) :
    (lockStep b stop s).cfgBf = s.cfgBf := by
  simp [lockStep, spLock]
@[simp] theorem lockStep_havePrev (b : Bool) (stop : Scaled) (s : State) :
    (lockStep b stop s).havePrev = s.havePrev := by
  simp [lockStep, spLock]
@[simp] theorem lockStep_prev (b : Bool) (stop : Scaled) (s : State) :
    (lockStep b stop s).prev = s.prev := by
  simp [lockStep, spLock]
@[simp] theorem lockStep_syncSr (b : Bool) (stop : Scaled) (s : State) :
    (lockStep b stop s).syncSr = s.syncSr := by
  simp [lockStep, spLock]
@[simp] theorem lockStep_chActive (b : Bool) (stop : Scaled) (s : State) :
    (lockStep b stop s).chActive = true := by
  simp [lockStep, spLock]
@[simp] theorem lockStep_chPhase (b : Bool) (stop : Scaled) (s : State) :
    (lockStep b stop s).chPhase = false := by
  simp [lockStep, spLock]
@[simp] theorem lockStep_chClk (b : Bool) (stop : Scaled) (s : State) :
    (lockStep b stop s).chClk = s.chClk := by
  simp [lockStep, spLock]
@[simp] theorem lockStep_chClkStart (b : Bool) (stop : Scaled) (s : State) :
    (lockStep b stop s).chClkStart = s.chClkStart := by
  simp [lockStep, spLock]
@[simp] theorem lockStep_chDprev (b : Bool) (stop : Scaled) (s : State) :
    (lockStep b stop s).chDprev = b := by
  simp [lockStep, spLock]
@[simp] theorem lockStep_chDshift (b : Bool) (stop : Scaled) (s : State) :
    (lockStep b stop s).chDshift = 0 := by
  simp [lockStep, spLock]
@[simp] theorem lockStep_chNbits (b : Bool) (stop : Scaled) (s : State) :
    (lockStep b stop s).chNbits = 0 := by
  simp [lockStep, spLock]
@[simp] theorem lockStep_chByteStart (b : Bool) (stop : Scaled) (s : State) :
    (lockStep b stop s).chByteStart = s.chByteStart := by
  simp [lockStep, spLock]
@[simp] theorem lockStep_fsm (b : Bool) (stop : Scaled) (s : State) :
    (lockStep b stop s).fsm = .addressMark := by
  simp [lockStep, spLock]
@[simp] theorem lockStep_pTrack (b : Bool) (stop : Scaled) (s : State) :
    (lockStep b stop s).pTrack = s.pTrack := by
  simp [lockStep, spLock]
@[simp] theorem lockStep_pSide (b : Bool) (stop : Scaled) (s : State) :
    (lockStep b stop s).pSide = s.pSide := by
  simp [lockStep, spLock]
@[simp] theorem lockStep_pSector (b : Bool) (stop : Scaled) (s : State) :
    (lockStep b stop s).pSector = s.pSector := by
  simp [lockStep, spLock]
@[simp] theorem lockStep_crcHi (b : Bool) (stop : Scaled) (s : State) :
    (lockStep b stop s).crcHi = s.crcHi := by
  simp [lockStep, spLock]
@[simp] theorem lockStep_dataN (b : Bool) (stop : Scaled) (s : State) :
    (lockStep b stop s).dataN = s.dataN := by
  simp [lockStep, spLock]
@[simp] theorem lockStep_dataIdx (b : Bool) (stop : Scaled) (s : State) :
    (lockStep b stop s).dataIdx = s.dataIdx := by
  simp [lockStep, spLock]
@[simp] theorem lockStep_buf (b : Bool) (stop : Scaled) (s : State) :
    (lockStep b stop s).buf = s.buf := by
  simp [lockStep, spLock]
@[simp] theorem lockStep_idTrack (b : Bool) (stop : Scaled) (s : State) :
    (lockStep b stop s).idTrack = s.idTrack := by
  simp [lockStep, spLock]
@[simp] theorem lockStep_idSide (b : Bool) (stop : Scaled) (s : State) :
    (lockStep b stop s).idSide = s.idSide := by
  simp [lockStep, spLock]
@[simp] theorem lockStep_idSector (b : Bool) (stop : Scaled) (s : State) :
    (lockStep b stop s).idSector = s.idSector := by
  simp [lockStep, spLock]
@[simp] theorem lockStep_idSizeCode (b : Bool) (stop : Scaled) (s : State) :
    (lockStep b stop s).idSizeCode = s.idSizeCode := by
  simp [lockStep, spLock]
@[simp] theorem lockStep_decodedSize (b : Bool) (stop : Scaled) (s : State) :
    (lockStep b stop s).decodedSize = s.decodedSize := by
  simp [lockStep, spLock]
@[simp] theorem lockStep_idValid (b : Bool) (stop : Scaled) (s : State) :
    (lockStep b stop s).idValid = s.idValid := by
  simp [lockStep, spLock]
@[simp] theorem lockStep_ended (b : Bool) (stop : Scaled) (s : State) :
    (lockStep b stop s).ended = s.ended := by
  simp [lockStep, spLock]
@[simp] theorem lockStep_cmdErr (b : Bool) (stop : Scaled) (s : State) :
    (lockStep b stop s).cmdErr = s.cmdErr := by
  simp [lockStep, spLock]
@[simp] theorem lockStep_orderErr (b : Bool) (stop : Scaled) (s : State) :
    (lockStep b stop s).orderErr = s.orderErr := by
  simp [lockStep, spLock]
@[simp] theorem lockStep_cfgErr (b : Bool) (stop : Scaled) (s : State) :
    (lockStep b stop s).cfgErr = s.cfgErr := by
  simp [lockStep, spLock]
@[simp] theorem lockStep_cntDrop (b : Bool) (stop : Scaled) (s : State) :
    (lockStep b stop s).cntDrop = s.cntDrop := by
  simp [lockStep, spLock]
@[simp] theorem lockStep_cntLock (b : Bool) (stop : Scaled) (s : State) :
    (lockStep b stop s).cntLock = s.cntLock + 1 := by
  simp [lockStep, spLock]
@[simp] theorem lockStep_cntClkErr (b : Bool) (stop : Scaled) (s : State) :
    (lockStep b stop s).cntClkErr = s.cntClkErr := by
  simp [lockStep, spLock]
@[simp] theorem lockStep_cntProto (b : Bool) (stop : Scaled) (s : State) :
    (lockStep b stop s).cntProto = s.cntProto := by
  simp [lockStep, spLock]
@[simp] theorem lockStep_cntCrcErr (b : Bool) (stop : Scaled) (s : State) :
    (lockStep b stop s).cntCrcErr = s.cntCrcErr := by
  simp [lockStep, spLock]
@[simp] theorem lockStep_cntRec (b : Bool) (stop : Scaled) (s : State) :
    (lockStep b stop s).cntRec = s.cntRec := by
  simp [lockStep, spLock]
@[simp] theorem lockStep_crcPort (b : Bool) (stop : Scaled) (s : State) :
    (lockStep b stop s).crcPort = s.crcPort := by
  simp [lockStep, spLock]
@[simp] theorem lockStep_input (b : Bool) (stop : Scaled) (s : State) :
    (lockStep b stop s).input = s.input := by
  simp [lockStep, spLock]
@[simp] theorem lockStep_out (b : Bool) (stop : Scaled) (s : State) :
    (lockStep b stop s).out = s.out ++ [.lock stop] := by
  simp [lockStep, spLock]

/-! ### `clockCheck` -/

@[simp] theorem clockCheck_tieRule (b : Bool) (stop : Scaled) (s : State) :
    (clockCheck b stop s).tieRule = s.tieRule := by
  unfold clockCheck; split <;> simp only [setDprev_tieRule, emit_tieRule, cntInc_tieRule]
@[simp] theorem clockCheck_cfgSr (b : Bool) (stop : Scaled) (s : State) :
    (clockCheck b stop s).cfgSr = s.cfgSr := by
  unfold clockCheck; split <;> simp only [setDprev_cfgSr, emit_cfgSr, cntInc_cfgSr]
@[simp] theorem clockCheck_cfgBf (b : Bool) (stop : Scaled) (s : State) :
    (clockCheck b stop s).cfgBf = s.cfgBf := by
  unfold clockCheck; split <;> simp only [setDprev_cfgBf, emit_cfgBf, cntInc_cfgBf]
@[simp] theorem clockCheck_havePrev (b : Bool) (stop : Scaled) (s : State) :
    (clockCheck b stop s).havePrev = s.havePrev := by
  unfold clockCheck; split <;> simp only [setDprev_havePrev, emit_havePrev, cntInc_havePrev]
@[simp] theorem clockCheck_prev (b : Bool) (stop : Scaled) (s : State) :
    (clockCheck b stop s).prev = s.prev := by
  unfold clockCheck; split <;> simp only [setDprev_prev, emit_prev, cntInc_prev]
@[simp] theorem clockCheck_syncSr (b : Bool) (stop : Scaled) (s : State) :
    (clockCheck b stop s).syncSr = s.syncSr := by
  unfold clockCheck; split <;> simp only [setDprev_syncSr, emit_syncSr, cntInc_syncSr]
@[simp] theorem clockCheck_chActive (b : Bool) (stop : Scaled) (s : State) :
    (clockCheck b stop s).chActive = s.chActive := by
  unfold clockCheck; split <;> simp only [setDprev_chActive, emit_chActive, cntInc_chActive]
@[simp] theorem clockCheck_chPhase (b : Bool) (stop : Scaled) (s : State) :
    (clockCheck b stop s).chPhase = s.chPhase := by
  unfold clockCheck; split <;> simp only [setDprev_chPhase, emit_chPhase, cntInc_chPhase]
@[simp] theorem clockCheck_chClk (b : Bool) (stop : Scaled) (s : State) :
    (clockCheck b stop s).chClk = s.chClk := by
  unfold clockCheck; split <;> simp only [setDprev_chClk, emit_chClk, cntInc_chClk]
@[simp] theorem clockCheck_chClkStart (b : Bool) (stop : Scaled) (s : State) :
    (clockCheck b stop s).chClkStart = s.chClkStart := by
  unfold clockCheck; split <;> simp only [setDprev_chClkStart, emit_chClkStart, cntInc_chClkStart]
@[simp] theorem clockCheck_chDprev (b : Bool) (stop : Scaled) (s : State) :
    (clockCheck b stop s).chDprev = b := by
  unfold clockCheck; split <;> simp only [setDprev_chDprev]
@[simp] theorem clockCheck_chDshift (b : Bool) (stop : Scaled) (s : State) :
    (clockCheck b stop s).chDshift = s.chDshift := by
  unfold clockCheck; split <;> simp only [setDprev_chDshift, emit_chDshift, cntInc_chDshift]
@[simp] theorem clockCheck_chNbits (b : Bool) (stop : Scaled) (s : State) :
    (clockCheck b stop s).chNbits = s.chNbits := by
  unfold clockCheck; split <;> simp only [setDprev_chNbits, emit_chNbits, cntInc_chNbits]
@[simp] theorem clockCheck_chByteStart (b : Bool) (stop : Scaled) (s : State) :
    (clockCheck b stop s).chByteStart = s.chByteStart := by
  unfold clockCheck; split <;> simp only [setDprev_chByteStart, emit_chByteStart, cntInc_chByteStart]
@[simp] theorem clockCheck_fsm (b : Bool) (stop : Scaled) (s : State) :
    (clockCheck b stop s).fsm = s.fsm := by
  unfold clockCheck; split <;> simp only [setDprev_fsm, emit_fsm, cntInc_fsm]
@[simp] theorem clockCheck_pTrack (b : Bool) (stop : Scaled) (s : State) :
    (clockCheck b stop s).pTrack = s.pTrack := by
  unfold clockCheck; split <;> simp only [setDprev_pTrack, emit_pTrack, cntInc_pTrack]
@[simp] theorem clockCheck_pSide (b : Bool) (stop : Scaled) (s : State) :
    (clockCheck b stop s).pSide = s.pSide := by
  unfold clockCheck; split <;> simp only [setDprev_pSide, emit_pSide, cntInc_pSide]
@[simp] theorem clockCheck_pSector (b : Bool) (stop : Scaled) (s : State) :
    (clockCheck b stop s).pSector = s.pSector := by
  unfold clockCheck; split <;> simp only [setDprev_pSector, emit_pSector, cntInc_pSector]
@[simp] theorem clockCheck_crcHi (b : Bool) (stop : Scaled) (s : State) :
    (clockCheck b stop s).crcHi = s.crcHi := by
  unfold clockCheck; split <;> simp only [setDprev_crcHi, emit_crcHi, cntInc_crcHi]
@[simp] theorem clockCheck_dataN (b : Bool) (stop : Scaled) (s : State) :
    (clockCheck b stop s).dataN = s.dataN := by
  unfold clockCheck; split <;> simp only [setDprev_dataN, emit_dataN, cntInc_dataN]
@[simp] theorem clockCheck_dataIdx (b : Bool) (stop : Scaled) (s : State) :
    (clockCheck b stop s).dataIdx = s.dataIdx := by
  unfold clockCheck; split <;> simp only [setDprev_dataIdx, emit_dataIdx, cntInc_dataIdx]
@[simp] theorem clockCheck_buf (b : Bool) (stop : Scaled) (s : State) :
    (clockCheck b stop s).buf = s.buf := by
  unfold clockCheck; split <;> simp only [setDprev_buf, emit_buf, cntInc_buf]
@[simp] theorem clockCheck_idTrack (b : Bool) (stop : Scaled) (s : State) :
    (clockCheck b stop s).idTrack = s.idTrack := by
  unfold clockCheck; split <;> simp only [setDprev_idTrack, emit_idTrack, cntInc_idTrack]
@[simp] theorem clockCheck_idSide (b : Bool) (stop : Scaled) (s : State) :
    (clockCheck b stop s).idSide = s.idSide := by
  unfold clockCheck; split <;> simp only [setDprev_idSide, emit_idSide, cntInc_idSide]
@[simp] theorem clockCheck_idSector (b : Bool) (stop : Scaled) (s : State) :
    (clockCheck b stop s).idSector = s.idSector := by
  unfold clockCheck; split <;> simp only [setDprev_idSector, emit_idSector, cntInc_idSector]
@[simp] theorem clockCheck_idSizeCode (b : Bool) (stop : Scaled) (s : State) :
    (clockCheck b stop s).idSizeCode = s.idSizeCode := by
  unfold clockCheck; split <;> simp only [setDprev_idSizeCode, emit_idSizeCode, cntInc_idSizeCode]
@[simp] theorem clockCheck_decodedSize (b : Bool) (stop : Scaled) (s : State) :
    (clockCheck b stop s).decodedSize = s.decodedSize := by
  unfold clockCheck; split <;> simp only [setDprev_decodedSize, emit_decodedSize, cntInc_decodedSize]
@[simp] theorem clockCheck_idValid (b : Bool) (stop : Scaled) (s : State) :
    (clockCheck b stop s).idValid = s.idValid := by
  unfold clockCheck; split <;> simp only [setDprev_idValid, emit_idValid, cntInc_idValid]
@[simp] theorem clockCheck_ended (b : Bool) (stop : Scaled) (s : State) :
    (clockCheck b stop s).ended = s.ended := by
  unfold clockCheck; split <;> simp only [setDprev_ended, emit_ended, cntInc_ended]
@[simp] theorem clockCheck_cmdErr (b : Bool) (stop : Scaled) (s : State) :
    (clockCheck b stop s).cmdErr = s.cmdErr := by
  unfold clockCheck; split <;> simp only [setDprev_cmdErr, emit_cmdErr, cntInc_cmdErr]
@[simp] theorem clockCheck_orderErr (b : Bool) (stop : Scaled) (s : State) :
    (clockCheck b stop s).orderErr = s.orderErr := by
  unfold clockCheck; split <;> simp only [setDprev_orderErr, emit_orderErr, cntInc_orderErr]
@[simp] theorem clockCheck_cfgErr (b : Bool) (stop : Scaled) (s : State) :
    (clockCheck b stop s).cfgErr = s.cfgErr := by
  unfold clockCheck; split <;> simp only [setDprev_cfgErr, emit_cfgErr, cntInc_cfgErr]
@[simp] theorem clockCheck_cntDrop (b : Bool) (stop : Scaled) (s : State) :
    (clockCheck b stop s).cntDrop = s.cntDrop := by
  unfold clockCheck; split <;> simp_all
@[simp] theorem clockCheck_cntLock (b : Bool) (stop : Scaled) (s : State) :
    (clockCheck b stop s).cntLock = s.cntLock := by
  unfold clockCheck; split <;> simp_all
@[simp] theorem clockCheck_cntClkErr (b : Bool) (stop : Scaled) (s : State) :
    (clockCheck b stop s).cntClkErr = if s.chClk ≠ expectedClock s.chDprev b then s.cntClkErr + 1 else s.cntClkErr := by
  unfold clockCheck; split <;> simp_all
@[simp] theorem clockCheck_cntProto (b : Bool) (stop : Scaled) (s : State) :
    (clockCheck b stop s).cntProto = s.cntProto := by
  unfold clockCheck; split <;> simp_all
@[simp] theorem clockCheck_cntCrcErr (b : Bool) (stop : Scaled) (s : State) :
    (clockCheck b stop s).cntCrcErr = s.cntCrcErr := by
  unfold clockCheck; split <;> simp_all
@[simp] theorem clockCheck_cntRec (b : Bool) (stop : Scaled) (s : State) :
    (clockCheck b stop s).cntRec = s.cntRec := by
  unfold clockCheck; split <;> simp_all
@[simp] theorem clockCheck_crcPort (b : Bool) (stop : Scaled) (s : State) :
    (clockCheck b stop s).crcPort = s.crcPort := by
  unfold clockCheck; split <;> simp only [setDprev_crcPort, emit_crcPort, cntInc_crcPort]
@[simp] theorem clockCheck_input (b : Bool) (stop : Scaled) (s : State) :
    (clockCheck b stop s).input = s.input := by
  unfold clockCheck; split <;> simp only [setDprev_input, emit_input, cntInc_input]
@[simp] theorem clockCheck_out (b : Bool) (stop : Scaled) (s : State) :
    (clockCheck b stop s).out = if s.chClk ≠ expectedClock s.chDprev b then s.out ++ [.clkErr s.chClkStart stop s.chClk (expectedClock s.chDprev b)] else s.out := by
  unfold clockCheck; split <;> simp only [setDprev_out, emit_out, cntInc_out]

/-! ### `abortParse` -/

@[simp] theorem abortParse_tieRule (cause : Event) (s : State) :
    (abortParse cause s).tieRule = s.tieRule := by
  simp [abortParse]
@[simp] theorem abortParse_cfgSr (cause : Event) (s : State) :
    (abortParse cause s).cfgSr = s.cfgSr := by
  simp [abortParse]
@[simp] theorem abortParse_cfgBf (cause : Event) (s : State) :
    (abortParse cause s).cfgBf = s.cfgBf := by
  simp [abortParse]
@[simp] theorem abortParse_havePrev (cause : Event) (s : State) :
    (abortParse cause s).havePrev = s.havePrev := by
  simp [abortParse]
@[simp] theorem abortParse_prev (cause : Event) (s : State) :
    (abortParse cause s).prev = s.prev := by
  simp [abortParse]
@[simp] theorem abortParse_syncSr (cause : Event) (s : State) :
    (abortParse cause s).syncSr = s.syncSr := by
  simp [abortParse]
@[simp] theorem abortParse_chActive (cause : Event) (s : State) :
    (abortParse cause s).chActive = s.chActive := by
  simp [abortParse]
@[simp] theorem abortParse_chPhase (cause : Event) (s : State) :
    (abortParse cause s).chPhase = s.chPhase := by
  simp [abortParse]
@[simp] theorem abortParse_chClk (cause : Event) (s : State) :
    (abortParse cause s).chClk = s.chClk := by
  simp [abortParse]
@[simp] theorem abortParse_chClkStart (cause : Event) (s : State) :
    (abortParse cause s).chClkStart = s.chClkStart := by
  simp [abortParse]
@[simp] theorem abortParse_chDprev (cause : Event) (s : State) :
    (abortParse cause s).chDprev = s.chDprev := by
  simp [abortParse]
@[simp] theorem abortParse_chDshift (cause : Event) (s : State) :
    (abortParse cause s).chDshift = s.chDshift := by
  simp [abortParse]
@[simp] theorem abortParse_chNbits (cause : Event) (s : State) :
    (abortParse cause s).chNbits = s.chNbits := by
  simp [abortParse]
@[simp] theorem abortParse_chByteStart (cause : Event) (s : State) :
    (abortParse cause s).chByteStart = s.chByteStart := by
  simp [abortParse]
@[simp] theorem abortParse_fsm (cause : Event) (s : State) :
    (abortParse cause s).fsm = .terminated := by
  simp [abortParse]
@[simp] theorem abortParse_pTrack (cause : Event) (s : State) :
    (abortParse cause s).pTrack = s.pTrack := by
  simp [abortParse]
@[simp] theorem abortParse_pSide (cause : Event) (s : State) :
    (abortParse cause s).pSide = s.pSide := by
  simp [abortParse]
@[simp] theorem abortParse_pSector (cause : Event) (s : State) :
    (abortParse cause s).pSector = s.pSector := by
  simp [abortParse]
@[simp] theorem abortParse_crcHi (cause : Event) (s : State) :
    (abortParse cause s).crcHi = s.crcHi := by
  simp [abortParse]
@[simp] theorem abortParse_dataN (cause : Event) (s : State) :
    (abortParse cause s).dataN = s.dataN := by
  simp [abortParse]
@[simp] theorem abortParse_dataIdx (cause : Event) (s : State) :
    (abortParse cause s).dataIdx = s.dataIdx := by
  simp [abortParse]
@[simp] theorem abortParse_buf (cause : Event) (s : State) :
    (abortParse cause s).buf = s.buf := by
  simp [abortParse]
@[simp] theorem abortParse_idTrack (cause : Event) (s : State) :
    (abortParse cause s).idTrack = s.idTrack := by
  simp [abortParse]
@[simp] theorem abortParse_idSide (cause : Event) (s : State) :
    (abortParse cause s).idSide = s.idSide := by
  simp [abortParse]
@[simp] theorem abortParse_idSector (cause : Event) (s : State) :
    (abortParse cause s).idSector = s.idSector := by
  simp [abortParse]
@[simp] theorem abortParse_idSizeCode (cause : Event) (s : State) :
    (abortParse cause s).idSizeCode = s.idSizeCode := by
  simp [abortParse]
@[simp] theorem abortParse_decodedSize (cause : Event) (s : State) :
    (abortParse cause s).decodedSize = s.decodedSize := by
  simp [abortParse]
@[simp] theorem abortParse_idValid (cause : Event) (s : State) :
    (abortParse cause s).idValid = s.idValid := by
  simp [abortParse]
@[simp] theorem abortParse_ended (cause : Event) (s : State) :
    (abortParse cause s).ended = s.ended := by
  simp [abortParse]
@[simp] theorem abortParse_cmdErr (cause : Event) (s : State) :
    (abortParse cause s).cmdErr = s.cmdErr := by
  simp [abortParse]
@[simp] theorem abortParse_orderErr (cause : Event) (s : State) :
    (abortParse cause s).orderErr = s.orderErr := by
  simp [abortParse]
@[simp] theorem abortParse_cfgErr (cause : Event) (s : State) :
    (abortParse cause s).cfgErr = s.cfgErr := by
  simp [abortParse]
@[simp] theorem abortParse_cntDrop (cause : Event) (s : State) :
    (abortParse cause s).cntDrop = s.cntDrop := by
  simp [abortParse]
@[simp] theorem abortParse_cntLock (cause : Event) (s : State) :
    (abortParse cause s).cntLock = s.cntLock := by
  simp [abortParse]
@[simp] theorem abortParse_cntClkErr (cause : Event) (s : State) :
    (abortParse cause s).cntClkErr = s.cntClkErr := by
  simp [abortParse]
@[simp] theorem abortParse_cntProto (cause : Event) (s : State) :
    (abortParse cause s).cntProto = s.cntProto + 1 := by
  simp [abortParse]
@[simp] theorem abortParse_cntCrcErr (cause : Event) (s : State) :
    (abortParse cause s).cntCrcErr = s.cntCrcErr := by
  simp [abortParse]
@[simp] theorem abortParse_cntRec (cause : Event) (s : State) :
    (abortParse cause s).cntRec = s.cntRec := by
  simp [abortParse]
@[simp] theorem abortParse_crcPort (cause : Event) (s : State) :
    (abortParse cause s).crcPort = s.crcPort := by
  simp [abortParse]
@[simp] theorem abortParse_input (cause : Event) (s : State) :
    (abortParse cause s).input = s.input := by
  simp [abortParse]
@[simp] theorem abortParse_out (cause : Event) (s : State) :
    (abortParse cause s).out = s.out ++ [cause] := by
  simp [abortParse]

end Sys2Proof.Machine
end

