-- ==== Sys2Proof/Laws/Ops.lean ====
section
/-!
SUPPORT. What the shared operations can do: sequencing, the buffer accesses, the abort of a parse, power-on, and the taking of
a presented item.
-/

namespace Sys2Proof.Machine

/-! ### Sequencing -/

@[simp] theorem andThen_next (s : State) (f : State → Result) : andThen (.next s) f = f s := rfl

@[simp] theorem andThen_fault (r : Fault) (f : State → Result) : andThen (.fault r) f = .fault r := rfl

@[simp] theorem andThen_refused (r : Refusal) (f : State → Result) : andThen (.refused r) f = .refused r := rfl

/-- A sequence answers a next state exactly when both its parts do. -/
theorem andThen_eq_next {o : Result} {f : State → Result} {t : State} :
    andThen o f = .next t ↔ ∃ s, o = .next s ∧ f s = .next t := by
  cases o <;> simp [andThen]

theorem andThen_assoc (o : Result) (f g : State → Result) :
    andThen (andThen o f) g = andThen o fun s => andThen (f s) g := by
  cases o <;> rfl

@[simp] theorem andThen_next_right (o : Result) : andThen o (fun s => .next s) = o := by
  cases o <;> rfl

/-! ### The buffer -/

theorem bufWrite_inside {i : Nat} (h : i < Config.bufBytes) (v : Byte) (s : State) :
    bufWrite i v s = .next { s with buf := Memory.write s.buf i v } := if_pos h

/-- A buffer write answers a next state exactly for an index inside BUF. -/
theorem bufWrite_eq_next {i : Nat} {v : Byte} {s t : State} :
    bufWrite i v s = .next t ↔ i < Config.bufBytes ∧ t = { s with buf := Memory.write s.buf i v } := by
  unfold bufWrite
  split
  · simp_all [eq_comm]
  · simp_all

theorem withBuf_inside {n : Nat} (h : n ≤ Config.bufBytes) (s : State) (f : List Byte → Result) :
    withBuf n s f = f (Memory.slice s.buf n) := if_pos h

/-- A buffer read goes on exactly for a range inside BUF. -/
theorem withBuf_eq_next {n : Nat} {s t : State} {f : List Byte → Result} :
    withBuf n s f = .next t ↔ n ≤ Config.bufBytes ∧ f (Memory.slice s.buf n) = .next t := by
  unfold withBuf
  split <;> simp_all

/-! ### Power-on -/

/-- Power-on leaves nothing of the state but the parameter, what is presented and what was emitted. -/
theorem powerOn_eq (s : State) :
    powerOn s = { State.reset with tieRule := s.tieRule, input := s.input, out := s.out } := rfl

/-! ### Taking a presented item -/

theorem performNext_nil {s : State} (h : s.input = []) : performNext s = .next s := by
  simp [performNext, h]

theorem performNext_cons {s : State} {it : Item} {rest : List Item} (h : s.input = it :: rest) :
    performNext s = exec (decode (context s) it) { s with input := rest } := by
  simp [performNext, h]

end Sys2Proof.Machine
end

