-- ==== Sys2Proof/Laws/SectorParser.lean ====
section
/-!
SUPPORT. What one byte does to the parser: the inversion of SP_BYTE, one case per rule; when it answers; what it never
touches; and that each byte row's meaning is SP_BYTE of its byte.
-/

namespace Sys2Proof.Machine

/-- Everything a byte that answers can do: one constructor per rule of 43_sector_fsm.md. -/
inductive SpStep (v : Byte) (s : State) : State → Prop where
  | none (h : s.fsm = .none) : SpStep v s (spNone s)
  | amId (h : s.fsm = .addressMark) (hv : v = Config.idMark) : SpStep v s (spAmId s)
  | amData (h : s.fsm = .addressMark) (hv : v = Config.dataMark) (hid : s.idValid = true) : SpStep v s (spAmData s)
  | amDataNoId (h : s.fsm = .addressMark) (hv : v = Config.dataMark) (hid : s.idValid = false) :
      SpStep v s (spAmDataNoId s)
  | amOther (h : s.fsm = .addressMark) (hi : v ≠ Config.idMark) (hd : v ≠ Config.dataMark) :
      SpStep v s (spAmOther v s)
  | idTrack (h : s.fsm = .idTrack) : SpStep v s (spIdTrack v s)
  | idSide (h : s.fsm = .idSide) : SpStep v s (spIdSide v s)
  | idSector (h : s.fsm = .idSector) : SpStep v s (spIdSector v s)
  | idSizeValid (h : s.fsm = .idSize) (hv : v.toNat ≤ Config.maxSizeCode.toNat) : SpStep v s (spIdSizeValid v s)
  | idSizeInvalid (h : s.fsm = .idSize) (hv : Config.maxSizeCode.toNat < v.toNat) :
      SpStep v s (spIdSizeInvalid v s)
  | idCrcHi (h : s.fsm = .idCrcHi) : SpStep v s (spIdCrcHi v s)
  | idCrcLo (h : s.fsm = .idCrcLo) : SpStep v s (spIdCrcLo v s)
  | dataByte (h : s.fsm = .data) (hi : s.dataIdx.toNat < Config.bufBytes) :
      SpStep v s (spCountByte { s with buf := Memory.write s.buf s.dataIdx.toNat v })
  | dataCrcHi (h : s.fsm = .dataCrcHi) : SpStep v s (spDataCrcHi v s)
  | dataCrcLo (h : s.fsm = .dataCrcLo) (hn : s.dataN.toNat ≤ Config.bufBytes) :
      SpStep v s (spRecord (Memory.slice s.buf s.dataN.toNat) (foundCrc s.crcHi v) s)
  | terminated (h : s.fsm = .terminated) : SpStep v s (spTerminated s)

/-- SP_BYTE answers exactly the next states of its rules. -/
theorem spByte_eq_next {v : Byte} {s t : State} : spByte v s = .next t ↔ SpStep v s t := by
  constructor
  · intro h
    unfold spByte at h
    split at h
    · cases h; exact .none ‹_›
    · split at h
      · cases h; exact .amId ‹_› ‹_›
      · split at h
        · cases hid : s.idValid <;> simp only [hid] at h <;> cases h
          · exact .amDataNoId ‹_› ‹_› hid
          · exact .amData ‹_› ‹_› hid
        · cases h; exact .amOther ‹_› ‹_› ‹_›
    · cases h; exact .idTrack ‹_›
    · cases h; exact .idSide ‹_›
    · cases h; exact .idSector ‹_›
    · split at h <;> cases h
      · exact .idSizeValid ‹_› ‹_›
      · exact .idSizeInvalid ‹_› (by omega)
    · cases h; exact .idCrcHi ‹_›
    · cases h; exact .idCrcLo ‹_›
    · obtain ⟨s1, h1, h2⟩ := andThen_eq_next.1 h
      obtain ⟨hi, rfl⟩ := bufWrite_eq_next.1 h1
      cases h2; exact .dataByte ‹_› hi
    · cases h; exact .dataCrcHi ‹_›
    · obtain ⟨hn, h2⟩ := withBuf_eq_next.1 h
      cases h2; exact .dataCrcLo ‹_› hn
    · cases h; exact .terminated ‹_›
  · intro h
    cases h with
    | amData h hv hid => subst hv; simp [spByte, h, hid, Config.dataMark, Config.idMark]
    | amDataNoId h hv hid => subst hv; simp [spByte, h, hid, Config.dataMark, Config.idMark]
    | amOther h hi hd => simp [spByte, h, hi, hd]
    | idSizeInvalid h hv => simp only [spByte, h]; rw [if_neg (by omega)]
    | dataByte h hi => simp [spByte, h, spDataByte, bufWrite_inside hi]
    | dataCrcLo h hn => simp [spByte, h, spDataCrcLo, withBuf_inside hn]
    | _ => simp_all [spByte]

/-- SP_BYTE answers whenever the byte it stores and the payload it reads are inside BUF. -/
theorem spByte_answers (v : Byte) (s : State) (hi : s.fsm = .data → s.dataIdx.toNat < Config.bufBytes)
    (hn : s.fsm = .dataCrcLo → s.dataN.toNat ≤ Config.bufBytes) : ∃ t, spByte v s = .next t := by
  cases h : s.fsm <;> simp only [spByte, h]
  case addressMark => split <;> [exact ⟨_, rfl⟩; split] <;> exact ⟨_, rfl⟩
  case data => exact ⟨_, by rw [spDataByte, bufWrite_inside (hi h), andThen_next]⟩
  case dataCrcLo => exact ⟨_, by rw [spDataCrcLo, withBuf_inside (hn h)]⟩
  all_goals exact ⟨_, rfl⟩

theorem SpFrame.refl (s : State) : SpFrame s s := by constructor <;> rfl

theorem spCountByte_frame (s : State) : SpFrame s (spCountByte s) := by
  unfold spCountByte
  split <;> constructor <;> simp

theorem spIdCrcLo_frame (v : Byte) (s : State) : SpFrame s (spIdCrcLo v s) := by
  simp only [spIdCrcLo]
  split <;> constructor <;> simp

theorem spRecord_frame (payload : List Byte) (found : Word16) (s : State) : SpFrame s (spRecord payload found s) := by
  unfold spRecord
  split <;> constructor <;> simp

/-- A byte touches nothing outside the parser. -/
theorem SpStep.frame {v : Byte} {s t : State} (h : SpStep v s t) : SpFrame s t := by
  cases h with
  | none => exact .refl s
  | terminated => exact .refl s
  | dataByte =>
    have := spCountByte_frame { s with buf := Memory.write s.buf s.dataIdx.toNat v }
    constructor <;> simp [this.tieRule, this.cfgSr, this.cfgBf, this.havePrev, this.prev, this.syncSr, this.chActive,
      this.chPhase, this.chClk, this.chClkStart, this.chDprev, this.chDshift, this.chNbits, this.chByteStart, this.ended,
      this.cmdErr, this.orderErr, this.cfgErr, this.cntDrop, this.cntLock, this.cntClkErr, this.crcPort, this.input]
  | idCrcLo => exact spIdCrcLo_frame v s
  | dataCrcLo => exact spRecord_frame _ _ s
  | _ =>
    constructor <;>
      simp [spAmId, spAmData, spAmDataNoId, spAmOther, spIdTrack, spIdSide, spIdSector, spIdSizeValid, spIdSizeInvalid,
        spIdCrcHi, spDataCrcHi]

theorem spByte_frame {v : Byte} {s t : State} (h : spByte v s = .next t) : SpFrame s t :=
  (spByte_eq_next.1 h).frame

/-! ### Each byte row's meaning is SP_BYTE of its byte -/

theorem execAmId_eq (s : State) : execAmId s = spByte Config.idMark s := by
  unfold execAmId; split <;> simp_all [spByte]

theorem execAmData_eq (s : State) : execAmData s = spByte Config.dataMark s := by
  unfold execAmData; split <;> simp_all [spByte, Config.dataMark, Config.idMark]

theorem execAmDataNoId_eq (s : State) : execAmDataNoId s = spByte Config.dataMark s := by
  unfold execAmDataNoId; split <;> simp_all [spByte, Config.dataMark, Config.idMark]

theorem execAmOther_eq (v : Byte) (s : State) : execAmOther v s = spByte v s := by
  unfold execAmOther; split <;> simp_all [spByte]

theorem execIdTrack_eq (v : Byte) (s : State) : execIdTrack v s = spByte v s := by
  unfold execIdTrack; split <;> simp_all [spByte]

theorem execIdSide_eq (v : Byte) (s : State) : execIdSide v s = spByte v s := by
  unfold execIdSide; split <;> simp_all [spByte]

theorem execIdSector_eq (v : Byte) (s : State) : execIdSector v s = spByte v s := by
  unfold execIdSector; split <;> simp_all [spByte]

theorem execIdSizeValid_eq (v : Byte) (s : State) : execIdSizeValid v s = spByte v s := by
  unfold execIdSizeValid; split <;> simp_all [spByte]

theorem execIdSizeInvalid_eq (v : Byte) (s : State) : execIdSizeInvalid v s = spByte v s := by
  unfold execIdSizeInvalid
  split
  · rename_i h
    simp only [spByte, h.1]
    rw [if_neg (by omega)]
  · rfl

theorem execIdCrcHi_eq (v : Byte) (s : State) : execIdCrcHi v s = spByte v s := by
  unfold execIdCrcHi; split <;> simp_all [spByte]

theorem execIdCrcLo_eq (v : Byte) (s : State) : execIdCrcLo v s = spByte v s := by
  unfold execIdCrcLo; split <;> simp_all [spByte]

theorem execDataByte_eq (v : Byte) (s : State) : execDataByte v s = spByte v s := by
  unfold execDataByte; split <;> simp_all [spByte]

theorem execDataCrcHi_eq (v : Byte) (s : State) : execDataCrcHi v s = spByte v s := by
  unfold execDataCrcHi; split <;> simp_all [spByte]

theorem execDataCrcLo_eq (v : Byte) (s : State) : execDataCrcLo v s = spByte v s := by
  unfold execDataCrcLo; split <;> simp_all [spByte]

theorem execByteTerminated_eq (v : Byte) (s : State) : execByteTerminated v s = spByte v s := by
  unfold execByteTerminated; split <;> simp_all [spByte]

theorem execByteNone_eq (v : Byte) (s : State) : execByteNone v s = spByte v s := by
  unfold execByteNone; split <;> simp_all [spByte]

/-- Whatever row a byte is read as, performing it is SP_BYTE of that byte. -/
theorem exec_decodeByte (c : Context) (v : Byte) (s : State) : exec (decodeByte c v) s = spByte v s := by
  unfold decodeByte
  split
  · exact execByteNone_eq v s
  · split
    · subst_vars; exact execAmId_eq s
    · split
      · subst_vars; split
        · exact execAmData_eq s
        · exact execAmDataNoId_eq s
      · exact execAmOther_eq v s
  · exact execIdTrack_eq v s
  · exact execIdSide_eq v s
  · exact execIdSector_eq v s
  · split
    · exact execIdSizeValid_eq v s
    · exact execIdSizeInvalid_eq v s
  · exact execIdCrcHi_eq v s
  · exact execIdCrcLo_eq v s
  · exact execDataByte_eq v s
  · exact execDataCrcHi_eq v s
  · exact execDataCrcLo_eq v s
  · exact execByteTerminated_eq v s

end Sys2Proof.Machine
end

