-- ==== Sys2Proof/Laws/SyncClock.lean ====
section
/-!
SUPPORT. What one cell does: the inversion of DATA_CELL and of CELL, one case per path of 42_sync_and_clock.md R150; when they
answer; what they never touch; and the induction over a sequence of cells, packaged once.
-/

namespace Sys2Proof.Machine

/-- Everything a data cell that answers can do (42_sync_and_clock.md R155, R156). -/
inductive DataStep (b : Bool) (stop : Scaled) (s : State) : State → Prop where
  /-- fewer than eight data bits are in -/
  | bit (h : s.chNbits ≠ 7) : DataStep b stop s (takeBit b (s.chNbits + 1) (clockCheck b stop s))
  /-- the eighth data bit delivers the byte -/
  | byte (h : s.chNbits = 7) {t : State}
      (ht : SpStep (shiftIn s.chDshift b) (takeBit b 0 (clockCheck b stop s)) t) : DataStep b stop s t

theorem dataCell_eq_next {b : Bool} {stop : Scaled} {s t : State} :
    dataCell b stop s = .next t ↔ DataStep b stop s t := by
  unfold dataCell assembleBit
  simp only [clockCheck_chNbits, clockCheck_chDshift]
  constructor
  · intro h
    split at h
    · exact .byte ‹_› (spByte_eq_next.1 h)
    · cases h; exact .bit ‹_›
  · intro h
    cases h with
    | bit h => rw [if_neg h]
    | byte h ht => rw [if_pos h]; exact spByte_eq_next.2 ht

/-- Everything a cell that answers can do (42_sync_and_clock.md R150). -/
inductive CellStep (c : BitCell) (s : State) : State → Prop where
  /-- the cell completes the pattern: a lock and nothing else (R152) -/
  | lock (h : shiftIn s.syncSr c.bit = Config.syncPattern) :
      CellStep c s (lockStep c.bit c.stop (shiftSync c.bit s))
  /-- no chunker: the shift is all (R153) -/
  | noChunker (h : shiftIn s.syncSr c.bit ≠ Config.syncPattern) (ha : s.chActive = false) :
      CellStep c s (shiftSync c.bit s)
  /-- a clock cell (R154) -/
  | clock (h : shiftIn s.syncSr c.bit ≠ Config.syncPattern) (ha : s.chActive = true) (hp : s.chPhase = false) :
      CellStep c s (clockCell c.bit c.start (shiftSync c.bit s))
  /-- a data cell (R155, R156) -/
  | data (h : shiftIn s.syncSr c.bit ≠ Config.syncPattern) (ha : s.chActive = true) (hp : s.chPhase = true)
      {t : State} (ht : DataStep c.bit c.stop (shiftSync c.bit s) t) : CellStep c s t

theorem cellStep_eq_next {c : BitCell} {s t : State} : cellStep c s = .next t ↔ CellStep c s t := by
  unfold cellStep
  constructor
  · intro h
    split at h
    · cases h; exact .lock ‹_›
    · split at h
      · cases h; exact .noChunker ‹_› (by simp_all)
      · split at h
        · cases h; exact .clock ‹_› (by simp_all) (by simp_all)
        · exact .data ‹_› (by simp_all) (by simp_all) (dataCell_eq_next.1 h)
  · intro h
    cases h with
    | lock h => rw [if_pos h]
    | noChunker h ha => simp [h, ha]
    | clock h ha hp => simp [h, ha, hp]
    | data h ha hp ht => simp [h, ha, hp, dataCell_eq_next.2 ht]

/-- A cell answers whenever the byte it may deliver stays inside BUF. -/
theorem cellStep_answers (c : BitCell) (s : State) (hi : s.fsm = .data → s.dataIdx.toNat < Config.bufBytes)
    (hn : s.fsm = .dataCrcLo → s.dataN.toNat ≤ Config.bufBytes) : ∃ t, cellStep c s = .next t := by
  unfold cellStep
  split
  · exact ⟨_, rfl⟩
  · split
    · exact ⟨_, rfl⟩
    · split
      · exact ⟨_, rfl⟩
      · unfold dataCell assembleBit
        split
        · exact spByte_answers _ _ (by simpa using hi) (by simpa using hn)
        · exact ⟨_, rfl⟩

theorem CellFrame.refl (s : State) : CellFrame s s := by constructor <;> rfl

theorem CellFrame.trans {s t u : State} (h : CellFrame s t) (g : CellFrame t u) : CellFrame s u where
  tieRule := g.tieRule.trans h.tieRule
  cfgSr := g.cfgSr.trans h.cfgSr
  cfgBf := g.cfgBf.trans h.cfgBf
  havePrev := g.havePrev.trans h.havePrev
  prev := g.prev.trans h.prev
  ended := g.ended.trans h.ended
  cmdErr := g.cmdErr.trans h.cmdErr
  orderErr := g.orderErr.trans h.orderErr
  cfgErr := g.cfgErr.trans h.cfgErr
  cntDrop := g.cntDrop.trans h.cntDrop
  crcPort := g.crcPort.trans h.crcPort
  input := g.input.trans h.input

theorem SpFrame.toCellFrame {s t : State} (h : SpFrame s t) : CellFrame s t where
  tieRule := h.tieRule
  cfgSr := h.cfgSr
  cfgBf := h.cfgBf
  havePrev := h.havePrev
  prev := h.prev
  ended := h.ended
  cmdErr := h.cmdErr
  orderErr := h.orderErr
  cfgErr := h.cfgErr
  cntDrop := h.cntDrop
  crcPort := h.crcPort
  input := h.input

theorem shiftSync_frame (b : Bool) (s : State) : CellFrame s (shiftSync b s) := by constructor <;> simp

theorem lockStep_frame (b : Bool) (stop : Scaled) (s : State) : CellFrame s (lockStep b stop s) := by
  constructor <;> simp

theorem clockCell_frame (b : Bool) (start : Scaled) (s : State) : CellFrame s (clockCell b start s) := by
  constructor <;> simp

theorem DataStep.frame {b : Bool} {stop : Scaled} {s t : State} (h : DataStep b stop s t) : CellFrame s t := by
  cases h with
  | bit => constructor <;> simp
  | byte _ ht =>
    refine .trans ?_ ht.frame.toCellFrame
    constructor <;> simp

theorem CellStep.frame {c : BitCell} {s t : State} (h : CellStep c s t) : CellFrame s t := by
  cases h with
  | lock => exact (shiftSync_frame _ s).trans (lockStep_frame ..)
  | noChunker => exact shiftSync_frame _ s
  | clock => exact (shiftSync_frame _ s).trans (clockCell_frame ..)
  | data _ _ _ ht => exact (shiftSync_frame _ s).trans ht.frame

/-! ### Sequences of cells -/

@[simp] theorem feedCells_nil (s : State) : feedCells [] s = .next s := rfl

theorem feedCells_cons (c : BitCell) (cs : List BitCell) (s : State) :
    feedCells (c :: cs) s = andThen (cellStep c s) (feedCells cs) := rfl

theorem feedCells_append (cs ds : List BitCell) (s : State) :
    feedCells (cs ++ ds) s = andThen (feedCells cs s) (feedCells ds) := by
  induction cs generalizing s with
  | nil => rfl
  | cons c cs ih =>
    rw [List.cons_append, feedCells_cons, feedCells_cons, andThen_assoc]
    exact congrArg _ (funext ih)

/-- A relation that every cell respects, and that is reflexive and transitive, holds across a sequence of cells. -/
theorem feedCells_rel {R : State → State → Prop} (refl : ∀ s, R s s) (trans : ∀ s t u, R s t → R t u → R s u)
    (cell : ∀ c s t, CellStep c s t → R s t) {cs : List BitCell} {s t : State} (h : feedCells cs s = .next t) :
    R s t := by
  induction cs generalizing s with
  | nil => cases h; exact refl _
  | cons c cs ih =>
    rw [feedCells_cons] at h
    obtain ⟨u, hu, hrest⟩ := andThen_eq_next.1 h
    exact trans s u t (cell c s u (cellStep_eq_next.1 hu)) (ih hrest)

/-- A property under which every cell answers and which every cell keeps: a sequence of cells answers and keeps it. -/
theorem feedCells_answers {P : State → Prop} (cell : ∀ c s, P s → ∃ t, cellStep c s = .next t ∧ P t)
    (cs : List BitCell) {s : State} (h : P s) : ∃ t, feedCells cs s = .next t ∧ P t := by
  induction cs generalizing s with
  | nil => exact ⟨s, rfl, h⟩
  | cons c cs ih =>
    obtain ⟨u, hu, hPu⟩ := cell c s h
    obtain ⟨t, ht, hPt⟩ := ih hPu
    exact ⟨t, by rw [feedCells_cons, hu, andThen_next, ht], hPt⟩

/-- A sequence of cells touches only what cells touch. -/
theorem feedCells_frame {cs : List BitCell} {s t : State} (h : feedCells cs s = .next t) : CellFrame s t :=
  feedCells_rel CellFrame.refl (fun _ _ _ => .trans) (fun _ _ _ => CellStep.frame) h

/-! ### Cells that establish an ID -/

theorem SameId.refl (s : State) : SameId s s := by constructor <;> rfl

theorem SameId.trans {s t u : State} (h : SameId s t) (g : SameId t u) : SameId s u where
  idTrack := g.idTrack.trans h.idTrack
  idSide := g.idSide.trans h.idSide
  idSector := g.idSector.trans h.idSector
  idSizeCode := g.idSizeCode.trans h.idSizeCode
  decodedSize := g.decodedSize.trans h.decodedSize
  idValid := g.idValid.trans h.idValid

@[simp] theorem not_cellsEstablish_nil (s : State) : ¬cellsEstablish [] s := by
  rintro ⟨before, c, after, u, h, -⟩
  simp at h

/-- A sequence establishes an ID exactly when its first cell does or the others do, from the state the first leaves. -/
theorem cellsEstablish_cons {c : BitCell} {cs : List BitCell} {s t : State} (h : cellStep c s = .next t) :
    cellsEstablish (c :: cs) s ↔ cellEstablishes c.bit s ∨ cellsEstablish cs t := by
  constructor
  · rintro ⟨before, d, after, u, hcs, hu, hd⟩
    cases before with
    | nil =>
      simp only [List.nil_append, List.cons.injEq] at hcs
      cases hu
      exact .inl (hcs.1 ▸ hd)
    | cons x before =>
      simp only [List.cons_append, List.cons.injEq] at hcs
      obtain ⟨rfl, rfl⟩ := hcs
      rw [feedCells_cons, h, andThen_next] at hu
      exact .inr ⟨before, d, after, u, rfl, hu, hd⟩
  · rintro (hc | ⟨before, d, after, u, rfl, hu, hd⟩)
    · exact ⟨[], c, cs, s, rfl, rfl, hc⟩
    · exact ⟨c :: before, d, after, u, rfl, by rw [feedCells_cons, h, andThen_next, hu], hd⟩

end Sys2Proof.Machine
end

