-- ==== Sys2Proof/Laws/FluxDemodulator.lean ====
section
/-!
SUPPORT. EDGE, path by path; a list of CELL operations is a sequence of cells; a scaled time always fits its 96 bits.
-/

namespace Sys2Proof.Machine

/-- EDGE after END (41_flux_demodulator.md R129). -/
theorem execEdge_ended {s : State} (t : Timestamp) (h : s.ended = true) : execEdge t s = .next (setCmdErr s) :=
  if_pos h

/-- EDGE closes a gap once an edge is recorded (41_flux_demodulator.md R120). -/
theorem execEdge_gap {s : State} (t : Timestamp) (h : accepts s) (hp : s.havePrev = true) :
    execEdge t s = closeGap s.prev t { s with prev := t } := by
  unfold execEdge
  rw [if_neg (by simp [h.1]), if_neg (by simpa only [not_or] using h.2), if_neg (by simp [hp])]

/-- CELL operations one after another are the cells one after another. -/
theorem execAll_cellInstrs (cs : List BitCell) (s : State) : execAll (cellInstrs cs) s = feedCells cs s := by
  induction cs generalizing s with
  | nil => rfl
  | cons c cs ih =>
    rw [feedCells_cons, show feedCells cs = execAll (cellInstrs cs) from funext fun s => (ih s).symm]
    rfl

/-- A timestamp times CFG_BF fits 96 bits (00_scope.md R8). -/
theorem scaled_lt (t : Timestamp) (bf : Word32) : t.toNat * bf.toNat < 2 ^ 96 :=
  calc
    t.toNat * bf.toNat < 2 ^ 64 * 2 ^ 32 := Nat.mul_lt_mul'' t.isLt bf.isLt
    _ = 2 ^ 96 := by norm_num

end Sys2Proof.Machine
end

