-- ==== Sys2Proof/Laws/Frames.lean ====
section
/-!
SUPPORT. What a pair of cells does to a running chunker, and the windows of the sync register while a frame is shifted in.
-/

namespace Sys2Proof.Machine

/-! ### Pairs -/

/-- A pair whose clock is the required one takes its data bit, with fewer than seven in. -/
theorem feedCells_pair (c d : BitCell) (rest : List BitCell) (s : State) (ha : s.chActive = true)
    (hp : s.chPhase = false) (hn : s.chNbits ≠ 7) (h1 : shiftIn s.syncSr c.bit ≠ Config.syncPattern)
    (h2 : shiftIn (shiftIn s.syncSr c.bit) d.bit ≠ Config.syncPattern) (hc : c.bit = expectedClock s.chDprev d.bit) :
    feedCells (c :: d :: rest) s =
      feedCells rest
        { s with
          syncSr := shiftIn (shiftIn s.syncSr c.bit) d.bit
          chClk := c.bit
          chClkStart := c.start
          chByteStart := if s.chNbits = 0 then c.start else s.chByteStart
          chDprev := d.bit
          chDshift := shiftIn s.chDshift d.bit
          chNbits := s.chNbits + 1
          chPhase := false } := by
  rw [feedCells_cons, cellStep_eq_next.2 (.clock h1 ha hp), andThen_next, feedCells_cons,
    cellStep_eq_next.2
      (.data
        (t := takeBit d.bit (s.chNbits + 1)
          (clockCheck d.bit d.stop (shiftSync d.bit (clockCell c.bit c.start (shiftSync c.bit s)))))
        (by simpa using h2) (by simpa using ha) (by simp) (.bit (by simpa using hn))),
    andThen_next]
  congr 1
  have : clockCheck d.bit d.stop (shiftSync d.bit (clockCell c.bit c.start (shiftSync c.bit s))) =
      setDprev d.bit (shiftSync d.bit (clockCell c.bit c.start (shiftSync c.bit s))) :=
    congrArg (setDprev d.bit) (if_neg (by simp [hc]))
  rw [this]
  simp only [takeBit, setDprev, shiftSync, clockCell]
  cases s
  simp at hp
  subst hp
  rfl

/-! ### Windows -/

/-- The sync register after cells 0 to `k` of a frame `w`, from a register `r`. -/
def window (r w : Word16) (k : Nat) : Word16 :=
  ((r ++ w : BitVec 32) >>> (15 - k)).setWidth 16

theorem shiftIn_bit (v : Word16) (b : Bool) (i : Nat) (hi : i < 16) :
    (shiftIn v b).getLsbD i = if i = 0 then b else v.getLsbD (i - 1) := by
  simp only [shiftIn, BitVec.getLsbD_or, BitVec.getLsbD_shiftLeft, BitVec.getLsbD_setWidth]
  rcases i with _ | i
  · simp
  · simp [hi]

theorem window_bit (r w : Word16) (k i : Nat) (hi : i < 16) :
    (window r w k).getLsbD i =
      if 15 - k + i < 16 then w.getLsbD (15 - k + i) else r.getLsbD (15 - k + i - 16) := by
  simp only [window, BitVec.getLsbD_setWidth, BitVec.getLsbD_ushiftRight, hi, decide_true, Bool.true_and]
  exact BitVec.getLsbD_append (x := r) (y := w)

theorem window_zero (r w : Word16) : window r w 0 = shiftIn r (frameCell w 0) := by
  apply BitVec.eq_of_getLsbD_eq
  intro i hi
  rw [window_bit _ _ _ _ hi, shiftIn_bit _ _ _ hi]
  rcases i with _ | i
  · simp [frameCell]
  · rw [if_neg (by omega), if_neg (by omega)]
    congr 1
    omega

theorem window_succ (r w : Word16) (k : Nat) (hk : k < 15) :
    window r w (k + 1) = shiftIn (window r w k) (frameCell w (k + 1)) := by
  apply BitVec.eq_of_getLsbD_eq
  intro i hi
  rw [window_bit _ _ _ _ hi, shiftIn_bit _ _ _ hi]
  rcases i with _ | i
  · rw [if_pos (by omega), if_pos rfl]
    rfl
  · rw [if_neg (by omega : ¬i + 1 = 0), window_bit _ _ _ _ (by omega),
      show 15 - (k + 1) + (i + 1) = 15 - k + (i + 1 - 1) by omega]

theorem window_last (r w : Word16) : window r w 15 = w := by
  apply BitVec.eq_of_getLsbD_eq
  intro i hi
  rw [window_bit _ _ _ _ hi, if_pos (by omega)]
  congr 1
  omega

end Sys2Proof.Machine
end

