-- ==== Sys2Proof/Laws/PerInstr.lean ====
section
/-!
SUPPORT. Statements made for every operation: the sub-block an operation belongs to does not depend on the context in which
its item is read.
-/

namespace Sys2Proof.Laws.SubBlock

/-- Written as an item and read back in any context, a well-formed operation goes to the sub-block it belongs to. -/
def Statement (i : Instr) : Prop :=
  i.wf = true → ∀ c : Context, Machine.subBlockOf (decode c (encode i)) = Machine.subBlockOf i

/-- Every row a byte can be read as is the sector parser's. -/
theorem byte_row (c : Context) (v : Byte) : Machine.subBlockOf (decodeByte c v) = .sectorParser := by
  unfold decodeByte
  split <;> (try split) <;> (try split) <;> (try split) <;> rfl

theorem reset : Statement .reset := fun _ _ => by simp [encode, decode, decodeHost, Machine.subBlockOf]

theorem cfgSr (value : Word32) : Statement (.cfgSr value) := fun _ _ => by simp [encode, decode, decodeHost, Machine.subBlockOf]

theorem cfgBf (value : Word32) : Statement (.cfgBf value) := fun _ _ => by simp [encode, decode, decodeHost, Machine.subBlockOf]

theorem edge (t : Timestamp) : Statement (.edge t) := fun _ _ => by simp [encode, decode, decodeHost, Machine.subBlockOf]

theorem endRun : Statement .endRun := fun _ _ => by simp [encode, decode, decodeHost, Machine.subBlockOf]

theorem rdreg (index : Byte) : Statement (.rdreg index) := fun _ _ => by simp [encode, decode, decodeHost, Machine.subBlockOf]

theorem reserved0 : Statement .reserved0 := fun _ _ => by simp [encode, decode, decodeHost, Machine.subBlockOf]

theorem reserved7 : Statement .reserved7 := fun _ _ => by simp [encode, decode, decodeHost, Machine.subBlockOf]

theorem reserved8ToF (tag : BitVec 4) : Statement (.reserved8ToF tag) := by
  intro h _
  have : 8 ≤ tag.toNat := of_decide_eq_true h
  simp only [encode, decode, decodeHost, hostTag_hostWord]
  split <;> first | omega | rfl

theorem cell (b : Bool) (start stop : Scaled) : Statement (.cell b start stop) := fun _ _ => rfl

theorem syncLock (b : Bool) (stop : Scaled) : Statement (.syncLock b stop) := fun _ _ => rfl

theorem mfmClockCell (b : Bool) (start : Scaled) : Statement (.mfmClockCell b start) := fun _ _ => rfl

theorem mfmDataCell (b : Bool) (stop : Scaled) : Statement (.mfmDataCell b stop) := fun _ _ => rfl

theorem byteFrame (cells : Word16) (start : Scaled) : Statement (.byteFrame cells start) := fun _ _ => rfl

theorem amId : Statement .amId := fun _ c => byte_row c _

theorem amData : Statement .amData := fun _ c => byte_row c _

theorem amDataNoId : Statement .amDataNoId := fun _ c => byte_row c _

theorem amOther (v : Byte) : Statement (.amOther v) := fun _ c => byte_row c _

theorem idTrack (v : Byte) : Statement (.idTrack v) := fun _ c => byte_row c _

theorem idSide (v : Byte) : Statement (.idSide v) := fun _ c => byte_row c _

theorem idSector (v : Byte) : Statement (.idSector v) := fun _ c => byte_row c _

theorem idSizeValid (v : Byte) : Statement (.idSizeValid v) := fun _ c => byte_row c _

theorem idSizeInvalid (v : Byte) : Statement (.idSizeInvalid v) := fun _ c => byte_row c _

theorem idCrcHi (v : Byte) : Statement (.idCrcHi v) := fun _ c => byte_row c _

theorem idCrcLo (v : Byte) : Statement (.idCrcLo v) := fun _ c => byte_row c _

theorem dataByte (v : Byte) : Statement (.dataByte v) := fun _ c => byte_row c _

theorem dataCrcHi (v : Byte) : Statement (.dataCrcHi v) := fun _ c => byte_row c _

theorem dataCrcLo (v : Byte) : Statement (.dataCrcLo v) := fun _ c => byte_row c _

theorem byteTerminated (v : Byte) : Statement (.byteTerminated v) := fun _ c => byte_row c _

theorem byteNone (v : Byte) : Statement (.byteNone v) := fun _ c => byte_row c _

theorem crcStep (c : Word16) (x : Byte) : Statement (.crcStep c x) := fun _ _ => rfl

end Sys2Proof.Laws.SubBlock
end

