-- ==== Sys2Proof/Tests/Slice0.lean ====
section
/-!
SUPPORT. The model's own tests: ill-formed terms, words written out from the encodings, one or two single steps per operation
with the results of 95_test_vectors.md, and for every statement with hypotheses a state and operands that meet them.
-/

namespace Sys2Proof.Machine

/-! ### Helpers -/

/-- The next state of a meaning, if it answers one. -/
def nextOf (o : Result) : Option State :=
  match o with
  | .next s => some s
  | .fault _ => none
  | .refused _ => none

/-- The fault of a meaning, if it stops with one. -/
def faultOf (o : Result) : Option Fault :=
  match o with
  | .next _ => none
  | .fault r => some r
  | .refused _ => none

/-- CFG_SR = 4 and CFG_BF = 1, as the vectors take them. -/
def testCfg : State := { State.reset with cfgSr := 4, cfgBf := 1 }

/-- Configured, with an edge recorded. -/
def testEdge (prev : Timestamp) : State := { testCfg with havePrev := true, prev := prev }

/-- Right after a lock. -/
def testLock : State := { testCfg with syncSr := 0x4489, chActive := true, chDprev := true, fsm := .addressMark }

/-- One cell before a lock, with a running chunker; the oldest bit of SYNC_SR is shifted out. -/
def testNear : State := { testLock with syncSr := 0xA244 }

/-- In a state of the parser, with the ID (5, 0, 3) of a size code established. -/
def testId (f : FsmState) (code : Byte) : State :=
  { testLock with
    fsm := f
    pTrack := 5
    pSector := 3
    idTrack := 5
    idSector := 3
    idSizeCode := code
    decodedSize := decodedSizeOf code
    idValid := true }

/-- In a data field of an ID of a size code, at an index. -/
def testData (f : FsmState) (code : Byte) (idx : Len14) : State :=
  { testId f code with dataN := decodedSizeOf code, dataIdx := idx }

/-! ### Ill-formed terms (30_encoding.md R81, R88, R93, R96; 42_sync_and_clock.md R158) -/

theorem test_wf_reserved_tag : (Instr.reserved8ToF 7).wf = false ∧ (Instr.reserved8ToF 8).wf = true := by decide

theorem test_wf_cell_interval : (Instr.cell true 4 4).wf = false ∧ (Instr.cell true 4 5).wf = true := by decide

theorem test_wf_lock_cell : (Instr.syncLock false 64).wf = false ∧ (Instr.syncLock true 64).wf = true := by decide

theorem test_wf_am_other :
    (Instr.amOther 0xFE).wf = false ∧ (Instr.amOther 0xFB).wf = false ∧ (Instr.amOther 0xFC).wf = true := by decide

theorem test_wf_size_valid : (Instr.idSizeValid 7).wf = false ∧ (Instr.idSizeValid 6).wf = true := by decide

theorem test_wf_size_invalid : (Instr.idSizeInvalid 6).wf = false ∧ (Instr.idSizeInvalid 7).wf = true := by decide

/-! ### Decoding: words written out from the encodings (30_encoding.md R80 to R97, 95_test_vectors.md) -/

/-- P1: CFG_SR 4 is `0x2_0000000000000004`; CFG_BF with bit 32 set ignores it (V-HC-5). -/
theorem test_decode_cfg :
    decodeHost (0b0010#4 ++ 0x0000000000000004#64) = .cfgSr 4 ∧
      decodeHost (0b0011#4 ++ 0x0000000100000004#64) = .cfgBf 4 := by decide

/-- P1: EDGE 124 is `0x4_000000000000007C`; END is `0x5_0000000000000000`; RESET is `0x1_0000000000000000`. -/
theorem test_decode_edge_end_reset :
    decodeHost (0b0100#4 ++ 0x000000000000007C#64) = .edge 124 ∧ decodeHost (0b0101#4 ++ 0#64) = .endRun ∧
      decodeHost (0b0001#4 ++ 0#64) = .reset := by decide

/-- V-HC-4: PAYLOAD bit 8 of an RDREG is ignored. -/
theorem test_decode_rdreg :
    decodeHost (0b0110#4 ++ 0x00000000000001FF#64) = .rdreg 0xFF ∧
      decodeHost (0b0110#4 ++ 0x000000000000FF0E#64) = .rdreg 14 := by decide

/-- V-HC-2: `.word 0x9, 123` is reserved, like tags 0, 7 and F. -/
theorem test_decode_reserved :
    decodeHost (0b1001#4 ++ 123#64) = .reserved8ToF 9 ∧ decodeHost (0b0000#4 ++ 1#64) = .reserved0 ∧
      decodeHost (0b0111#4 ++ 1#64) = .reserved7 ∧ decodeHost (0b1111#4 ++ 1#64) = .reserved8ToF 15 := by decide

/-- R92: the pattern `0100010010001001`; R91: 0xA1 after a 1 with valid clocks is `0100010010101001`. The times 0 are the
model's choice (log 11). -/
theorem test_decode_words16 :
    decodeTableWord 16 0b0100010010001001 = some (.syncLock true 0) ∧
      decodeTableWord 16 0b0100010010101001 = some (.byteFrame 0x44A9 0) := by decide

/-- R88: a cell of value 1 from scaled time 4 to 8, `b` in bit 0, `S` from bit 1, `E` from bit 97 (log 11). -/
theorem test_decode_cell : decodeTableWord 193 (1 + 4 * 2 ^ 1 + 8 * 2 ^ 97) = some (.cell true 4 8) := by decide

/-- The numbered word of CRC_STEP: the register above the byte (log 11). -/
theorem test_decode_crc : decodeTableWord 24 0b000100100011010001010110 = some (.crcStep 0x1234 0x56) := by decide

/-- R199: one byte is a different row in every state of the parser. -/
theorem test_decode_byte_rows :
    ([FsmState.none, .addressMark, .idTrack, .idSide, .idSector, .idSize, .idCrcHi, .idCrcLo, .data, .dataCrcHi,
        .dataCrcLo, .terminated].map fun f => decodeByte { fsm := f, idValid := true } 0b11111011) =
      [.byteNone 0xFB, .amData, .idTrack 0xFB, .idSide 0xFB, .idSector 0xFB, .idSizeInvalid 0xFB, .idCrcHi 0xFB,
        .idCrcLo 0xFB, .dataByte 0xFB, .dataCrcHi 0xFB, .dataCrcLo 0xFB, .byteTerminated 0xFB] := by decide

/-- R93, R96: the marks, and size codes at the limit. -/
theorem test_decode_marks_and_sizes :
    decodeByte { fsm := .addressMark, idValid := true } 0b11111110 = .amId ∧
      decodeByte { fsm := .addressMark, idValid := false } 0b11111011 = .amDataNoId ∧
      decodeByte { fsm := .addressMark, idValid := true } 0b11111000 = .amOther 0xF8 ∧
      decodeByte { fsm := .idSize, idValid := true } 0b00000110 = .idSizeValid 6 ∧
      decodeByte { fsm := .idSize, idValid := true } 0b00000111 = .idSizeInvalid 7 := by decide

/-- R90: the cell interfaces carry their cells as they are. -/
theorem test_decode_cells (c : Context) :
    decode c (.clockCell true 8) = .mfmClockCell true 8 ∧ decode c (.dataCell false 16) = .mfmDataCell false 16 :=
  ⟨rfl, rfl⟩

/-- A word of a width no interface has, and a number that does not fit, are refused by name. -/
theorem test_decode_refuses :
    tableItem 12 0 = .error (.noSuchFormat 12) ∧ tableItem 8 0x100 = .error (.tooWide 8 0x100) ∧
      decodeTableWord 12 0 = none := ⟨rfl, rfl, rfl⟩

/-- MFM encodings of 95_test_vectors.md section 3. -/
theorem test_mfm_frames :
    mfmFrame false 0x00 = 0xAAAA ∧ mfmFrame true 0x00 = 0x2AAA ∧ mfmFrame true 0xFE = 0x5554 ∧
      mfmFrame false 0x4E = 0x9254 ∧ mfmFrame true 0xA1 = 0x44A9 ∧ mfmFrame false 0x48 = 0x924A := by decide

/-- R100, R101: a line with a comment, and the CELLS line of V-HC-13 with its edges 0, 16, 28, 44, 56, 60. -/
theorem test_asm :
    asmWords (.cells 0 4 [true, false, false, false, true, false, false, true, false, false, false, true, false,
        false, true]) =
      .ok ([0, 16, 28, 44, 56, 60].map fun t => hostWord 4 t) := by decide

/-! ### Single steps, with the results of 95_test_vectors.md -/

/-- V-HC-9. -/
theorem test_reset :
    (nextOf (exec .reset { testEdge 3 with cmdErr := true, out := [.eos] })).map
        (fun t => (t.cfgSr, t.havePrev, t.prev, status t, t.out)) =
      some (0, false, 0, 0, [.eos]) := by decide

/-- V-HC-10. -/
theorem test_cfg_sr : (nextOf (exec (.cfgSr 4) State.reset)).map (fun t => (t.cfgSr, t.cfgBf)) = some (4, 0) := by decide

/-- R257: after END the write is refused. -/
theorem test_cfg_bf_after_end :
    (nextOf (exec (.cfgBf 2) { testCfg with ended := true })).map (fun t => (t.cfgBf, t.cmdErr)) = some (1, true) := by
  decide

/-- V-FD-12. -/
theorem test_edge_backwards :
    (nextOf (exec (.edge 5) (testEdge 10))).map (fun t => (t.out, t.prev, status t, t.cntDrop)) =
      some ([.drop 10 5], 5, 0x403, 1) := by decide

/-- V-FD-6: two cells, a 1 and a 0, so SYNC_SR ends `10`. -/
theorem test_edge_two_cells :
    (nextOf (exec (.edge 10) (testEdge 0))).map (fun t => (t.out, t.prev, status t, t.syncSr)) =
      some ([], 10, 0x3, 0b10) := by decide

/-- V-FD-19: the last cell is stretched to the scaled edge 24. -/
theorem test_gap_stretched :
    cellCount .halfEven 10 4 0 6 = 2 ∧ gapCells 10 4 0 6 2 = [⟨true, 0, 10⟩, ⟨false, 10, 24⟩] := by decide

/-- V-FD-3, V-FD-14, V-FD-16, V-FD-17: exact halves under both tie rules. -/
theorem test_gap_ties :
    cellCount .halfEven 4 1 0 2 = 0 ∧ cellCount .halfUp 4 1 0 2 = 1 ∧ cellCount .halfEven 4 1 0 18 = 4 ∧
      cellCount .halfUp 4 1 0 18 = 5 := by decide

/-- V-HC-12: END abandons an ID field in progress with no event. -/
theorem test_end :
    (nextOf (exec .endRun { testEdge 4 with chActive := true, fsm := .idSide })).map (fun t => (t.out, status t)) =
      some ([.eos], 0x1B3) := by decide

/-- V-HC-7: a second END. -/
theorem test_end_twice :
    (nextOf (exec .endRun { State.reset with ended := true })).map (fun t => (t.out, status t)) = some ([], 0x300) := by
  decide

/-- V-HC-8. -/
theorem test_rdreg :
    (nextOf (exec (.rdreg 2) { State.reset with ended := true })).map (fun t => (t.out, t.cmdErr)) =
      some ([.regValue 2 0x100], false) := by decide

/-- V-HC-3. -/
theorem test_rdreg_reserved :
    (nextOf (exec (.rdreg 0x0F) State.reset)).map (fun t => (t.out, status t)) = some ([.regValue 15 0], 0x200) := by
  decide

/-- V-HC-1. -/
theorem test_reserved_0 : (nextOf (exec .reserved0 State.reset)).map (fun t => (t.out, status t)) = some ([], 0x200) := by
  decide

theorem test_reserved_7 : (nextOf (exec .reserved7 State.reset)).map (fun t => (t.out, status t)) = some ([], 0x200) := by
  decide

/-- V-HC-2. -/
theorem test_reserved_9 :
    (nextOf (exec (.reserved8ToF 9) State.reset)).map (fun t => (t.out, status t)) = some ([], 0x200) := by decide

/-- V-SD-2: the fifteenth cell from reset locks. -/
theorem test_cell_lock :
    (nextOf (exec (.cell true 56 60) { testCfg with syncSr := 0x2244 })).map (fun t => (t.out, t.syncSr, t.fsm)) =
      some ([.lock 60], 0x4489, .addressMark) := by decide

/-- V-SD-7: one cell off the pattern there is no lock. -/
theorem test_cell_no_lock :
    (nextOf (exec (.cell false 60 64) { testCfg with syncSr := 0x2244 })).map (fun t => (t.out, t.syncSr, t.fsm)) =
      some ([], 0x4488, .none) := by decide

/-- V-SD-17: a lock in mid-byte discards the bits in progress and the byte in assembly. -/
theorem test_sync_lock :
    (nextOf (exec (.syncLock true 168) { testLock with chNbits := 4, chPhase := true, chDshift := 5, pTrack := 7 })).map
        (fun t => (t.out, t.chNbits, t.chPhase, t.chDshift, t.fsm)) =
      some ([.lock 168], 0, false, 0, .addressMark) := by decide

/-- R154: the first clock cell of a byte marks the byte's start. -/
theorem test_clock_cell :
    (nextOf (exec (.mfmClockCell true 64) testLock)).map
        (fun t => (t.chClk, t.chClkStart, t.chByteStart, t.chPhase, t.out)) =
      some (true, 64, 64, true, []) := by decide

/-- V-SD-14: the last pair of 0xFE with a wrong clock; the byte is still 0xFE. -/
theorem test_data_cell :
    (nextOf (exec (.mfmDataCell false 128)
        { testLock with chPhase := true, chClk := true, chClkStart := 120, chDshift := 0x7F, chNbits := 7 })).map
        (fun t => (t.out, t.fsm, t.chNbits)) =
      some ([.clkErr 120 128 true false], .idTrack, 0) := by decide

/-- V-SD-10: the frame of 0xFE after the lock. -/
theorem test_byte_frame :
    (nextOf (exec (.byteFrame 0x5554 64) testLock)).map (fun t => (t.out, t.fsm, t.syncSr)) =
      some ([], .idTrack, 0x5554) := by decide

/-- V-SD-8: the pattern read by a running chunker. -/
theorem test_byte_frame_pattern :
    (nextOf (exec (.byteFrame 0x4489 64) testLock)).map (fun t => (t.out, t.fsm, t.cntClkErr)) =
      some ([.clkErr 104 112 false true, .lock 128], .addressMark, 1) := by decide

/-- V-SP-1, the mark. -/
theorem test_am_id : (nextOf (exec .amId testLock)).map (fun t => (t.fsm, t.out)) = some (.idTrack, []) := by decide

/-- V-SP-8: size code 6. -/
theorem test_am_data :
    (nextOf (exec .amData (testId .addressMark 6))).map (fun t => (t.fsm, t.dataN, t.dataIdx)) =
      some (.data, 8192, 0) := by decide

/-- V-SP-9. -/
theorem test_am_data_no_id :
    (nextOf (exec .amDataNoId testLock)).map (fun t => (t.fsm, t.out, t.cntProto)) =
      some (.terminated, [.dataNoId], 1) := by decide

/-- V-SP-5. -/
theorem test_am_other :
    (nextOf (exec (.amOther 0xF8) testLock)).map (fun t => (t.fsm, t.out, t.cntProto)) =
      some (.terminated, [.badAm 0xF8], 1) := by decide

/-- V-SP-15: three bytes of an ID field, no ID committed. -/
theorem test_id_track :
    (nextOf (exec (.idTrack 9) (testId .idTrack 0))).map (fun t => (t.fsm, t.pTrack, t.idTrack)) =
      some (.idSide, 9, 5) := by decide

theorem test_id_side :
    (nextOf (exec (.idSide 9) (testId .idSide 0))).map (fun t => (t.fsm, t.pSide, t.idSide)) =
      some (.idSector, 9, 0) := by decide

theorem test_id_sector :
    (nextOf (exec (.idSector 9) (testId .idSector 0))).map (fun t => (t.fsm, t.pSector, t.idSector)) =
      some (.idSize, 9, 3) := by decide

/-- V-SP-1: the size byte establishes the ID. -/
theorem test_id_size_valid :
    (nextOf (exec (.idSizeValid 2) { testLock with fsm := .idSize, pTrack := 5, pSector := 3 })).map
        (fun t => (t.fsm, t.idTrack, t.idSector, t.decodedSize, t.idValid)) =
      some (.idCrcHi, 5, 3, 512, true) := by decide

/-- V-SP-14: the old ID stays. -/
theorem test_id_size_invalid :
    (nextOf (exec (.idSizeInvalid 7) { testId .idSize 0 with pTrack := 2 })).map
        (fun t => (t.fsm, t.out, t.cntProto, t.idTrack, t.idValid)) =
      some (.terminated, [.badSize 7], 1, 5, true) := by decide

/-- V-SP-1. -/
theorem test_id_crc_hi :
    (nextOf (exec (.idCrcHi 0x10) (testId .idCrcHi 2))).map (fun t => (t.fsm, t.crcHi)) = some (.idCrcLo, 0x10) := by
  decide

/-- V-SP-1: the CRC matches. -/
theorem test_id_crc_lo :
    (nextOf (exec (.idCrcLo 0x48) { testId .idCrcLo 2 with crcHi := 0x10 })).map (fun t => (t.fsm, t.out, t.cntCrcErr)) =
      some (.terminated, [], 0) := by decide +kernel

/-- V-SP-2: the CRC differs, and the ID stays established. -/
theorem test_id_crc_lo_error :
    (nextOf (exec (.idCrcLo 0x49) { testId .idCrcLo 2 with crcHi := 0x10 })).map
        (fun t => (t.fsm, t.out, t.cntCrcErr, t.idValid)) =
      some (.terminated, [.idCrcErr 0x1049 0x1048], 1, true) := by decide +kernel

/-- R194: a byte inside the field; V-SP-17: the last byte of a field of 256. -/
theorem test_data_byte :
    (nextOf (exec (.dataByte 0x11) (testData .data 1 254))).map (fun t => (t.fsm, t.dataIdx, t.buf)) =
      some (.data, 255, [(254, 0x11)]) ∧
    (nextOf (exec (.dataByte 0x11) (testData .data 1 255))).map (fun t => (t.fsm, t.dataIdx, t.buf)) =
      some (.dataCrcHi, 256, [(255, 0x11)]) := by decide

/-- The last byte of BUF, in a field of 8192; and an index outside BUF, which no run holds. -/
theorem test_data_byte_limit :
    (nextOf (exec (.dataByte 1) (testData .data 6 8191))).map (fun t => (t.fsm, t.dataIdx, t.buf)) =
      some (.dataCrcHi, 8192, [(8191, 1)]) ∧
    faultOf (exec (.dataByte 1) (testData .data 6 8192)) = some (.bufIndexOutOfRange 8192) := by decide

/-- V-SP-18. -/
theorem test_data_crc_hi :
    (nextOf (exec (.dataCrcHi 0x12) (testData .dataCrcHi 1 256))).map (fun t => (t.fsm, t.crcHi)) =
      some (.dataCrcLo, 0x12) := by decide

/-- In the low CRC byte of a field of two bytes E2 95: with their mark, E295 is the CRC (V-CRC-11), so the data check input has
CRC 0 (R235). -/
def testRecord : State :=
  { testData .dataCrcLo 0 2 with dataN := 2, buf := [(0, 0xE2), (1, 0x95)], crcHi := 0x00 }

/-- R196, R235: the CRCs are equal. -/
theorem test_data_crc_lo :
    (nextOf (exec (.dataCrcLo 0x00) testRecord)).map (fun t => (t.fsm, t.out, t.cntCrcErr, t.cntRec)) =
      some (.terminated, [.record 5 0 3 2 [0xE2, 0x95] 0x0000 0x0000], 0, 1) := by decide +kernel

/-- R196, as in V-SP-13: the record is emitted despite the mismatch. -/
theorem test_data_crc_lo_error :
    (nextOf (exec (.dataCrcLo 0x01) testRecord)).map (fun t => (t.fsm, t.out, t.cntCrcErr, t.cntRec)) =
      some (.terminated, [.record 5 0 3 2 [0xE2, 0x95] 0x0001 0x0000], 1, 1) := by decide +kernel

/-- V-SP-7: bytes after the error do nothing. -/
theorem test_byte_terminated :
    nextOf (exec (.byteTerminated 0xFE) { testLock with fsm := .terminated }) = some { testLock with fsm := .terminated } := by
  decide

/-- V-SP-20. -/
theorem test_byte_none : nextOf (exec (.byteNone 0xFE) State.reset) = some State.reset := by decide

/-- V-CRC-5. -/
theorem test_crc_step :
    (nextOf (exec (.crcStep 0x1234 0x56) State.reset)).map (fun t => (t.crcPort, t.out)) = some (0x3C40, []) := by decide

/-- V-CRC-1 to V-CRC-4. -/
theorem test_crc_steps :
    crcStep 0x0000 0x00 = 0x0000 ∧ crcStep 0x0000 0x01 = 0x1021 ∧ crcStep 0x8000 0x00 = 0x9188 ∧
      crcStep 0xFFFF 0xFF = 0xFF00 := by decide

/-- The word of P1's first EDGE, presented from a configured block, is performed by the very next step. -/
theorem test_step_performs :
    (nextOf (step (testCfg.withFetchWord 72 0x40000000000000064))).map (fun t => (t.havePrev, t.prev, t.input)) =
      some (true, 100, []) := by decide

/-- A byte presented by number is read where an address mark is due. -/
theorem test_step_performs_byte :
    (nextOf (step (State.reset.withFetchWord 8 0xFB))).map (fun t => (t.fsm, t.out, t.input)) =
      some (.terminated, [.dataNoId], []) := by decide

/-! ### Witnesses: for every statement with hypotheses, a state and operands that meet them, each clause at its boundary -/

/-- A data field of size code 0 in progress, five bytes in. -/
def testField : State := testData .data 0 5

theorem test_inv_lock : BlockInv testLock := by constructor <;> decide

theorem test_inv_id : BlockInv (testId .addressMark 0) := by constructor <;> decide

theorem test_inv_id_crc : BlockInv (testId .idCrcLo 6) := by constructor <;> decide

theorem test_inv_field : BlockInv testField := by constructor <;> decide

theorem test_inv_field_full : BlockInv (testData .dataCrcLo 6 8192) := by constructor <;> decide

theorem test_inv_reset : BlockInv State.reset := by constructor <;> decide

theorem test_inv_edge : BlockInv (testEdge 10) := by constructor <;> decide

theorem test_witness_HostWordsDecodeByTag : 8 ≤ (0x8#4).toNat ∧ 8 ≤ (0xF#4).toNat := by decide

theorem test_witness_DecodeOfEncodeIsTheOperation :
    (Instr.idSizeValid 6).wf = true ∧ (Instr.idSizeValid 6).fits { fsm := .idSize, idValid := false } = true ∧
      (Instr.idSizeInvalid 7).wf = true ∧ (Instr.idSizeInvalid 7).fits { fsm := .idSize, idValid := true } = true ∧
      Instr.amDataNoId.fits { fsm := .addressMark, idValid := false } = true ∧
      (Instr.reserved8ToF 8).wf = true := by decide

theorem test_witness_EveryItemIsARowThatApplies : (0 : Scaled).toNat < (1 : Scaled).toNat := by decide

theorem test_witness_StepPerformsTheNextItem :
    (testLock.withFetchWord 72 0x50000000000000000).input = [.host 0x50000000000000000] ∧ testLock.input = [] := by
  decide

/-- Before and after END; a gap from 10 to 12 after a write of CFG_SR 2 or CFG_BF 2 (cells), and of CFG_SR 8 (a DROP). -/
theorem test_witness_CfgWritesItsRegisterAlone :
    (testEdge 10).ended = false ∧ { testCfg with ended := true }.ended = true ∧ (2 : Word32) ≠ 0 ∧
      (testEdge 10).havePrev = true ∧ (testEdge 10).cfgBf ≠ 0 ∧ (testEdge 10).cfgSr ≠ 0 ∧
      ¬cellCount (testEdge 10).tieRule 2 (testEdge 10).cfgBf (testEdge 10).prev 12 ≤ 0 ∧
      ¬cellCount (testEdge 10).tieRule (testEdge 10).cfgSr 2 (testEdge 10).prev 12 ≤ 0 ∧
      cellCount (testEdge 10).tieRule 8 (testEdge 10).cfgBf (testEdge 10).prev 12 ≤ 0 := by decide

theorem test_witness_EndClosesTheRun : testField.ended = false ∧ { testField with ended := true }.ended = true := by decide

theorem test_witness_RdregEmitsOneRegisterValue :
    (registerFile testLock)[(0x0E : Byte).toNat]? = some 0x4489 ∧ (0x0E : Byte).toNat ≤ 0x0E ∧
      0x0F ≤ (0x0F : Byte).toNat ∧ 0x0F ≤ (0xFF : Byte).toNat := by decide

theorem test_witness_ReservedWordsSetCmdErr :
    (0x0#4 = 0x0#4 ∨ 7 ≤ (0x0#4).toNat) ∧ (0x7#4 = 0x0#4 ∨ 7 ≤ (0x7#4).toNat) ∧
      (0xF#4 = 0x0#4 ∨ 7 ≤ (0xF#4).toNat) := by decide

theorem test_witness_AfterEndOnlyCmdErr : { testId .terminated 2 with ended := true }.ended = true := rfl

theorem test_witness_EdgeBeforeConfigurationIsRefused :
    ({ testCfg with cfgBf := 0 }.ended = false ∧ ({ testCfg with cfgBf := 0 }.cfgSr = 0 ∨ { testCfg with cfgBf := 0 }.cfgBf = 0)) ∧
      ({ testCfg with cfgSr := 0 }.ended = false ∧ ({ testCfg with cfgSr := 0 }.cfgSr = 0 ∨ { testCfg with cfgSr := 0 }.cfgBf = 0)) := by
  decide

theorem test_accepts_cfg : accepts testCfg := ⟨rfl, by decide, by decide⟩

theorem test_accepts_edge : accepts (testEdge 10) := ⟨rfl, by decide, by decide⟩

theorem test_witness_AcceptedEdgeRecordsItsTime :
    (accepts testCfg ∧ testCfg.havePrev = false) ∧ accepts (testEdge 10) ∧ ∃ u, exec (.edge 14) (testEdge 10) = .next u :=
  ⟨⟨test_accepts_cfg, rfl⟩, test_accepts_edge, _, rfl⟩

/-- One over, one under, an even tie, an odd tie, an odd tie below zero, and an exact half away on either side. -/
theorem test_witness_RoundIsTheNearestInteger :
    0 < 4 ∧ 2 * ((5 : Int) % 4) < 4 ∧ 4 < 2 * ((7 : Int) % 4) ∧
      (2 * ((10 : Int) % 4) = 4 ∧ (10 : Int) / 4 % 2 = 0) ∧ (2 * ((6 : Int) % 4) = 4 ∧ (6 : Int) / 4 % 2 = 1) ∧
      (2 * ((-2 : Int) % 4) = 4 ∧ (-2 : Int) / 4 % 2 = 1) ∧
      2 * (10 - roundT .halfEven 10 4 * 4) = 4 ∧ 2 * (6 - roundT .halfUp 6 4 * 4) = -4 := by decide

/-- A gap of exactly half a cell under HALF_EVEN, and one just below half. -/
theorem test_witness_GapUnderHalfACellIsDropped :
    accepts (testEdge 10) ∧ (testEdge 10).havePrev = true ∧
      2 * ((((12 : Timestamp).toNat : Int) - (testEdge 10).prev.toNat) * (testEdge 10).cfgBf.toNat) =
        (testEdge 10).cfgSr.toNat ∧ (testEdge 10).tieRule = .halfEven ∧
      2 * ((((11 : Timestamp).toNat : Int) - (testEdge 10).prev.toNat) * (testEdge 10).cfgBf.toNat) <
        (testEdge 10).cfgSr.toNat :=
  ⟨test_accepts_edge, rfl, by decide, rfl, by decide⟩

theorem test_witness_TimestampNotAbovePrevIsADrop :
    accepts (testEdge 10) ∧ (testEdge 10).havePrev = true ∧ (10 : Timestamp).toNat ≤ (testEdge 10).prev.toNat ∧
      (0 : Timestamp).toNat ≤ (testEdge 10).prev.toNat :=
  ⟨test_accepts_edge, rfl, by decide, by decide⟩

/-- An edge that gives two cells from a state of the invariant. -/
theorem test_witness_EdgeRunsTheCellsOfItsGap :
    BlockInv (testEdge 10) ∧ (testEdge 10).ended = false ∧ ¬((testEdge 10).cfgSr = 0 ∨ (testEdge 10).cfgBf = 0) ∧
      (testEdge 10).havePrev = true ∧ ¬cellCount .halfEven 4 1 10 16 ≤ 0 ∧ cellCount .halfEven 4 1 10 12 ≤ 0 :=
  ⟨test_inv_edge, rfl, by decide, rfl, by decide, by decide⟩

theorem test_witness_GapCellsTileTheGap :
    (4 : Word32) ≠ 0 ∧ 0 < cellCount .halfEven 4 1 0 3 ∧ 0 < cellCount .halfUp 4 1 0 2 := by decide

theorem test_witness_WholeGapsNeedNoRounding :
    (4 : Word32) ≠ 0 ∧ 0 < 1 ∧
      (14 : Timestamp).toNat * (1 : Word32).toNat = (10 : Timestamp).toNat * (1 : Word32).toNat + 1 * (4 : Word32).toNat := by
  decide

/-- A dropped gap, cells, a refused edge. -/
theorem test_witness_EdgeFrame :
    (∃ u, exec (.edge 11) (testEdge 10) = .next u) ∧ (∃ u, exec (.edge 18) (testEdge 10) = .next u) ∧
      ∃ u, exec (.edge 18) State.reset = .next u :=
  ⟨⟨_, rfl⟩, ⟨_, rfl⟩, _, rfl⟩

theorem test_witness_LockRestartsChunkerAndParser :
    testNear.syncSr <<< 1 ||| (if true then 1 else 0) = 0x4489 := by decide

theorem test_witness_CellsBeforeTheFirstLockOnlyShift :
    testCfg.chActive = false ∧ testCfg.syncSr <<< 1 ||| (if true then 1 else 0) ≠ 0x4489 ∧
      (∃ t, exec .reset testLock = .next t) ∧ testLock.ended = false ∧ ∃ t, exec .endRun testLock = .next t :=
  ⟨rfl, by decide, ⟨_, rfl⟩, rfl, _, rfl⟩

theorem test_witness_ClockCellIsHeld :
    (∃ t, exec (.syncLock true 64) testLock = .next t) ∧ ∃ t, exec (.mfmDataCell false 72) testLock = .next t :=
  ⟨⟨_, rfl⟩, _, rfl⟩

theorem test_witness_DataCellChecksAndAssembles :
    { testLock with chNbits := 6 }.chNbits ≠ 7 ∧ { testLock with chNbits := 7 }.chNbits = 7 := by decide

/-- The cell that completes the pattern, and one that does not. -/
theorem test_witness_CellEmitsAtMostTwoEvents :
    (∃ u, exec (.cell true 56 60) testNear = .next u) ∧
      testNear.syncSr <<< 1 ||| (if true then 1 else 0) = 0x4489 ∧
      (∃ u, exec (.cell false 56 60) testNear = .next u) ∧
      testNear.syncSr <<< 1 ||| (if false then 1 else 0) ≠ 0x4489 :=
  ⟨⟨_, rfl⟩, by decide, ⟨_, rfl⟩, by decide⟩

/-- A data cell that delivers a payload byte stores at DATA_IDX; any other index is left alone. -/
theorem test_witness_CellFrames :
    (∃ u, exec (.cell true 0 4) { testField with chPhase := true, chNbits := 7 } = .next u) ∧
      cellStore true { testField with chPhase := true, chNbits := 7 } = some 5 ∧
      (∃ u, exec (.mfmDataCell true 4) { testField with chPhase := true, chNbits := 7 } = .next u) ∧
      dataCellStore { testField with chNbits := 7 } = some 5 ∧
      ∃ u, exec (.byteFrame 0x5554 64) testLock = .next u :=
  ⟨⟨_, rfl⟩, by decide, ⟨_, rfl⟩, by decide, _, rfl⟩

/-- The 15 cells of V-SD-2, and 14 cells that cannot lock. -/
theorem test_witness_FifteenCellsLockAfterReset :
    testCfg.syncSr = 0 ∧ testCfg.chActive = false ∧
      ([true, false, false, false, true, false, false, true, false, false, false, true, false, false, true].map
          fun b => BitCell.mk b 0 4).map BitCell.bit =
        [true, false, false, false, true, false, false, true, false, false, false, true, false, false, true] ∧
      ([true, false, false, false, true, false, false, true, false, false, false, true, false, false, true].map
          fun b => BitCell.mk b 0 4).getLast? =
        some (BitCell.mk true 0 4) ∧
      (List.replicate 14 (BitCell.mk true 0 4)).length ≤ 14 := by decide

/-- The byte 0xFE after a lock: no window of its frame is the pattern. -/
theorem test_witness_EncodedByteReachesTheParser :
    testLock.chActive = true ∧ testLock.chPhase = false ∧ testLock.chNbits = 0 ∧
      ∀ k < 16,
        ((testLock.syncSr ++ mfmFrame testLock.chDprev 0xFE : BitVec 32) >>> (15 - k)).setWidth 16 ≠ Config.syncPattern := by
  decide

/-- Both alignments: a window of whole pairs, and one that begins with a data cell. -/
theorem test_witness_EncodedDataNeverHoldsThePattern :
    (mfmCells true (dataBits 0xA1) = [] ++ mfmCells true (dataBits 0xA1) ++ [] ∧
        (mfmCells true (dataBits 0xA1)).length = 16) ∧
      mfmCells true (dataBits 0xA1 ++ [true]) =
        [false] ++ ((mfmCells true (dataBits 0xA1 ++ [true])).drop 1).take 16 ++ [true] ∧
      (((mfmCells true (dataBits 0xA1 ++ [true])).drop 1).take 16).length = 16 := by decide

theorem test_witness_PatternInARunningChunker :
    testLock.chActive = true ∧ testLock.chPhase = false ∧ testLock.chNbits = 0 ∧
      ∀ k < 15,
        ((testLock.syncSr ++ Config.syncPattern : BitVec 32) >>> (15 - k)).setWidth 16 ≠ Config.syncPattern := by decide

theorem test_witness_AddressMarkBytes :
    (testId .addressMark 0).fsm = .addressMark ∧ (testId .addressMark 0).idValid = true ∧
      testLock.fsm = .addressMark ∧ testLock.idValid = false ∧ (0xFC : Byte) ≠ 0xFE ∧ (0xFC : Byte) ≠ 0xFB := by decide

theorem test_witness_IdFieldBytes :
    (testId .idTrack 0).fsm = .idTrack ∧ (testId .idSide 0).fsm = .idSide ∧ (testId .idSector 0).fsm = .idSector ∧
      (testId .idCrcHi 0).fsm = .idCrcHi := by decide

theorem test_witness_SizeByteEstablishesOrRejects :
    (testId .idSize 0).fsm = .idSize ∧ (6 : Byte).toNat ≤ 6 ∧ 6 < (7 : Byte).toNat ∧ 6 < (0xFF : Byte).toNat := by decide

/-- V-SP-1 and V-SP-2: the found CRC 0x1048 matches, 0x1049 does not. -/
theorem test_witness_IdCrcIsCheckedAgainstTheId :
    { testId .idCrcLo 2 with crcHi := 0x10 }.fsm = .idCrcLo ∧
      (0x10#8 ++ 0x48#8 : Word16) = crc16 [0xA1, 0xA1, 0xA1, 0xFE, 5, 0, 3, 2] ∧
      (0x10#8 ++ 0x49#8 : Word16) ≠ crc16 [0xA1, 0xA1, 0xA1, 0xFE, 5, 0, 3, 2] := by decide +kernel

theorem test_witness_DataByteIsStored :
    (testData .data 6 8191).fsm = .data ∧ (testData .data 6 8191).dataIdx.toNat < 8192 ∧
      Memory.wf (testData .data 6 8191).buf ∧ BlockInv testField ∧ testField.fsm = .data :=
  ⟨rfl, by decide, by decide, test_inv_field, rfl⟩

theorem test_witness_BufferAccessOutsideStops :
    ((testData .data 6 8192).fsm = .data ∧ 8192 ≤ (testData .data 6 8192).dataIdx.toNat) ∧
      { testData .dataCrcLo 6 8192 with dataN := 8193 }.fsm = .dataCrcLo ∧
      8192 < { testData .dataCrcLo 6 8192 with dataN := 8193 }.dataN.toNat := by decide

theorem test_witness_DataCrcBytesYieldTheRecord :
    (testData .dataCrcHi 6 8192).fsm = .dataCrcHi ∧ (testData .dataCrcLo 6 8192).fsm = .dataCrcLo ∧
      (testData .dataCrcLo 6 8192).dataN.toNat ≤ 8192 := by decide

theorem test_witness_BytesAtRestChangeNothing :
    State.reset.fsm = .none ∧ (testId .terminated 0).fsm = .terminated ∧ BlockInv State.reset :=
  ⟨rfl, rfl, test_inv_reset⟩

theorem test_witness_ParserTransitionTable : BlockInv (testId .idCrcLo 6) ∧ BlockInv (testData .dataCrcLo 6 8192) :=
  ⟨test_inv_id_crc, test_inv_field_full⟩

theorem test_witness_IdFieldEstablishesTheId :
    testLock.fsm = .addressMark ∧ (6 : Byte).toNat ≤ 6 ∧ 6 < (7 : Byte).toNat := by decide

theorem test_witness_DataFieldYieldsItsRecord :
    BlockInv (testId .addressMark 0) ∧ (testId .addressMark 0).fsm = .addressMark ∧
      (testId .addressMark 0).idValid = true ∧
      (List.replicate 128 (0xE5 : Byte)).length = (testId .addressMark 0).decodedSize.toNat :=
  ⟨test_inv_id, rfl, rfl, List.length_replicate.trans (by decide)⟩

theorem test_witness_CrcDetectsOneChangedByte : (0x48 : Byte) ≠ 0x49 := by decide

/-- A step that performs a presented byte, from a state of the invariant. -/
theorem test_witness_EveryStepKeepsTheInvariant :
    BlockInv { testField with input := [.byte 0xE5 0 1] } ∧
      ∃ t, step { testField with input := [.byte 0xE5 0 1] } = .next t :=
  ⟨by constructor <;> decide, _, rfl⟩

theorem test_witness_NoInputStopsTheBlock : BlockInv testField := test_inv_field

/-- A locked block that is presented END. -/
theorem test_witness_HostTransactionsKeepTheHostInvariant :
    HostInv { testLock with havePrev := true, prev := 64, input := [.host 0x50000000000000000] } ∧
      ∃ t, step { testLock with havePrev := true, prev := 64, input := [.host 0x50000000000000000] } = .next t := by
  refine ⟨⟨fun it h => ⟨_, List.mem_singleton.1 h⟩, ?_, ?_, ?_⟩, _, rfl⟩ <;> decide

theorem test_witness_EventsAppendAndAreCounted :
    (∃ t, exec (.rdreg 2) testLock = .next t) ∧ Instr.rdreg 2 ≠ .reset ∧ ∃ t, exec .reset testLock = .next t :=
  ⟨⟨_, rfl⟩, by decide, _, rfl⟩

/-- At the last data cell of a size byte 6 (or 7, with a last cell 1), no ID established yet. -/
def testSizeCell : State :=
  { testLock with chPhase := true, chClk := true, chDprev := true, chDshift := 3, chNbits := 7, fsm := .idSize }

/-- Each flag set by its rule. -/
theorem test_witness_FlagsFollowTheirRules :
    (nextOf (exec .endRun testLock)).map (fun t => (testLock.ended, t.ended)) = some (false, true) ∧
      (nextOf (exec (.rdreg 0x0F) testLock)).map (fun t => (testLock.cmdErr, t.cmdErr)) = some (false, true) ∧
      (nextOf (exec (.edge 10) (testEdge 10))).map (fun t => (t.orderErr, t.cfgErr)) = some (true, false) ∧
      (nextOf (exec (.edge 10) State.reset)).map (fun t => (t.orderErr, t.cfgErr)) = some (false, true) ∧
      (nextOf (exec (.idSizeValid 6) { testLock with fsm := .idSize })).map (fun t => t.idValid) = some true ∧
      (nextOf (exec (.mfmDataCell false 128) testSizeCell)).map (fun t => (t.idValid, t.idSizeCode)) = some (true, 6) ∧
      (nextOf (exec (.mfmDataCell true 128) testSizeCell)).map (fun t => (t.idValid, t.fsm)) =
        some (false, .terminated) := by decide

/-- A size byte, a data cell and a cell that establish an ID at the limit 6; at 7, and at a lock, none does. -/
theorem test_witness_establishesId :
    establishesId (.idSizeValid 6) testSizeCell ∧ ¬establishesId (.idSizeInvalid 7) testSizeCell ∧
      establishesId (.mfmDataCell false 128) testSizeCell ∧ ¬establishesId (.mfmDataCell true 128) testSizeCell ∧
      establishesId (.cell false 124 128) testSizeCell ∧ ¬establishesId (.syncLock true 128) testSizeCell := by
  refine ⟨⟨rfl, by decide⟩, fun h => absurd h.2 (by decide), ⟨rfl, rfl, by decide⟩, fun h => absurd h.2.2 (by decide),
    ⟨by decide, rfl, rfl, rfl, rfl, by decide⟩, id⟩

/-- An EDGE establishes an ID: the two cells of its gap are the clock cell 1 and the data cell 0 that completes the size
byte 6; a BYTE_FRAME does with its first two cells. -/
theorem test_witness_establishesId_cells :
    establishesId (.edge 18) { testSizeCell with chPhase := false, havePrev := true, prev := 10 } ∧
      establishesId (.byteFrame 0x8000 40) { testSizeCell with chPhase := false } := by
  constructor
  · exact ⟨[⟨true, 10, 14⟩], ⟨false, 14, 18⟩, [], _, by decide, rfl, by decide, rfl, rfl, rfl, rfl, by decide⟩
  · exact ⟨[⟨true, 40, 44⟩], ⟨false, 44, 48⟩, _, _, rfl, rfl, by decide, rfl, rfl, rfl, rfl, by decide⟩

theorem test_witness_RegistersAreWrittenByTheirRulesAlone :
    (∃ t, exec (.cfgSr 4) testLock = .next t) ∧ (∃ t, exec (.idSizeValid 6) (testId .idSize 0) = .next t) ∧
      (∀ u, Instr.idSizeValid 6 ≠ .edge u) ∧ (∀ w u, Instr.idSizeValid 6 ≠ .byteFrame w u) ∧
      establishesId (.idSizeValid 6) (testId .idSize 0) ∧ (∃ t, exec (.cell false 124 128) testSizeCell = .next t) :=
  ⟨⟨_, rfl⟩, ⟨_, rfl⟩, nofun, nofun, ⟨rfl, by decide⟩, _, rfl⟩

/-- Five bytes of the field are in; the sixth byte of BUF differs. -/
theorem test_witness_UnwrittenBufferIsInvisible :
    BlockInv testField ∧ BlockInv { testField with buf := [(5, 0xAA)] } ∧
      SameButUnwritten testField { testField with buf := [(5, 0xAA)] } ∧ ∃ t, exec (.dataByte 0xE5) testField = .next t :=
  ⟨test_inv_field, by constructor <;> decide, ⟨rfl, by decide⟩, _, rfl⟩

theorem test_witness_CellsPseudoInstructionMakesItsCells :
    accepts testCfg ∧ testCfg.havePrev = false ∧ testCfg.cfgSr.toNat = 4 * testCfg.cfgBf.toNat ∧
      asmWords (.cells 0 4 [true, false, true]) = .ok [hostWord 4 0, hostWord 4 8, hostWord 4 12] :=
  ⟨test_accepts_cfg, rfl, by decide, by decide⟩

end Sys2Proof.Machine
end

section
/-!
THEOREMS. STATUS (10_state.md R38) is pinned by one lemma that names each of its bits; O12 reads the word off it.
-/

namespace Sys2Proof.Machine

/-- Each bit of STATUS by its index: the flag, the bit of the FSM_STATE code, or 0 (10_state.md R38). -/
theorem status_bit (s : State) (i : Nat) :
    (status s).getLsbD i =
      if i = 0 then configured s
      else if i = 1 then s.havePrev
      else if i = 2 then s.chActive
      else if i = 3 then s.idValid
      else if i < 8 then (fsmCode s.fsm).getLsbD (i - 4)
      else if i = 8 then s.ended
      else if i = 9 then s.cmdErr
      else if i = 10 then s.orderErr
      else if i = 11 then s.cfgErr
      else false := by
  simp only [status, BitVec.getLsbD_append, BitVec.getLsbD_ofBool, BitVec.getLsbD_zero]
  match i with
  | 0 | 1 | 2 | 3 | 4 | 5 | 6 | 7 | 8 | 9 | 10 | 11 => simp
  | n + 12 => simp

/-- Bits 7:4 of STATUS, the code of FSM_STATE. -/
theorem status_fsm (s : State) : (status s).extractLsb' 4 4 = fsmCode s.fsm := by
  apply BitVec.eq_of_getLsbD_eq
  intro i hi
  simp only [BitVec.getLsbD_extractLsb', status_bit, hi, decide_true, Bool.true_and]
  simp (disch := omega) only [if_neg, if_pos, Nat.add_sub_cancel_left]

/-- Bits 31:12 of STATUS. -/
theorem status_reserved (s : State) : (status s).extractLsb' 12 20 = 0 := by
  apply BitVec.eq_of_getLsbD_eq
  intro i hi
  simp only [BitVec.getLsbD_extractLsb', status_bit]
  simp (disch := omega) only [if_neg, Bool.and_false, BitVec.ofNat_eq_ofNat, BitVec.getLsbD_zero]

/-- Settles O12: each flag is its case of `status_bit`; the codes of R28 and the word at reset are closed facts. -/
theorem statusComposesTheFlags : Obligations.StatusComposesTheFlags := by
  refine ⟨fun s => ?_, by decide, by decide⟩
  exact ⟨status_bit s 0, status_bit s 1, status_bit s 2, status_bit s 3, status_fsm s,
    status_bit s 8, status_bit s 9, status_bit s 10, status_bit s 11, status_reserved s⟩

end Sys2Proof.Machine
end

section
/-!
THEOREMS. What the decoder makes of a host word, one equation per TAG (30_encoding.md R81, R82), and O1.
-/

namespace Sys2Proof

section Tags

variable (c : Context) (p : BitVec 64)

@[simp] theorem decode_hostWord_reserved0 : decode c (.host (hostWord 0x0#4 p)) = .reserved0 := by
  simp [decode, decodeHost]

@[simp] theorem decode_hostWord_reset : decode c (.host (hostWord 0x1#4 p)) = .reset := by
  simp [decode, decodeHost]

@[simp] theorem decode_hostWord_cfgSr :
    decode c (.host (hostWord 0x2#4 p)) = .cfgSr (p.extractLsb' 0 32) := by
  simp [decode, decodeHost]

@[simp] theorem decode_hostWord_cfgBf :
    decode c (.host (hostWord 0x3#4 p)) = .cfgBf (p.extractLsb' 0 32) := by
  simp [decode, decodeHost]

@[simp] theorem decode_hostWord_edge : decode c (.host (hostWord 0x4#4 p)) = .edge p := by
  simp [decode, decodeHost]

@[simp] theorem decode_hostWord_endRun : decode c (.host (hostWord 0x5#4 p)) = .endRun := by
  simp [decode, decodeHost]

@[simp] theorem decode_hostWord_rdreg :
    decode c (.host (hostWord 0x6#4 p)) = .rdreg (p.extractLsb' 0 8) := by
  simp [decode, decodeHost]

@[simp] theorem decode_hostWord_reserved7 : decode c (.host (hostWord 0x7#4 p)) = .reserved7 := by
  simp [decode, decodeHost]

/-- No numbered row matches a TAG of 8 or more, which leaves the last one. -/
theorem decode_hostWord_reserved8ToF {tag : BitVec 4} (h : 8 ≤ tag.toNat) :
    decode c (.host (hostWord tag p)) = .reserved8ToF tag := by
  simp only [decode, decodeHost, hostTag_hostWord]
  split
  case h_9 => rfl
  all_goals omega

end Tags

/-- Settles O1: each TAG is its equation above, with `TAG ++ p` read as `hostWord TAG p`. -/
theorem hostWordsDecodeByTag : Obligations.HostWordsDecodeByTag := fun c p =>
  ⟨decode_hostWord_reserved0 c p, decode_hostWord_reset c p, decode_hostWord_cfgSr c p, decode_hostWord_cfgBf c p,
    decode_hostWord_edge c p, decode_hostWord_endRun c p, decode_hostWord_rdreg c p, decode_hostWord_reserved7 c p,
    fun _ h => decode_hostWord_reserved8ToF c p h⟩

end Sys2Proof
end

section
/-!
THEOREMS. `round_T` (41_flux_demodulator.md R122): one equation per line of the rule, its distance from the quotient, and
O17; when it is at most 0, which O18 and O19 turn on.
-/

namespace Sys2Proof.Machine

section Round

variable {tie : TieRule} {q : Int} {d : Nat}

/-- The remainder is under one half. -/
theorem roundT_below (h : 2 * (q % d) < d) : roundT tie q d = q / d := if_pos h

/-- The remainder is over one half. -/
theorem roundT_above (h : (d : Int) < 2 * (q % d)) : roundT tie q d = q / d + 1 :=
  (if_neg (by omega)).trans (if_pos h)

theorem roundT_tie_halfEven (h : 2 * (q % d) = d) :
    roundT .halfEven q d = if q / d % 2 = 0 then q / d else q / d + 1 :=
  (if_neg (by omega)).trans (if_neg (by omega))

theorem roundT_tie_halfUp (h : 2 * (q % d) = d) : roundT .halfUp q d = q / d + 1 :=
  (if_neg (by omega)).trans (if_neg (by omega))

/-- The rounding error is at most one half, and a tie is broken as TIE_RULE says. -/
theorem roundT_nearest (tie : TieRule) (q : Int) (hd : 0 < d) :
    -(d : Int) ≤ 2 * (q - roundT tie q d * d) ∧ 2 * (q - roundT tie q d * d) ≤ d ∧
      (2 * (q - roundT tie q d * d) = d ∨ 2 * (q - roundT tie q d * d) = -d →
        (tie = .halfEven → roundT tie q d % 2 = 0) ∧ (tie = .halfUp → q < roundT tie q d * d)) := by
  have hnonneg : 0 ≤ q % d := Int.emod_nonneg q (by omega)
  have hlt : q % d < d := Int.emod_lt_of_pos q (by omega)
  have hfloor : q - q / d * d = q % d := by rw [Int.emod_def, mul_comm]
  have hsucc : q - (q / d + 1) * d = q % d - d := by rw [add_one_mul, ← hfloor, sub_sub]
  rcases lt_trichotomy (2 * (q % d)) (d : Int) with h | h | h
  · rw [roundT_below h, hfloor]
    omega
  · cases tie with
    | halfEven =>
      rw [roundT_tie_halfEven h]
      split <;> simp only [hfloor, hsucc, reduceCtorEq, false_implies, and_true] <;> omega
    | halfUp =>
      rw [roundT_tie_halfUp h, hsucc]
      simp only [reduceCtorEq, false_implies, true_and]
      omega
  · rw [roundT_above h, hsucc]
    omega

/-- A quotient rounds to no cell exactly when it is under one half, or is one half and the tie goes to the even 0. -/
theorem roundT_le_zero_iff (hd : 0 < d) : roundT tie q d ≤ 0 ↔ 2 * q < d ∨ 2 * q = d ∧ tie = .halfEven := by
  obtain ⟨hlow, hhigh, htie⟩ := roundT_nearest tie q hd
  generalize roundT tie q d = n at *
  constructor
  · intro hn
    have hle : n * d ≤ 0 := Int.mul_nonpos_of_nonpos_of_nonneg hn (by omega)
    have heven : 2 * q = d → tie = .halfEven := fun h => by
      cases tie with
      | halfEven => rfl
      | halfUp =>
        have := (htie (by omega)).2 rfl
        omega
    have hsmall : 2 * q ≤ d := by omega
    exact hsmall.lt_or_eq.imp_right fun h => ⟨h, heven h⟩
  · intro h
    by_contra hn
    have hge : (d : Int) ≤ n * d := le_mul_of_one_le_left (by omega) (by omega)
    obtain ⟨hq, rfl⟩ : 2 * q = d ∧ tie = .halfEven := h.resolve_left (by omega)
    have heven : n % 2 = 0 := (htie (by omega)).1 rfl
    have : 2 * (d : Int) ≤ n * d := Int.mul_le_mul_of_nonneg_right (by omega) (by omega)
    omega

end Round

/-- Settles O17: the five lines of R122 are the equations of `roundT`, the rest is `roundT_nearest`. -/
theorem roundIsTheNearestInteger : Obligations.RoundIsTheNearestInteger := fun tie q _ hd =>
  ⟨roundT_below, roundT_above, fun h he => (roundT_tie_halfEven h).trans (if_pos he),
    fun h ho => (roundT_tie_halfEven h).trans (if_neg (by omega)), roundT_tie_halfUp, roundT_nearest tie q hd⟩

end Sys2Proof.Machine
end

section
/-!
THEOREMS. EDGE path by path (41_flux_demodulator.md R120 to R128): refused while unconfigured, recorded, and the gap it
closes, which is a DROP or its cells; O15, O16, O18 and O19.
-/

namespace Sys2Proof.Machine

/-! ### The paths of EDGE -/

/-- EDGE while a configuration register is 0 (41_flux_demodulator.md R128). -/
theorem execEdge_unconfigured {s : State} (t : Timestamp) (he : s.ended = false) (h : s.cfgSr = 0 ∨ s.cfgBf = 0) :
    execEdge t s = .next (setCfgErr s) :=
  (if_neg (by simp [he])).trans (if_pos h)

/-- The first accepted EDGE (41_flux_demodulator.md R121). -/
theorem execEdge_first {s : State} (t : Timestamp) (h : accepts s) (hp : s.havePrev = false) :
    execEdge t s = .next { s with havePrev := true, prev := t } := by
  obtain ⟨he, hsr, hbf⟩ := h
  exact (if_neg (by simp [he])).trans ((if_neg (not_or.2 ⟨hsr, hbf⟩)).trans (if_pos (by simp [hp])))

/-- ORDER_ERR set under a condition, as one update of the state. -/
theorem setOrderErr_if (p : Prop) [Decidable p] (s : State) :
    (if p then setOrderErr s else s) = { s with orderErr := s.orderErr || decide p } := by
  split <;> simp_all [setOrderErr]

section Gap

variable {s : State} {t : Timestamp} (h : accepts s) (hp : s.havePrev = true)
include h hp

/-- An EDGE that closes a gap of no cell (41_flux_demodulator.md R126). -/
theorem execEdge_drop (hn : cellCount s.tieRule s.cfgSr s.cfgBf s.prev t ≤ 0) :
    execEdge t s = .next (emit (.drop s.prev t) (cntInc .drop (edgeStart t s))) := by
  rw [execEdge_gap t h hp]
  unfold closeGap
  rw [setOrderErr_if]
  exact if_pos hn

/-- An EDGE that closes a gap of cells (41_flux_demodulator.md R120). -/
theorem execEdge_cells (hn : ¬cellCount s.tieRule s.cfgSr s.cfgBf s.prev t ≤ 0) :
    execEdge t s = feedCells (edgeCells t s) (edgeStart t s) := by
  obtain ⟨he, hsr, hbf⟩ := h
  rw [execEdge_gap t ⟨he, hsr, hbf⟩ hp, edgeCells, if_pos ⟨he, hsr, hbf, hp⟩]
  unfold closeGap
  rw [setOrderErr_if]
  exact if_neg hn

end Gap

/-- A gap gives no cell exactly when it is under half a cell, or half a cell with the tie to even (R123, R126). -/
theorem cellCount_le_zero_iff {tie : TieRule} {sr bf : Word32} {prev t : Timestamp} (hsr : sr ≠ 0) :
    cellCount tie sr bf prev t ≤ 0 ↔
      2 * (((t.toNat : Int) - prev.toNat) * bf.toNat) < sr.toNat ∨
        2 * (((t.toNat : Int) - prev.toNat) * bf.toNat) = sr.toNat ∧ tie = .halfEven :=
  roundT_le_zero_iff (BitVec.toNat_pos_of_ne_zero hsr)

theorem gapDelta_le_zero_iff {prev t : Timestamp} : gapDelta prev t ≤ 0 ↔ t.toNat ≤ prev.toNat := by
  unfold gapDelta
  omega

/-! ### The obligations -/

/-- Settles O15: the second path of EDGE. -/
theorem edgeBeforeConfigurationIsRefused : Obligations.EdgeBeforeConfigurationIsRefused :=
  fun _ t => execEdge_unconfigured t

/-- Settles O16: a gap's cells touch neither HAVE_PREV nor PREV (`feedCells_frame`), and a DROP neither. -/
theorem acceptedEdgeRecordsItsTime : Obligations.AcceptedEdgeRecordsItsTime := by
  refine fun s t h => ⟨execEdge_first t h, fun u (hu : execEdge t s = .next u) => ?_⟩
  cases hp : s.havePrev with
  | false =>
    rw [execEdge_first t h hp] at hu
    cases hu
    exact ⟨rfl, rfl⟩
  | true =>
    by_cases hn : cellCount s.tieRule s.cfgSr s.cfgBf s.prev t ≤ 0
    · rw [execEdge_drop h hp hn] at hu
      cases hu
      exact ⟨hp, rfl⟩
    · rw [execEdge_cells h hp hn] at hu
      have hf := feedCells_frame hu
      exact ⟨hf.havePrev.trans hp, hf.prev⟩

/-- Settles O18: `cellCount_le_zero_iff` is the condition, and under it the EDGE is `execEdge_drop`. -/
theorem gapUnderHalfACellIsDropped : Obligations.GapUnderHalfACellIsDropped := by
  intro s t h hp
  have hiff := cellCount_le_zero_iff (tie := s.tieRule) (bf := s.cfgBf) (prev := s.prev) (t := t) h.2.1
  refine ⟨hiff, fun hsmall => (execEdge_drop h hp (hiff.2 hsmall)).trans ?_⟩
  simp only [edgeStart, gapDelta_le_zero_iff, emit, cntInc]

/-- Settles O19: a gap that is not above 0 is under half a cell. -/
theorem timestampNotAbovePrevIsADrop : Obligations.TimestampNotAbovePrevIsADrop := by
  intro s t h hp hle
  have hsr : 0 < s.cfgSr.toNat := BitVec.toNat_pos_of_ne_zero h.2.1
  have hgap : ((t.toNat : Int) - s.prev.toNat) * s.cfgBf.toNat ≤ 0 :=
    Int.mul_nonpos_of_nonpos_of_nonneg (by omega) (by omega)
  refine ((gapUnderHalfACellIsDropped s t h hp).2 (.inl (by omega))).trans ?_
  simp only [hle, decide_true, Bool.or_true]

end Sys2Proof.Machine
end

section
/-!
THEOREMS. A byte and a cell keep the block's invariant (43_sector_fsm.md R199, 42_sync_and_clock.md R150), and under it a
sequence of cells answers.
-/

namespace Sys2Proof.Machine

/-! ### Sizes -/

/-- The size a valid code decodes to (30_encoding.md R96). -/
theorem decodedSizeOf_toNat {v : Byte} (h : v.toNat ≤ Config.maxSizeCode.toNat) :
    (decodedSizeOf v).toNat = 128 * 2 ^ v.toNat := by
  have hpow : 2 ^ v.toNat ≤ 2 ^ 6 := Nat.pow_le_pow_right (by omega) h
  rw [decodedSizeOf, BitVec.toNat_ofNat, Nat.shiftLeft_eq, Nat.mod_eq_of_lt (by omega)]

/-- The size of a valid code is one of the seven. -/
theorem size_mem_payloadSizes {n : Nat} (h : n ≤ Config.maxSizeCode.toNat) : 128 * 2 ^ n ∈ payloadSizes := by
  have : ∀ k < 7, 128 * 2 ^ k ∈ payloadSizes := by decide
  exact this n (Nat.lt_succ_of_le h)

theorem payloadSizes_bounds {n : Nat} (h : n ∈ payloadSizes) : 0 < n ∧ n ≤ Config.bufBytes := by
  have : ∀ k ∈ payloadSizes, 0 < k ∧ k ≤ Config.bufBytes := by decide
  exact this n h

namespace BlockInv

variable {s t : State}

/-- The length of a data field in progress fits BUF. -/
theorem dataN_le (h : BlockInv s) (hf : inDataField s.fsm = true) : s.dataN.toNat ≤ Config.bufBytes :=
  (payloadSizes_bounds (h.dataSize hf)).2

/-- A payload byte that is due is inside BUF. -/
theorem dataIdx_lt (h : BlockInv s) (hf : s.fsm = .data) : s.dataIdx.toNat < Config.bufBytes :=
  (h.dataInside hf).trans_le (h.dataN_le (by rw [hf]; rfl))

/-! ### Bytes -/

/-- Outside the fields and with the parser alive, the invariant speaks of BUF and the established ID alone. -/
theorem of_sameId (h : BlockInv s) (hbuf : t.buf = s.buf) (hid : SameId s t) (hd : inDataField t.fsm = false)
    (hc : inIdCrc t.fsm = false) (hn : t.fsm ≠ .none) : BlockInv t where
  bufCanonical := hbuf ▸ h.bufCanonical
  dataInside hf := by simp [hf, inDataField] at hd
  dataFull hf := by rcases hf with hf | hf <;> simp [hf, inDataField] at hd
  dataSize hf := by simp [hd] at hf
  idForField hf := by simp [hd, hc] at hf
  idHeld hf := by simp [hc] at hf
  idSized hv := by
    rw [hid.idSizeCode, hid.decodedSize]
    exact h.idSized (hid.idValid ▸ hv)
  idUnset hv := by
    rw [hid.idTrack, hid.idSide, hid.idSector, hid.idSizeCode, hid.decodedSize]
    exact h.idUnset (hid.idValid ▸ hv)
  chunkerHasParser _ := hn

theorem emit (h : BlockInv s) (e : Event) : BlockInv (emit e s) := { h with }

theorem cntInc (h : BlockInv s) (c : Counter) : BlockInv (cntInc c s) := by
  cases c <;> exact { h with }

/-- The parser moves to a state outside the fields. -/
theorem goto (h : BlockInv s) {f : FsmState} (hd : inDataField f = false) (hc : inIdCrc f = false) (hn : f ≠ .none) :
    BlockInv (goto f s) :=
  h.of_sameId (by simp) (by constructor <;> simp) hd hc hn

theorem terminate (h : BlockInv s) : BlockInv (Machine.goto .terminated s) := h.goto rfl rfl nofun

theorem abortParse (h : BlockInv s) (cause : Event) : BlockInv (abortParse cause s) :=
  ((h.cntInc .proto).emit cause).terminate

/-- The mark of a data field fixes its length, the established size. -/
theorem spAmData (h : BlockInv s) (hv : s.idValid = true) : BlockInv (spAmData s) := by
  obtain ⟨hcode, hsize⟩ := h.idSized hv
  have hmem : s.decodedSize.toNat ∈ payloadSizes := hsize ▸ size_mem_payloadSizes hcode
  exact { h with
    dataInside := fun _ => (payloadSizes_bounds hmem).1
    dataFull := by rintro (hf | hf) <;> cases hf
    dataSize := fun _ => hmem
    idForField := fun _ => hv
    idHeld := nofun
    chunkerHasParser := nofun }

/-- A valid size byte establishes the ID of the field. -/
theorem spIdSizeValid (h : BlockInv s) {v : Byte} (hv : v.toNat ≤ Config.maxSizeCode.toNat) :
    BlockInv (spIdSizeValid v s) where
  bufCanonical := h.bufCanonical
  dataInside := nofun
  dataFull := by rintro (hf | hf) <;> cases hf
  dataSize := nofun
  idForField _ := rfl
  idHeld _ := ⟨rfl, rfl, rfl⟩
  idSized _ := ⟨hv, decodedSizeOf_toNat hv⟩
  idUnset := nofun
  chunkerHasParser := nofun

theorem spIdCrcHi (h : BlockInv s) (hf : s.fsm = .idCrcHi) (v : Byte) : BlockInv (spIdCrcHi v s) :=
  have hc : inIdCrc s.fsm = true := by rw [hf]; rfl
  { h with
    dataInside := nofun
    dataFull := by rintro (hf | hf) <;> cases hf
    dataSize := nofun
    idForField := fun _ => h.idForField (.inr hc)
    idHeld := fun _ => h.idHeld hc
    chunkerHasParser := nofun }

theorem spDataCrcHi (h : BlockInv s) (hf : s.fsm = .dataCrcHi) (v : Byte) : BlockInv (spDataCrcHi v s) :=
  have hd : inDataField s.fsm = true := by rw [hf]; rfl
  { h with
    dataInside := nofun
    dataFull := fun _ => h.dataFull (.inl hf)
    dataSize := fun _ => h.dataSize hd
    idForField := fun _ => h.idForField (.inl hd)
    idHeld := nofun
    chunkerHasParser := nofun }

/-- A stored payload byte leaves another due, or the payload is full and its CRC is due. -/
theorem spCountByte (h : BlockInv s) (hf : s.fsm = .data) : BlockInv (spCountByte s) := by
  have hd : inDataField s.fsm = true := by rw [hf]; rfl
  have hlt := h.dataInside hf
  unfold Machine.spCountByte
  split
  · rename_i hlast
    exact { h with
      dataInside := nofun
      dataFull := fun _ => hlast
      dataSize := fun _ => h.dataSize hd
      idForField := fun _ => h.idForField (.inl hd)
      idHeld := nofun
      chunkerHasParser := nofun }
  · rename_i hmore
    exact { h with
      dataInside := fun _ => by simp only; bv_omega
      dataFull := by simp [hf] }

/-- A byte keeps the invariant. -/
theorem spStep {v : Byte} (h : BlockInv s) (hs : SpStep v s t) : BlockInv t := by
  cases hs with
  | none => exact h
  | terminated => exact h
  | amData _ _ hv => exact h.spAmData hv
  | idSizeValid _ hv => exact h.spIdSizeValid hv
  | idCrcHi hf => exact h.spIdCrcHi hf v
  | dataCrcHi hf => exact h.spDataCrcHi hf v
  | dataByte hf hi => exact spCountByte { h with bufCanonical := Memory.wf_write _ _ _ h.bufCanonical hi } hf
  | amId => exact h.goto rfl rfl nofun
  | amDataNoId => exact h.abortParse _
  | amOther => exact h.abortParse _
  | idSizeInvalid => exact h.abortParse _
  | idTrack hf => exact goto (s := { s with pTrack := v }) { h with idHeld := by simp [hf, inIdCrc] } rfl rfl nofun
  | idSide hf => exact goto (s := { s with pSide := v }) { h with idHeld := by simp [hf, inIdCrc] } rfl rfl nofun
  | idSector hf => exact goto (s := { s with pSector := v }) { h with idHeld := by simp [hf, inIdCrc] } rfl rfl nofun
  | idCrcLo =>
    simp only [spIdCrcLo]
    split
    · exact ((h.cntInc .crcErr).emit _).terminate
    · exact h.terminate
  | dataCrcLo =>
    unfold spRecord
    split
    · exact (((h.cntInc .crcErr).cntInc .record).emit _).terminate
    · exact ((h.cntInc .record).emit _).terminate

/-! ### Cells: the invariant reads nothing that the shift, a clock cell or a data cell before its delivery writes -/

theorem shiftSync (h : BlockInv s) (b : Bool) : BlockInv (shiftSync b s) := { h with }

theorem clockCell (h : BlockInv s) (b : Bool) (start : Scaled) : BlockInv (clockCell b start s) := { h with }

theorem takeBit (h : BlockInv s) (b : Bool) (n : BitVec 3) : BlockInv (takeBit b n s) := { h with }

theorem setDprev (h : BlockInv s) (b : Bool) : BlockInv (setDprev b s) := { h with }

theorem clockCheck (h : BlockInv s) (b : Bool) (stop : Scaled) : BlockInv (clockCheck b stop s) := by
  refine setDprev ?_ b
  split
  · exact (h.cntInc .clkErr).emit _
  · exact h

/-- A lock restarts the parser, whatever it was doing. -/
theorem lockStep (h : BlockInv s) (b : Bool) (stop : Scaled) : BlockInv (lockStep b stop s) :=
  h.of_sameId (by simp) (by constructor <;> simp) (by simp [inDataField]) (by simp [inIdCrc]) (by simp)

theorem dataStep {b : Bool} {stop : Scaled} (h : BlockInv s) (hs : DataStep b stop s t) : BlockInv t := by
  cases hs with
  | bit => exact (h.clockCheck b stop).takeBit b _
  | byte _ ht => exact ((h.clockCheck b stop).takeBit b 0).spStep ht

/-- A cell keeps the invariant. -/
theorem cellStep {c : BitCell} (h : BlockInv s) (hs : CellStep c s t) : BlockInv t := by
  cases hs with
  | lock => exact (h.shiftSync c.bit).lockStep ..
  | noChunker => exact h.shiftSync c.bit
  | clock => exact (h.shiftSync c.bit).clockCell ..
  | data _ _ _ ht => exact (h.shiftSync c.bit).dataStep ht

/-- Under the invariant a sequence of cells answers, and keeps it. -/
theorem feedCells (h : BlockInv s) (cs : List BitCell) : ∃ t, feedCells cs s = .next t ∧ BlockInv t :=
  feedCells_answers
    (fun c s h =>
      have hn : s.fsm = .dataCrcLo → s.dataN.toNat ≤ Config.bufBytes := fun hf => h.dataN_le (by rw [hf]; rfl)
      have ⟨t, ht⟩ := cellStep_answers c s h.dataIdx_lt hn
      ⟨t, ht, h.cellStep (cellStep_eq_next.1 ht)⟩)
    cs h

end BlockInv

end Sys2Proof.Machine
end

section
/-!
THEOREMS. O20: EDGE under the block's invariant, one path after another; its cells as CELL operations
(41_flux_demodulator.md R120, R123 to R125).
-/

namespace Sys2Proof.Machine

theorem BlockInv.edgeStart {s : State} (h : BlockInv s) (t : Timestamp) : BlockInv (edgeStart t s) := { h with }

/-- The CELL operations of a gap, the times of each written out (41_flux_demodulator.md R124, R125). -/
theorem cellInstrs_gapCells (sr bf : Word32) (prev t : Timestamp) (p : Nat) :
    cellInstrs (gapCells sr bf prev t p) =
      (List.range p).map fun i =>
        Instr.cell (decide (i = 0)) (BitVec.ofNat 96 (prev.toNat * bf.toNat + i * sr.toNat))
          (if i + 1 < p then BitVec.ofNat 96 (prev.toNat * bf.toNat + (i + 1) * sr.toNat)
          else BitVec.ofNat 96 (t.toNat * bf.toNat)) :=
  List.map_map

/-- Settles O20: `execEdge_drop` and `execEdge_cells` are the two ends of a gap, and the cells answer under the invariant
(`BlockInv.feedCells`). -/
theorem edgeRunsTheCellsOfItsGap : Obligations.EdgeRunsTheCellsOfItsGap := by
  intro s t h
  by_cases he : s.ended = true
  · exact ⟨_, execEdge_ended t he, by rw [if_pos he]; rfl⟩
  have he' : s.ended = false := Bool.eq_false_of_not_eq_true he
  by_cases hc : s.cfgSr = 0 ∨ s.cfgBf = 0
  · exact ⟨_, execEdge_unconfigured t he' hc, by rw [if_neg he, if_pos hc]; rfl⟩
  have ha : accepts s := ⟨he', not_or.1 hc⟩
  by_cases hp : s.havePrev = false
  · exact ⟨_, execEdge_first t ha hp, by rw [if_neg he, if_neg hc, if_pos hp]⟩
  have hp' : s.havePrev = true := Bool.eq_true_of_not_eq_false hp
  simp only [if_neg he, if_neg hc, if_neg hp]
  by_cases hn : cellCount s.tieRule s.cfgSr s.cfgBf s.prev t ≤ 0
  · exact ⟨_, execEdge_drop ha hp' hn, (if_pos hn).mpr rfl⟩
  · obtain ⟨u, hu, -⟩ := (h.edgeStart t).feedCells (edgeCells t s)
    refine ⟨u, (execEdge_cells ha hp' hn).trans hu, (if_neg hn).mpr ?_⟩
    rw [edgeCells, if_pos ⟨he', ha.2.1, ha.2.2, hp'⟩, ← execAll_cellInstrs, cellInstrs_gapCells] at hu
    exact hu

end Sys2Proof.Machine
end

section
/-!
THEOREMS. The sync detector and the clock validator (42_sync_and_clock.md): the shift of R151 as the statements write it, what
a frame and a short sequence of cells leave in SYNC_SR, CELL and a data cell path by path, and O24 to O28 and O31.
-/

namespace Sys2Proof.Machine

/-! ### The shift of every cell (42_sync_and_clock.md R151) -/

/-- `shiftIn` as R151 and R156 write it. -/
theorem shiftIn_eq {n : Nat} (v : BitVec n) (b : Bool) : shiftIn v b = v <<< 1 ||| (if b then 1 else 0) := by
  refine congrArg (v <<< 1 ||| ·) (BitVec.eq_of_toNat_eq ?_)
  cases b <;> simp

/-- The cell that completes the pattern is a 1, bit 0 of the pattern (42_sync_and_clock.md R158). -/
theorem bit_of_shiftIn_eq_syncPattern {v : Word16} {b : Bool} (h : shiftIn v b = Config.syncPattern) : b = true :=
  calc
    b = (shiftIn v b).getLsbD 0 := (shiftIn_bit v b 0 (by omega)).symm
    _ = true := by rw [h]; rfl

/-- One shift doubles the bound on a register. -/
theorem shiftIn_toNat_lt {n k : Nat} {v : BitVec n} (b : Bool) (h : v.toNat < 2 ^ k) :
    (shiftIn v b).toNat < 2 ^ (k + 1) := by
  rw [shiftIn, BitVec.toNat_or]
  apply Nat.or_lt_two_pow
  · rw [BitVec.toNat_shiftLeft, Nat.shiftLeft_eq, Nat.pow_succ]
    exact (Nat.mod_le _ _).trans_lt (by omega)
  · calc
      ((BitVec.ofBool b).setWidth n).toNat ≤ (BitVec.ofBool b).toNat := by
        rw [BitVec.toNat_setWidth]; exact Nat.mod_le _ _
      _ < 2 ^ 1 := (BitVec.ofBool b).isLt
      _ ≤ 2 ^ (k + 1) := Nat.pow_le_pow_right (by omega) (by omega)

/-- Cells 0 to `k` of a frame leave their window in the register. -/
theorem foldl_shiftIn_frameCells (r w : Word16) {k : Nat} (hk : k ≤ 15) :
    ((List.range (k + 1)).map (frameCell w)).foldl shiftIn r = window r w k := by
  induction k with
  | zero => exact (window_zero r w).symm
  | succ k ih =>
    rw [List.range_succ, List.map_append, List.foldl_append, ih (by omega), window_succ r w k (by omega)]
    rfl

/-- Bit 14 of the pattern is 1, so a register below `2^14` does not hold it (42_sync_and_clock.md R160). -/
theorem ne_syncPattern_of_lt {v : Word16} (h : v.toNat < 2 ^ 14) : v ≠ Config.syncPattern := by
  rintro rfl
  exact absurd h (by decide)

/-! ### A cell, path by path (42_sync_and_clock.md R150) -/

section Cell

variable {b : Bool} {start stop : Scaled} {s : State}

theorem exec_cell_lock (h : shiftIn s.syncSr b = Config.syncPattern) :
    exec (.cell b start stop) s = .next (lockStep b stop (shiftSync b s)) :=
  cellStep_eq_next.2 (.lock h)

theorem exec_cell_noChunker (h : shiftIn s.syncSr b ≠ Config.syncPattern) (ha : s.chActive = false) :
    exec (.cell b start stop) s = .next (shiftSync b s) :=
  cellStep_eq_next.2 (.noChunker h ha)

theorem exec_cell_clock (h : shiftIn s.syncSr b ≠ Config.syncPattern) (ha : s.chActive = true)
    (hp : s.chPhase = false) : exec (.cell b start stop) s = exec (.mfmClockCell b start) (shiftSync b s) :=
  cellStep_eq_next.2 (.clock h ha hp)

theorem exec_cell_data (h : shiftIn s.syncSr b ≠ Config.syncPattern) (ha : s.chActive = true)
    (hp : s.chPhase = true) : exec (.cell b start stop) s = exec (.mfmDataCell b stop) (shiftSync b s) :=
  (if_neg h).trans ((if_neg (by simp [ha])).trans (if_neg (by simp [hp])))

end Cell

/-- LOCK_STEP as one update of the state (42_sync_and_clock.md R152). -/
theorem lockStep_eq (b : Bool) (stop : Scaled) (s : State) :
    lockStep b stop s =
      { s with
        cntLock := s.cntLock + 1
        out := s.out ++ [.lock stop]
        chActive := true
        chPhase := false
        chDprev := b
        chDshift := 0
        chNbits := 0
        fsm := .addressMark } := by
  simp only [lockStep, spLock, goto, freshChunker, emit, cntInc]

/-- With no chunker, cells too few to bring a 1 to bit 14 of SYNC_SR only shift it (42_sync_and_clock.md R153, R160). -/
theorem feedCells_noChunker {cs : List BitCell} {s : State} {k : Nat} (ha : s.chActive = false)
    (hs : s.syncSr.toNat < 2 ^ k) (hk : k + cs.length ≤ 14) :
    feedCells cs s = .next { s with syncSr := (cs.map BitCell.bit).foldl shiftIn s.syncSr } := by
  induction cs generalizing s k with
  | nil => rfl
  | cons c cs ih =>
    rw [List.length_cons] at hk
    have hlt : (shiftIn s.syncSr c.bit).toNat < 2 ^ (k + 1) := shiftIn_toNat_lt c.bit hs
    have hne := ne_syncPattern_of_lt (hlt.trans_le (Nat.pow_le_pow_right (by omega) (by omega)))
    rw [feedCells_cons, cellStep_eq_next.2 (.noChunker hne ha), andThen_next]
    exact ih (s := shiftSync c.bit s) ha hlt (by omega)

/-- Cells whose last completes the pattern end in the lock of that cell. -/
theorem feedCells_concat_lock {cs : List BitCell} {c : BitCell} {s t : State} (ht : feedCells cs s = .next t)
    (h : shiftIn t.syncSr c.bit = Config.syncPattern) :
    feedCells (cs ++ [c]) s = .next (lockStep c.bit c.stop (shiftSync c.bit t)) := by
  rw [feedCells_append, ht, andThen_next, feedCells_cons, cellStep_eq_next.2 (.lock h), andThen_next, feedCells_nil]

/-! ### A data cell (42_sync_and_clock.md R155, R156) -/

/-- The clock check as one update of the state. -/
theorem clockCheck_eq (b : Bool) (stop : Scaled) (s : State) :
    clockCheck b stop s =
      { s with
        cntClkErr := if s.chClk = expectedClock s.chDprev b then s.cntClkErr else s.cntClkErr + 1
        out :=
          if s.chClk = expectedClock s.chDprev b then s.out
          else s.out ++ [.clkErr s.chClkStart stop s.chClk (expectedClock s.chDprev b)]
        chDprev := b } := by
  by_cases h : s.chClk = expectedClock s.chDprev b
  · rw [if_pos h, if_pos h]
    exact congrArg (setDprev b) (if_neg (not_not.2 h))
  · rw [if_neg h, if_neg h]
    exact congrArg (setDprev b) (if_pos h)

theorem exec_mfmDataCell_bit {b : Bool} {stop : Scaled} {s : State} (h : s.chNbits ≠ 7) :
    exec (.mfmDataCell b stop) s = .next (takeBit b (s.chNbits + 1) (clockCheck b stop s)) :=
  dataCell_eq_next.2 (.bit h)

/-- The eighth bit delivers the byte, whatever context names its row. -/
theorem exec_mfmDataCell_byte {b : Bool} {stop : Scaled} {s : State} (c : Context) (h : s.chNbits = 7) :
    exec (.mfmDataCell b stop) s =
      exec (decodeByte c (shiftIn s.chDshift b)) (takeBit b 0 (clockCheck b stop s)) := by
  rw [exec_decodeByte, ← clockCheck_chDshift b stop s]
  exact if_pos ((clockCheck_chNbits b stop s).trans h)

/-! ### The obligations -/

/-- Settles O24: each branch is its path of CELL; the 16 cells are a frame, which ends as the whole register. -/
theorem cellShiftsThenDispatches : Obligations.CellShiftsThenDispatches := by
  refine ⟨fun b start stop s => ?_, fun r => ?_⟩
  · simp only [← shiftIn_eq]
    split
    · exact exec_cell_lock ‹_›
    split
    · exact exec_cell_noChunker ‹_› ‹_›
    · have ha : s.chActive = true := Bool.eq_true_of_not_eq_false ‹_›
      split
      · exact exec_cell_clock ‹_› ha ‹_›
      · exact exec_cell_data ‹_› ha (Bool.eq_true_of_not_eq_false ‹_›)
  · have hcells : [false, true, false, false, false, true, false, false, true, false, false, false, true, false, false,
        true] = (List.range (15 + 1)).map (frameCell 0x4489) := by decide
    simp only [← shiftIn_eq]
    rw [hcells, foldl_shiftIn_frameCells r 0x4489 (by omega), window_last]

/-- Settles O25: SYNC_LOCK is `lockStep` written out, and the cell that completes the pattern is a 1. -/
theorem lockRestartsChunkerAndParser : Obligations.LockRestartsChunkerAndParser := by
  refine ⟨fun b stop s => congrArg Host.Outcome.next (lockStep_eq b stop s), fun b start stop s h => ?_⟩
  rw [← shiftIn_eq] at h
  obtain rfl := bit_of_shiftIn_eq_syncPattern h
  rw [exec_cell_lock h, lockStep_eq]
  simp only [shiftSync, h]

/-- Settles O26: a cell's second path; RESET and END discard the chunker. -/
theorem cellsBeforeTheFirstLockOnlyShift : Obligations.CellsBeforeTheFirstLockOnlyShift := by
  refine ⟨fun b start stop s ha h => ?_, rfl, fun s t h => ?_, fun s t he h => ?_⟩
  · rw [← shiftIn_eq] at h ⊢
    exact exec_cell_noChunker h ha
  · cases h
    rfl
  · have hend : exec .endRun s = .next (emit .eos _) := if_neg (by simp [he])
    cases hend.symm.trans h
    rfl

/-- Settles O27: MFM_CLOCK_CELL is `clockCell` written out; a delivered byte does not touch the phase (`SpStep.frame`). -/
theorem clockCellIsHeld : Obligations.ClockCellIsHeld := by
  refine ⟨fun _ _ _ => rfl, fun b stop s t h => ?_, fun b stop s t h => ?_⟩
  · cases h
    rfl
  · cases dataCell_eq_next.1 h with
    | bit => rfl
    | byte _ ht => exact ht.frame.chPhase

/-- Settles O28: the check is `clockCheck_eq`, then the two paths of a data cell. -/
theorem dataCellChecksAndAssembles : Obligations.DataCellChecksAndAssembles := by
  intro b stop s
  simp only [← shiftIn_eq]
  refine ⟨fun h => ?_, fun h => ?_⟩
  · rw [exec_mfmDataCell_bit h, clockCheck_eq]
    rfl
  · rw [exec_mfmDataCell_byte { fsm := s.fsm, idValid := s.idValid } h, clockCheck_eq]
    rfl

/-- Settles O31: 14 cells only shift the register (`feedCells_noChunker`), and the 15th completes the pattern. -/
theorem fifteenCellsLockAfterReset : Obligations.FifteenCellsLockAfterReset := by
  intro s hs ha
  have hshift : ∀ cs : List BitCell, cs.length ≤ 14 →
      feedCells cs s = .next { s with syncSr := (cs.map BitCell.bit).foldl shiftIn 0 } := fun cs hcs =>
    hs ▸ feedCells_noChunker (k := 0) ha (by rw [hs]; decide) (by omega)
  refine ⟨fun cs last hbits hlast => ?_, fun cs hcs => ⟨_, (execAll_cellInstrs cs s).trans (hshift cs hcs)⟩⟩
  obtain ⟨init, rfl⟩ := List.getLast?_eq_some_iff.1 hlast
  have hlen : init.length = 14 := by simpa using congrArg List.length hbits
  have hlock : shiftIn ((init.map BitCell.bit).foldl shiftIn 0) last.bit = Config.syncPattern :=
    calc
      _ = ((init ++ [last]).map BitCell.bit).foldl shiftIn 0 := by rw [List.map_append, List.foldl_append]; rfl
      _ = Config.syncPattern := by rw [hbits]; decide
  exact ⟨_, (execAll_cellInstrs _ s).trans (feedCells_concat_lock (hshift init hlen.le) hlock), hlock, rfl, rfl, rfl⟩

end Sys2Proof.Machine
end

section
/-!
THEOREMS. The sector parser (43_sector_fsm.md): the abort of a parse and the CRC bytes as updates of the state, a stored
payload byte, the row of the transition table a byte takes, and O35 to O39, O41, O42 and O44.
-/

namespace Sys2Proof.Machine

/-! ### The rules as updates of the state -/

/-- A protocol error as one update of the state (60_exceptions.md R287). -/
theorem abortParse_eq (cause : Event) (s : State) :
    abortParse cause s =
      { s with cntProto := s.cntProto + 1, out := s.out ++ [cause], fsm := .terminated } := by
  simp only [abortParse, goto, emit, cntInc]

/-- The size of a code as R96 writes it, a product. -/
theorem decodedSizeOf_eq (c : Byte) : decodedSizeOf c = BitVec.ofNat 14 (128 * 2 ^ c.toNat) :=
  congrArg (BitVec.ofNat 14) (Nat.shiftLeft_eq ..)

theorem spIdCrcLo_match {v : Byte} {s : State} (h : foundCrc s.crcHi v = computedIdCrc s) :
    spIdCrcLo v s = goto .terminated s := if_neg (not_not.2 h)

theorem spIdCrcLo_mismatch {v : Byte} {s : State} (h : foundCrc s.crcHi v ≠ computedIdCrc s) :
    spIdCrcLo v s =
      goto .terminated (emit (.idCrcErr (foundCrc s.crcHi v) (computedIdCrc s)) (cntInc .crcErr s)) := if_pos h

/-- The count of a payload byte, stored in BUF, as one update of the state (43_sector_fsm.md R194). -/
theorem spCountByte_stored {s : State} (h : s.fsm = .data) (m : List Host.Cell) :
    spCountByte { s with buf := m } =
      { s with
        buf := m
        dataIdx := s.dataIdx + 1
        fsm := if s.dataIdx + 1 = s.dataN then .dataCrcHi else .data } := by
  unfold spCountByte
  by_cases hlast : s.dataIdx + 1 = s.dataN
  · rw [if_pos hlast, if_pos hlast]
    rfl
  · rw [if_neg hlast, if_neg hlast, h]

/-- The end of a data field as one update of the state (43_sector_fsm.md R196). -/
theorem spRecord_eq (payload : List Byte) (found : Word16) (s : State) :
    spRecord payload found s =
      { s with
        cntCrcErr := if found = crc16 (dataCheckInput payload) then s.cntCrcErr else s.cntCrcErr + 1
        cntRec := s.cntRec + 1
        out := s.out ++ [recordOf payload found s]
        fsm := .terminated } := by
  by_cases h : found = crc16 (dataCheckInput payload)
  · rw [if_pos h, spRecord, if_neg (not_not.2 h)]
    simp only [goto, emit, cntInc]
  · rw [if_neg h, spRecord, if_pos h]
    simp only [goto, emit, cntInc]

/-! ### The row of the transition table (43_sector_fsm.md R199) -/

/-- A byte emits at most one event. -/
theorem spRow_events_length (s : State) (v : Byte) : (spRow s v).2.length ≤ 1 := by
  cases h : s.fsm <;> simp only [spRow, h]
  case addressMark => split_ifs <;> simp
  case idSize => split_ifs <;> simp
  case idCrcLo => split_ifs <;> simp
  all_goals simp

/-- A byte takes its row, with a payload byte still due in DATA. -/
theorem SpStep.takes_row {v : Byte} {s t : State} (h : SpStep v s t)
    (hdue : s.fsm = .data → s.dataIdx.toNat < s.dataN.toNat) :
    t.fsm = (spRow s v).1 ∧ t.out = s.out ++ (spRow s v).2 := by
  cases h with
  | none h => simp [spRow, h, spNone]
  | terminated h => simp [spRow, h, spTerminated]
  | amId h hv => subst hv; simp [spRow, h, spAmId, Config.idMark]
  | amData h hv hid => subst hv; simp [spRow, h, hid, spAmData, Config.dataMark]
  | amDataNoId h hv hid => subst hv; simp [spRow, h, hid, spAmDataNoId, Config.dataMark]
  | amOther h hi hd =>
    have hi : v ≠ 0xFE#8 := hi
    have hd : v ≠ 0xFB#8 := hd
    simp [spRow, h, hi, hd, spAmOther]
  | idTrack h => simp [spRow, h, spIdTrack]
  | idSide h => simp [spRow, h, spIdSide]
  | idSector h => simp [spRow, h, spIdSector]
  | idSizeValid h hv =>
    have hv : v.toNat ≤ 6 := hv
    simp [spRow, h, hv, spIdSizeValid]
  | idSizeInvalid h hv =>
    have hv : ¬v.toNat ≤ 6 := Nat.not_le.2 hv
    simp [spRow, h, hv, spIdSizeInvalid]
  | idCrcHi h => simp [spRow, h, spIdCrcHi]
  | idCrcLo h =>
    simp only [spRow, h]
    split
    · rw [spIdCrcLo_match ‹_›]; simp
    · rw [spIdCrcLo_mismatch ‹_›]; simp [foundCrc]
  | dataByte h =>
    have hlt := hdue h
    have hlast : s.dataIdx + 1 = s.dataN ↔ ¬s.dataIdx.toNat + 1 < s.dataN.toNat := by bv_omega
    rw [spCountByte_stored h]
    simp only [spRow, h, hlast, ite_not, List.append_nil, and_self]
  | dataCrcHi h => simp [spRow, h, spDataCrcHi]
  | dataCrcLo h => rw [spRecord_eq]; simp [spRow, h, foundCrc]

/-- Under the invariant every byte answers. -/
theorem BlockInv.spByte_answers {s : State} (h : BlockInv s) (v : Byte) : ∃ t, spByte v s = .next t :=
  Machine.spByte_answers v s h.dataIdx_lt fun hf => h.dataN_le (by rw [hf]; rfl)

/-! ### The obligations -/

/-- Settles O35: each row at the address mark is its own rule; two of them are aborts (`abortParse_eq`). -/
theorem addressMarkBytes : Obligations.AddressMarkBytes := by
  refine fun s h => ⟨if_pos h, fun hid => if_pos ⟨h, hid⟩, fun hid => ?_, fun v hi hd => ?_⟩
  · exact (if_pos ⟨h, by simp [hid]⟩).trans (congrArg Host.Outcome.next (abortParse_eq .dataNoId s))
  · exact (if_pos ⟨h, hi, hd⟩).trans (congrArg Host.Outcome.next (abortParse_eq (.badAm v) s))

/-- Settles O36: in its own state each row is its own rule. -/
theorem idFieldBytes : Obligations.IdFieldBytes := fun _ _ =>
  ⟨fun h => if_pos h, fun h => if_pos h, fun h => if_pos h, fun h => if_pos h⟩

/-- Settles O37: the two rows of the size byte; the size is a product (`decodedSizeOf_eq`), the other row an abort. -/
theorem sizeByteEstablishesOrRejects : Obligations.SizeByteEstablishesOrRejects := by
  refine ⟨fun s v h => ⟨fun hv => ?_, fun hv => ?_⟩, by decide⟩
  · rw [← decodedSizeOf_eq]
    exact if_pos ⟨h, hv⟩
  · exact (if_pos ⟨h, hv⟩).trans (congrArg Host.Outcome.next (abortParse_eq (.badSize v) s))

/-- Settles O38: the two outcomes of the comparison. -/
theorem idCrcIsCheckedAgainstTheId : Obligations.IdCrcIsCheckedAgainstTheId := by
  intro s v h
  have hexec : exec (.idCrcLo v) s = .next (spIdCrcLo v s) := if_pos h
  refine ⟨fun heq => ?_, fun hne => ?_⟩
  · rw [hexec, spIdCrcLo_match heq]
    rfl
  · rw [hexec, spIdCrcLo_mismatch hne]
    simp only [goto, emit, cntInc]
    rfl

/-- Settles O39: the write is inside BUF, so the laws of the buffer say what it reads; the invariant bounds DATA_N. -/
theorem dataByteIsStored : Obligations.DataByteIsStored := by
  refine ⟨fun s v h hi hwf => ?_, fun s hs h => ⟨hs.dataInside h, hs.dataN_le (by rw [h]; rfl)⟩⟩
  have hstep := spByte_eq_next.2 (SpStep.dataByte (v := v) h hi)
  refine ⟨_, (execDataByte_eq v s).trans hstep, ?_⟩
  rw [spCountByte_stored h]
  exact ⟨rfl, Memory.read_write_same _ _ v hwf.1, fun j hj => Memory.read_write_ne _ _ j v hj,
    Memory.wf_write _ _ v hwf hi⟩

/-- Settles O41: the payload is inside BUF, so the low CRC byte ends the field (`spRecord_eq`). -/
theorem dataCrcBytesYieldTheRecord : Obligations.DataCrcBytesYieldTheRecord := by
  refine fun s v => ⟨fun h => if_pos h, fun h hn => ?_⟩
  have hstep := spByte_eq_next.2 (SpStep.dataCrcLo (v := v) h hn)
  refine ((execDataCrcLo_eq v s).trans hstep).trans ?_
  rw [spRecord_eq]
  rfl

/-- Settles O42: at rest a byte's rule is the identity, and a live chunker has a parser. -/
theorem bytesAtRestChangeNothing : Obligations.BytesAtRestChangeNothing :=
  ⟨fun _ _ => ⟨fun h => if_pos h, fun h => if_pos h⟩, fun _ hs h =>
    Bool.eq_false_of_not_eq_true fun ha => hs.chunkerHasParser ha h⟩

/-- Settles O44: under the invariant the byte answers (`BlockInv.spByte_answers`), and takes its row (`SpStep.takes_row`). -/
theorem parserTransitionTable : Obligations.ParserTransitionTable := by
  refine ⟨fun s v hs => ?_, fun s b stop => ⟨_, rfl, by simp, by simp⟩⟩
  obtain ⟨u, hu⟩ := hs.spByte_answers v
  obtain ⟨hfsm, hout⟩ := (spByte_eq_next.1 hu).takes_row hs.dataInside
  exact ⟨u, (exec_decodeByte _ v s).trans hu, hfsm, hout, spRow_events_length s v⟩

end Sys2Proof.Machine
end

section
/-!
THEOREMS. The CRC checker (44_crc16.md): CRC16 as a fold of bytes and of bits, with its constants (O51); a register followed by
its own two bytes clears (O49); the double-width form is the step on a register the byte was XORed into (O48).
-/

namespace Sys2Proof.Machine

/-! ### CRC16 as a fold of bytes and of bits (R231) -/

@[simp] theorem crc16_nil : crc16 [] = 0xFFFF := rfl

theorem crc16_concat (m : List Byte) (x : Byte) : crc16 (m ++ [x]) = crcStep (crc16 m) x := List.foldl_concat ..

theorem crc16_append_eq_foldl_bits (m n : List Byte) :
    crc16 (m ++ n) = (n.flatMap dataBits).foldl crcBit (crc16 m) :=
  List.foldl_append.trans List.foldl_flatMap.symm

theorem crc16_eq_foldl_bits (m : List Byte) : crc16 m = (m.flatMap dataBits).foldl crcBit 0xFFFF :=
  crc16_append_eq_foldl_bits [] m

/-- Settles O51: CRC16 is a left fold (`crc16_concat`), and each constant is its bits run through the register. -/
theorem crcConstants : Obligations.CrcConstants := by
  refine ⟨crc16_nil, crc16_concat, ?_⟩
  simp [crc16_eq_foldl_bits, dataBits, crcBit, Config.crcPoly]

/-! ### The residue (R235) -/

/-- The 16 bits of two bytes, in time order, are the bits of the word whose high byte is the first. -/
theorem dataBits_append_getD (hi lo : Byte) {i : Nat} (h : i < 16) :
    (dataBits hi ++ dataBits lo).getD i false = (hi ++ lo : Word16).getLsbD (15 - i) := by
  refine Eq.trans ?_ BitVec.getLsbD_append.symm
  interval_cases i <;> rfl

theorem Word16.eq_iff_getLsbD_sub (c w : Word16) : c = w ↔ ∀ i < 16, c.getLsbD (15 - i) = w.getLsbD (15 - i) := by
  refine ⟨fun h _ _ => h ▸ rfl, fun h => BitVec.eq_of_getLsbD_eq fun i hi => ?_⟩
  have := h (15 - i) (by omega)
  rwa [show 15 - (15 - i) = i by omega] at this

/-- Two bytes clear a register exactly when they are its value, high byte first. -/
theorem foldl_crcBit_pair_eq_zero (c : Word16) (hi lo : Byte) :
    (dataBits hi ++ dataBits lo).foldl crcBit c = 0 ↔ hi ++ lo = c := by
  rw [foldl_crcBit_eq_zero _ _ (by simp [dataBits]), eq_comm, Word16.eq_iff_getLsbD_sub]
  exact forall₂_congr fun i h => by rw [dataBits_append_getD hi lo h]

theorem crc16_append_pair_eq_zero (m : List Byte) (hi lo : Byte) :
    crc16 (m ++ [hi, lo]) = 0 ↔ hi ++ lo = crc16 m := by
  rw [crc16_append_eq_foldl_bits]
  exact foldl_crcBit_pair_eq_zero _ hi lo

/-- The ID check input of R235's example. -/
theorem crc16_idExample : crc16 [0xA1, 0xA1, 0xA1, 0xFE, 5, 0, 3, 2] = 0x1048 := by
  simp [crc16_eq_foldl_bits, dataBits, crcBit, Config.crcPoly]

/-- Settles O49: `crc16_append_pair_eq_zero`, for the register's own bytes, for any two, and for the example's. -/
theorem crcResidueIsZero : Obligations.CrcResidueIsZero := by
  refine ⟨fun m => (crc16_append_pair_eq_zero m _ _).2 ?_, crc16_append_pair_eq_zero, ?_⟩
  · exact (BitVec.extractLsb'_append_extractLsb'_eq_extractLsb' rfl).trans BitVec.extractLsb'_eq_self
  · exact (crc16_append_pair_eq_zero _ 0x10 0x48).2 crc16_idExample.symm

/-! ### The double-width form (R232) -/

/-- A step of the double-width form keeps bit 16 clear, and is a zero bit into the low 16 bits. -/
theorem crcWideBit_setWidth (c : Word16) : crcWideBit (c.setWidth 17) = (crcBit c false).setWidth 17 := by
  have htop : (c.setWidth 17 <<< 1).getLsbD 16 = c.getLsbD 15 := by simp
  rw [crcWideBit, crcBit, htop, Bool.xor_false]
  apply BitVec.eq_of_getLsbD_eq
  intro i hi
  split
  case isTrue h => interval_cases i <;> simp_all [Config.crcPoly]
  case isFalse h => interval_cases i <;> simp_all

theorem repeat_crcWideBit_setWidth (n : Nat) (c : Word16) :
    Nat.repeat crcWideBit n (c.setWidth 17) = ((List.replicate n false).foldl crcBit c).setWidth 17 := by
  induction n with
  | zero => rfl
  | succ n ih =>
    rw [List.replicate_succ', List.foldl_concat, ← crcWideBit_setWidth, ← ih]
    rfl

/-- A byte clears the register that holds it in its high byte. -/
theorem crcStep_shiftLeft_self (x : Byte) : crcStep (x.setWidth 16 <<< 8) x = 0 := by
  refine (foldl_crcBit_eq_zero _ _ (by simp [dataBits])).2 fun i h => ?_
  interval_cases i <;> simp [dataBits]

/-- Feeding a byte is XORing it into the high byte of the register and feeding eight zero bits: the two differ by the run that
feeds the byte to itself. -/
theorem crcStep_eq_foldl_zeros (c : Word16) (x : Byte) :
    crcStep c x = (List.replicate 8 false).foldl crcBit (c ^^^ x.setWidth 16 <<< 8) := by
  have hzeros : List.replicate 8 false = List.zipWith xor (dataBits x) (dataBits x) := by simp [dataBits]
  have hself : (dataBits x).foldl crcBit (x.setWidth 16 <<< 8) = 0 := crcStep_shiftLeft_self x
  rw [hzeros, foldl_crcBit_xor _ _ _ _ rfl, hself]
  exact BitVec.xor_zero.symm

theorem repeat_crcWideBit_eq_crcStep (c : Word16) (x : Byte) :
    Nat.repeat crcWideBit 8 (c.setWidth 17 ^^^ x.setWidth 17 <<< 8) = (crcStep c x).setWidth 17 := by
  have hseed : c.setWidth 17 ^^^ x.setWidth 17 <<< 8 = (c ^^^ x.setWidth 16 <<< 8).setWidth 17 := by
    apply BitVec.eq_of_getLsbD_eq
    intro i hi
    interval_cases i <;> simp
  rw [hseed, repeat_crcWideBit_setWidth, crcStep_eq_foldl_zeros]

/-- Settles O48: the double-width register ends as the step's result with bit 16 clear (`repeat_crcWideBit_eq_crcStep`). -/
theorem crcWideFormAgrees : Obligations.CrcWideFormAgrees := by
  intro c x
  rw [crcStepWide, repeat_crcWideBit_eq_crcStep]
  simp

end Sys2Proof.Machine
end

section
/-!
THEOREMS. The host control transactions (45_host_control.md): CFG_SR, CFG_BF and END while the run goes on and after it, the
EDGE that follows a write, RDREG over the register file, RESET and the reserved words; O9, O10, O11, O13 and O14.
-/

namespace Sys2Proof.Machine

/-! ### The configuration registers and END, before and after END -/

section Running

variable {s : State} (he : s.ended = false)
include he

/-- CFG_SR while ENDED = 0 (45_host_control.md R252). -/
theorem execCfgSr_running (value : Word32) : execCfgSr value s = .next { s with cfgSr := value } :=
  if_neg (by simp [he])

/-- CFG_BF while ENDED = 0 (45_host_control.md R253). -/
theorem execCfgBf_running (value : Word32) : execCfgBf value s = .next { s with cfgBf := value } :=
  if_neg (by simp [he])

/-- The END that closes the run (45_host_control.md R254). -/
theorem execEndRun_running :
    execEndRun s =
      .next
        { s with
          chActive := false
          fsm := if s.fsm = .none then .none else .terminated
          ended := true
          out := s.out ++ [.eos] } :=
  if_neg (by simp [he])

end Running

section Ended

variable {s : State} (he : s.ended = true)
include he

/-- CFG_SR after END (45_host_control.md R257). -/
theorem execCfgSr_ended (value : Word32) : execCfgSr value s = .next (setCmdErr s) := if_pos he

/-- CFG_BF after END (45_host_control.md R257). -/
theorem execCfgBf_ended (value : Word32) : execCfgBf value s = .next (setCmdErr s) := if_pos he

/-- A second END (45_host_control.md R254). -/
theorem execEndRun_ended : execEndRun s = .next (setCmdErr s) := if_pos he

end Ended

/-! ### The EDGE after a write -/

/-- An operation that answers hands its state to the one after it. -/
theorem execAll_pair_of_next {i : Instr} {s u : State} (h : exec i s = .next u) (j : Instr) :
    execAll [i, j] s = exec j u := by
  simp only [execAll, h, andThen_next, andThen_next_right]

/-- An EDGE that closes a gap, its two ends in one equation: a DROP, or the cells as CELL operations
(41_flux_demodulator.md R120, R126). -/
theorem execEdge_closesGap {s : State} (t : Timestamp) (h : accepts s) (hp : s.havePrev = true) :
    execEdge t s =
      if cellCount s.tieRule s.cfgSr s.cfgBf s.prev t ≤ 0 then
        .next
          { s with
            prev := t
            orderErr := s.orderErr || decide (t.toNat ≤ s.prev.toNat)
            cntDrop := s.cntDrop + 1
            out := s.out ++ [.drop s.prev t] }
      else
        execAll
          (cellInstrs (gapCells s.cfgSr s.cfgBf s.prev t (cellCount s.tieRule s.cfgSr s.cfgBf s.prev t).toNat))
          { s with prev := t, orderErr := s.orderErr || decide (t.toNat ≤ s.prev.toNat) } := by
  split
  · rw [execEdge_drop h hp ‹_›]
    simp only [edgeStart, gapDelta_le_zero_iff, emit, cntInc]
  · obtain ⟨he, hsr, hbf⟩ := h
    rw [execEdge_cells ⟨he, hsr, hbf⟩ hp ‹_›, execAll_cellInstrs, edgeCells, if_pos ⟨he, hsr, hbf, hp⟩]
    simp only [edgeStart, gapDelta_le_zero_iff]

/-! ### RDREG -/

theorem registerFile_length (s : State) : (registerFile s).length = 15 := rfl

/-- The index space RDREG reads is the register file (10_state.md R42). -/
theorem readRegister_eq (index : Byte) (s : State) : readRegister index s = (registerFile s)[index.toNat]? := by
  unfold readRegister
  generalize index.toNat = i
  match i with
  | 0 | 1 | 2 | 3 | 4 | 5 | 6 | 7 | 8 | 9 | 10 | 11 | 12 | 13 | 14 => rfl
  | n + 15 => exact (List.getElem?_eq_none (Nat.le_add_left 15 n)).symm

/-- RDREG of any index in any state: one REG_VALUE, 0 and CMD_ERR where the register file ends (45_host_control.md R255). -/
theorem execRdreg_eq (index : Byte) (s : State) :
    execRdreg index s =
      .next
        { s with
          cmdErr := s.cmdErr || decide (0x0F ≤ index.toNat)
          out := s.out ++ [.regValue index ((registerFile s).getD index.toNat 0)] } := by
  unfold execRdreg
  rw [readRegister_eq, List.getD_eq_getElem?_getD]
  by_cases hr : 0x0F ≤ index.toNat
  · rw [List.getElem?_eq_none ((registerFile_length s).trans_le hr)]
    simp only [emit, setCmdErr, hr, decide_true, Bool.or_true, Option.getD_none]
  · rw [List.getElem?_eq_getElem ((not_le.1 hr).trans_eq (registerFile_length s).symm)]
    simp only [emit, hr, decide_false, Bool.or_false, Option.getD_some]

/-! ### RESET and the reserved words -/

theorem atResetValues_reset : AtResetValues State.reset := by
  unfold AtResetValues
  decide

/-- RESET gives every element its reset value and retracts no event (45_host_control.md R251, 70_reset_and_hazards.md
R320): what power-on keeps, no clause of `AtResetValues` reads. -/
theorem execReset_atResetValues (s : State) : ∃ t, execReset s = .next t ∧ AtResetValues t ∧ t.out = s.out :=
  ⟨powerOn s, rfl, atResetValues_reset, rfl⟩

/-- A word with TAG 0 or 7 to F, read in any context, sets CMD_ERR (45_host_control.md R256). -/
theorem exec_decode_reservedTag (c : Context) {tag : BitVec 4} (p : BitVec 64) (s : State)
    (h : tag = 0x0#4 ∨ 7 ≤ tag.toNat) : exec (decode c (.host (hostWord tag p))) s = .next (setCmdErr s) := by
  rcases h with rfl | h
  · rw [decode_hostWord_reserved0]
    rfl
  · rcases h.eq_or_lt with h7 | h8
    · obtain rfl : 0x7#4 = tag := BitVec.eq_of_toNat_eq h7
      rw [decode_hostWord_reserved7]
      rfl
    · rw [decode_hostWord_reserved8ToF c p h8]
      rfl

/-! ### The obligations -/

/-- Settles O9: after a write the EDGE is refused (`execEdge_unconfigured`) or closes its gap in the written state
(`execEdge_closesGap`). -/
theorem cfgWritesItsRegisterAlone : Obligations.CfgWritesItsRegisterAlone := by
  intro s value c p
  refine ⟨fun he => ?_, fun he => ⟨execCfgSr_ended he value, execCfgBf_ended he value⟩,
    decode_hostWord_cfgSr c p, decode_hostWord_cfgBf c p⟩
  have hsr : ∀ v, exec (.cfgSr v) s = .next { s with cfgSr := v } := execCfgSr_running he
  have hbf : ∀ v, exec (.cfgBf v) s = .next { s with cfgBf := v } := execCfgBf_running he
  refine ⟨hsr value, hbf value, by simp [configured], by simp [configured], fun t => ⟨?_, ?_, fun hv hp => ⟨?_, ?_⟩⟩⟩
  · exact (execAll_pair_of_next (hsr 0) _).trans (execEdge_unconfigured t he (.inl rfl))
  · exact (execAll_pair_of_next (hbf 0) _).trans (execEdge_unconfigured t he (.inr rfl))
  · exact fun h0 => (execAll_pair_of_next (hsr value) _).trans (execEdge_closesGap t ⟨he, hv, h0⟩ hp)
  · exact fun h0 => (execAll_pair_of_next (hbf value) _).trans (execEdge_closesGap t ⟨he, h0, hv⟩ hp)

/-- Settles O10: the two paths of END, and the row of its TAG. -/
theorem endClosesTheRun : Obligations.EndClosesTheRun :=
  fun _ => ⟨execEndRun_running, execEndRun_ended, decode_hostWord_endRun⟩

/-- Settles O11: `execRdreg_eq` on either side of the end of the register file. -/
theorem rdregEmitsOneRegisterValue : Obligations.RdregEmitsOneRegisterValue := by
  intro s index
  have hlen := registerFile_length s
  refine ⟨fun value h => (execRdreg_eq index s).trans ?_, fun h => ?_, fun h => (execRdreg_eq index s).trans ?_,
    fun c p => decode_hostWord_rdreg c p⟩
  · have hin : ¬0x0F ≤ index.toNat := not_le.2 (hlen ▸ (List.getElem?_eq_some_iff.1 h).1)
    simp only [hin, decide_false, Bool.or_false, List.getD_eq_getElem?_getD, h, Option.getD_some]
  · exact ⟨_, List.getElem?_eq_getElem (by omega)⟩
  · simp only [h, decide_true, Bool.or_true, List.getD_eq_default _ _ (hlen.trans_le h)]

/-- Settles O13: each reserved operation is `setCmdErr`, and `exec_decode_reservedTag` reads the words. -/
theorem reservedWordsSetCmdErr : Obligations.ReservedWordsSetCmdErr := fun s =>
  ⟨rfl, rfl, fun _ => rfl, fun c _ p => exec_decode_reservedTag c p s⟩

/-- Settles O14: the four refusals are the paths after END; RDREG, RESET and the reserved words do not look at ENDED. -/
theorem afterEndOnlyCmdErr : Obligations.AfterEndOnlyCmdErr := fun s he =>
  ⟨fun t => execEdge_ended t he, execCfgSr_ended he, execCfgBf_ended he, execEndRun_ended he,
    fun index => execRdreg_eq index s, execReset_atResetValues s, rfl, rfl, fun _ => rfl⟩

end Sys2Proof.Machine
end

section
/-!
THEOREMS. Reset (70_reset_and_hazards.md): the values of R320 at power-on and after RESET; O7.
-/

namespace Sys2Proof.Machine

/-- Settles O7: power-on is `atResetValues_reset`, and RESET in any state is `execReset_atResetValues`. -/
theorem resetGivesEveryElementItsValue : Obligations.ResetGivesEveryElementItsValue :=
  ⟨atResetValues_reset, execReset_atResetValues⟩

end Sys2Proof.Machine
end

section
/-!
THEOREMS. Encodings (30_encoding.md): an operation written as an item and read again, a host word read and written again, and
the row every item is read as; O2 to O5.
-/

namespace Sys2Proof

/-! ### Host words -/

/-- An operand widened to PAYLOAD and taken from its low bits again. -/
theorem extractLsb'_setWidth_payload {n : Nat} (v : BitVec n) (h : n ≤ 64) : (v.setWidth 64).extractLsb' 0 n = v := by
  rw [← BitVec.setWidth_eq_extractLsb' h, BitVec.setWidth_setWidth_of_le v h, BitVec.setWidth_eq]

/-- The low bits of PAYLOAD, widened again: the other bits are cleared. -/
theorem setWidth_extractLsb'_payload (p : BitVec 64) (n : Nat) :
    (p.extractLsb' 0 n).setWidth 64 = p &&& BitVec.ofNat 64 (2 ^ n - 1) := by
  apply BitVec.eq_of_getLsbD_eq
  intro i hi
  simp only [BitVec.getLsbD_setWidth, BitVec.getLsbD_extractLsb', BitVec.getLsbD_and, BitVec.getLsbD_ofNat,
    Nat.testBit_two_pow_sub_one, hi, decide_true, Bool.true_and, Nat.zero_add, Bool.and_comm]

/-- A TAG is one of the eight that name a row of their own, or 8 to F (30_encoding.md R81). -/
theorem tag_cases (tag : BitVec 4) :
    tag = 0#4 ∨ tag = 1#4 ∨ tag = 2#4 ∨ tag = 3#4 ∨ tag = 4#4 ∨ tag = 5#4 ∨ tag = 6#4 ∨ tag = 7#4 ∨ 8 ≤ tag.toNat := by
  revert tag
  decide

/-- The TAGs 8 to F use no bit of PAYLOAD (30_encoding.md R82). -/
theorem usedBits_reserved {tag : BitVec 4} (h : 8 ≤ tag.toNat) : Machine.usedBits tag = hostWord 0xF 0 := by
  unfold Machine.usedBits
  split
  case h_5 => rfl
  all_goals omega

/-- A word masked by its whole TAG and a part of its PAYLOAD. -/
theorem hostWord_and (tag : BitVec 4) (p m : BitVec 64) : hostWord tag p &&& hostWord 0xF m = hostWord tag (p &&& m) :=
  BitVec.and_append.trans (congrArg (hostWord · (p &&& m)) BitVec.and_allOnes)

/-- Reading a host word and writing it again keeps its TAG and the bits of PAYLOAD its transaction uses. -/
theorem encode_decode_hostWord (c : Context) (tag : BitVec 4) (p : BitVec 64) :
    encode (decode c (.host (hostWord tag p))) = .host (hostWord tag p &&& Machine.usedBits tag) := by
  have keeps {q m : BitVec 64} (hused : Machine.usedBits tag = hostWord 0xF m) (hq : q = p &&& m) :
      Item.host (hostWord tag q) = .host (hostWord tag p &&& Machine.usedBits tag) := by
    rw [hused, hostWord_and, hq]
  have none : (0 : BitVec 64) = p &&& 0 := BitVec.and_zero.symm
  rcases tag_cases tag with rfl | rfl | rfl | rfl | rfl | rfl | rfl | rfl | h
  · rw [decode_hostWord_reserved0]; exact keeps rfl none
  · rw [decode_hostWord_reset]; exact keeps rfl none
  · rw [decode_hostWord_cfgSr]; exact keeps rfl (setWidth_extractLsb'_payload p 32)
  · rw [decode_hostWord_cfgBf]; exact keeps rfl (setWidth_extractLsb'_payload p 32)
  · rw [decode_hostWord_edge]; exact keeps rfl BitVec.and_allOnes.symm
  · rw [decode_hostWord_endRun]; exact keeps rfl none
  · rw [decode_hostWord_rdreg]; exact keeps rfl (setWidth_extractLsb'_payload p 8)
  · rw [decode_hostWord_reserved7]; exact keeps rfl none
  · rw [decode_hostWord_reserved8ToF c p h]; exact keeps (usedBits_reserved h) none

/-- A host word is read as a well-formed operation of the host interface. -/
theorem decode_host_wf_fits (c : Context) (w : HostWord) :
    (decode c (.host w)).wf = true ∧ (decode c (.host w)).fits c = true := by
  rw [← hostWord_fields w]
  generalize hostPayload w = p
  rcases tag_cases (hostTag w) with h | h | h | h | h | h | h | h | h
  case inr.inr.inr.inr.inr.inr.inr.inr =>
    rw [decode_hostWord_reserved8ToF c p h]
    exact ⟨decide_eq_true h, rfl⟩
  all_goals
    rw [h]
    simp [Instr.wf, Instr.fits]

/-! ### Bytes (43_sector_fsm.md R199) -/

/-- A byte is read as a well-formed row whose condition holds. -/
theorem decodeByte_wf_fits (c : Context) (v : Byte) : (decodeByte c v).wf = true ∧ (decodeByte c v).fits c = true := by
  obtain ⟨fsm, idValid⟩ := c
  cases fsm
  case addressMark =>
    simp only [decodeByte]
    split_ifs <;> simp_all [Instr.wf, Instr.fits]
  case idSize =>
    simp only [decodeByte]
    split_ifs <;> simp_all [Instr.wf, Instr.fits]
  all_goals exact ⟨rfl, rfl⟩

theorem dataMark_ne_idMark : Config.dataMark ≠ Config.idMark := by decide

/-- A well-formed byte row whose condition holds is the row its byte is read as: the condition names the state in which
`decodeByte` reads that row. -/
theorem decodeByte_of_fits {i : Instr} {c : Context} {v : Byte} (he : encode i = byteItem v) (hwf : i.wf = true)
    (hfits : i.fits c = true) : decodeByte c v = i := by
  obtain ⟨fsm, idValid⟩ := c
  cases i with
  | amData | amDataNoId =>
    obtain rfl : Config.dataMark = v := by simpa [encode, byteItem] using he
    simp_all [Instr.fits, decodeByte, dataMark_ne_idMark]
  | _ => simp_all [encode, byteItem, Instr.wf, Instr.fits, decodeByte]

/-! ### The obligations -/

/-- Settles O3: a host operand is taken from the bits it was widened into, a byte row is `decodeByte_of_fits`, and the other
items carry their operands as they are. -/
theorem decodeOfEncodeIsTheOperation : Obligations.DecodeOfEncodeIsTheOperation := by
  intro i c hwf hfits
  cases i with
  | reset => exact decode_hostWord_reset c 0
  | cfgSr value =>
    exact (decode_hostWord_cfgSr c _).trans (congrArg Instr.cfgSr (extractLsb'_setWidth_payload value (by omega)))
  | cfgBf value =>
    exact (decode_hostWord_cfgBf c _).trans (congrArg Instr.cfgBf (extractLsb'_setWidth_payload value (by omega)))
  | edge t => exact decode_hostWord_edge c t
  | endRun => exact decode_hostWord_endRun c 0
  | rdreg index =>
    exact (decode_hostWord_rdreg c _).trans (congrArg Instr.rdreg (extractLsb'_setWidth_payload index (by omega)))
  | reserved0 => exact decode_hostWord_reserved0 c 0
  | reserved7 => exact decode_hostWord_reserved7 c 0
  | reserved8ToF tag => exact decode_hostWord_reserved8ToF c 0 (of_decide_eq_true hwf)
  | cell | syncLock | mfmClockCell | mfmDataCell | byteFrame | crcStep => rfl
  | _ => exact decodeByte_of_fits rfl hwf hfits

/-- Settles O4: a word is its TAG above its PAYLOAD, of which `encode_decode_hostWord` speaks. -/
theorem hostWordSurvivesButItsIgnoredBits : Obligations.HostWordSurvivesButItsIgnoredBits := fun c w => by
  simpa only [hostWord_fields] using encode_decode_hostWord c (hostTag w) (hostPayload w)

/-- Settles O5: a host word by its TAG, a byte by the parser's state; a cell and a lock carry their own condition. -/
theorem everyItemIsARowThatApplies : Obligations.EveryItemIsARowThatApplies :=
  ⟨decode_host_wf_fits, fun c v _ _ => decodeByte_wf_fits c v, fun _ _ _ _ => decide_eq_true, fun _ _ => rfl⟩

/-- Settles O2: each word is a closed fact of the decoder. -/
theorem wordsWrittenOutDecode : Obligations.WordsWrittenOutDecode := by
  unfold Obligations.WordsWrittenOutDecode
  decide

end Sys2Proof
end

section
/-!
THEOREMS. Everything an operation that answers can do, one case per path of its meaning: the inversion of `exec` from which
the invariants, the counters, the flags and the frames are read; when operations answer; O6, O8, O40 and O43.
-/

namespace Sys2Proof.Machine

/-! ### Bytes under the name of a row -/

/-- The byte a row of the parser is presented with. -/
def rowByte (i : Instr) : Option Byte :=
  match i with
  | .amId => some Config.idMark
  | .amData | .amDataNoId => some Config.dataMark
  | .amOther v | .idTrack v | .idSide v | .idSector v | .idSizeValid v | .idSizeInvalid v | .idCrcHi v | .idCrcLo v
  | .dataByte v | .dataCrcHi v | .dataCrcLo v | .byteTerminated v | .byteNone v => some v
  | _ => none

/-- A byte row, under whatever name, is SP_BYTE of its byte (43_sector_fsm.md R181). -/
theorem exec_of_rowByte {i : Instr} {v : Byte} (h : rowByte i = some v) (s : State) : exec i s = spByte v s := by
  cases i with
  | amId => cases h; exact execAmId_eq s
  | amData => cases h; exact execAmData_eq s
  | amDataNoId => cases h; exact execAmDataNoId_eq s
  | amOther => cases h; exact execAmOther_eq v s
  | idTrack => cases h; exact execIdTrack_eq v s
  | idSide => cases h; exact execIdSide_eq v s
  | idSector => cases h; exact execIdSector_eq v s
  | idSizeValid => cases h; exact execIdSizeValid_eq v s
  | idSizeInvalid => cases h; exact execIdSizeInvalid_eq v s
  | idCrcHi => cases h; exact execIdCrcHi_eq v s
  | idCrcLo => cases h; exact execIdCrcLo_eq v s
  | dataByte => cases h; exact execDataByte_eq v s
  | dataCrcHi => cases h; exact execDataCrcHi_eq v s
  | dataCrcLo => cases h; exact execDataCrcLo_eq v s
  | byteTerminated => cases h; exact execByteTerminated_eq v s
  | byteNone => cases h; exact execByteNone_eq v s
  | _ => cases h

/-! ### Operations -/

/-- END while the run goes on (45_host_control.md R254). -/
def endState (s : State) : State :=
  emit .eos { s with chActive := false, fsm := if s.fsm = .none then .none else .terminated, ended := true }

/-- An operation that is refused after END (45_host_control.md R257). -/
def refusedAfterEnd (i : Instr) : Prop :=
  (∃ u, i = .edge u) ∨ (∃ v, i = .cfgSr v) ∨ (∃ v, i = .cfgBf v) ∨ i = .endRun

/-- A reserved word (45_host_control.md R256). -/
def reservedWord (i : Instr) : Prop :=
  i = .reserved0 ∨ i = .reserved7 ∨ ∃ tag, i = .reserved8ToF tag

/-- Everything an operation that answers can do: one constructor per path of its rule. -/
inductive ExecStep (s : State) : Instr → State → Prop where
  | reset : ExecStep s .reset (powerOn s)
  | cfgSr (value : Word32) (he : s.ended = false) : ExecStep s (.cfgSr value) { s with cfgSr := value }
  | cfgBf (value : Word32) (he : s.ended = false) : ExecStep s (.cfgBf value) { s with cfgBf := value }
  | endRun (he : s.ended = false) : ExecStep s .endRun (endState s)
  | afterEnd {i : Instr} (hi : refusedAfterEnd i) (he : s.ended = true) : ExecStep s i (setCmdErr s)
  | reserved {i : Instr} (hi : reservedWord i) : ExecStep s i (setCmdErr s)
  | rdreg (index : Byte) :
      ExecStep s (.rdreg index)
        { s with
          cmdErr := s.cmdErr || decide (0x0F ≤ index.toNat)
          out := s.out ++ [.regValue index ((registerFile s).getD index.toNat 0)] }
  | edgeUnconfigured (t : Timestamp) (he : s.ended = false) (hc : s.cfgSr = 0 ∨ s.cfgBf = 0) :
      ExecStep s (.edge t) (setCfgErr s)
  | edgeFirst (t : Timestamp) (ha : accepts s) (hp : s.havePrev = false) :
      ExecStep s (.edge t) { s with havePrev := true, prev := t }
  | edgeDrop (t : Timestamp) (ha : accepts s) (hp : s.havePrev = true)
      (hn : cellCount s.tieRule s.cfgSr s.cfgBf s.prev t ≤ 0) :
      ExecStep s (.edge t) (emit (.drop s.prev t) (cntInc .drop (edgeStart t s)))
  | edgeCells (t : Timestamp) {u : State} (ha : accepts s) (hp : s.havePrev = true)
      (hn : ¬cellCount s.tieRule s.cfgSr s.cfgBf s.prev t ≤ 0)
      (hu : feedCells (edgeCells t s) (edgeStart t s) = .next u) : ExecStep s (.edge t) u
  | byte {i : Instr} {v : Byte} {u : State} (hi : rowByte i = some v) (hu : SpStep v s u) : ExecStep s i u
  | cell (c : BitCell) {u : State} (hu : CellStep c s u) : ExecStep s (.cell c.bit c.start c.stop) u
  | syncLock (b : Bool) (stop : Scaled) : ExecStep s (.syncLock b stop) (lockStep b stop s)
  | mfmClockCell (b : Bool) (start : Scaled) : ExecStep s (.mfmClockCell b start) (clockCell b start s)
  | mfmDataCell (b : Bool) (stop : Scaled) {u : State} (hu : DataStep b stop s u) : ExecStep s (.mfmDataCell b stop) u
  | byteFrame (cells : Word16) (start : Scaled) {u : State}
      (hu : feedCells (frameCells cells start s.cfgSr) s = .next u) : ExecStep s (.byteFrame cells start) u
  | crcStep (c : Word16) (x : Byte) : ExecStep s (.crcStep c x) { s with crcPort := crcStep c x }

/-- The paths of an EDGE that answers (41_flux_demodulator.md R120). -/
theorem execEdge_step {t : Timestamp} {s u : State} (h : execEdge t s = .next u) : ExecStep s (.edge t) u := by
  by_cases he : s.ended = true
  · cases (execEdge_ended t he).symm.trans h
    exact .afterEnd (.inl ⟨t, rfl⟩) he
  have he' : s.ended = false := Bool.eq_false_of_not_eq_true he
  by_cases hc : s.cfgSr = 0 ∨ s.cfgBf = 0
  · cases (execEdge_unconfigured t he' hc).symm.trans h
    exact .edgeUnconfigured t he' hc
  have ha : accepts s := ⟨he', not_or.1 hc⟩
  cases hp : s.havePrev with
  | false =>
    cases (execEdge_first t ha hp).symm.trans h
    exact .edgeFirst t ha hp
  | true =>
    by_cases hn : cellCount s.tieRule s.cfgSr s.cfgBf s.prev t ≤ 0
    · cases (execEdge_drop ha hp hn).symm.trans h
      exact .edgeDrop t ha hp hn
    · exact .edgeCells t ha hp hn ((execEdge_cells ha hp hn).symm.trans h)

/-- An operation that answers takes one of its paths. -/
theorem exec_step {i : Instr} {s t : State} (h : exec i s = .next t) : ExecStep s i t := by
  cases i with
  | reset => cases h; exact .reset
  | cfgSr value =>
    cases he : s.ended with
    | false => cases (execCfgSr_running he value).symm.trans h; exact .cfgSr value he
    | true => cases (execCfgSr_ended he value).symm.trans h; exact .afterEnd (.inr (.inl ⟨value, rfl⟩)) he
  | cfgBf value =>
    cases he : s.ended with
    | false => cases (execCfgBf_running he value).symm.trans h; exact .cfgBf value he
    | true => cases (execCfgBf_ended he value).symm.trans h; exact .afterEnd (.inr (.inr (.inl ⟨value, rfl⟩))) he
  | edge t => exact execEdge_step h
  | endRun =>
    cases he : s.ended with
    | false => cases (execEndRun_running he).symm.trans h; exact .endRun he
    | true => cases (execEndRun_ended he).symm.trans h; exact .afterEnd (.inr (.inr (.inr rfl))) he
  | rdreg index =>
    cases (execRdreg_eq index s).symm.trans h
    exact .rdreg index
  | reserved0 => cases h; exact .reserved (.inl rfl)
  | reserved7 => cases h; exact .reserved (.inr (.inl rfl))
  | reserved8ToF tag => cases h; exact .reserved (.inr (.inr ⟨tag, rfl⟩))
  | cell b start stop => exact .cell ⟨b, start, stop⟩ (cellStep_eq_next.1 h)
  | syncLock b stop => cases h; exact .syncLock b stop
  | mfmClockCell b start => cases h; exact .mfmClockCell b start
  | mfmDataCell b stop => exact .mfmDataCell b stop (dataCell_eq_next.1 h)
  | byteFrame cells start => exact .byteFrame cells start h
  | crcStep c x => cases h; exact .crcStep c x
  | _ =>
    rw [exec_of_rowByte rfl] at h
    exact .byte rfl (spByte_eq_next.1 h)

/-- Every path of an operation is taken: with `exec_step`, `ExecStep` is what `exec` answers. -/
theorem ExecStep.exec {i : Instr} {s t : State} (h : ExecStep s i t) : exec i s = .next t := by
  cases h with
  | reset | syncLock | mfmClockCell | crcStep => rfl
  | cfgSr value he => exact execCfgSr_running he value
  | cfgBf value he => exact execCfgBf_running he value
  | endRun he => exact execEndRun_running he
  | afterEnd hi he =>
    rcases hi with ⟨u, rfl⟩ | ⟨v, rfl⟩ | ⟨v, rfl⟩ | rfl
    · exact execEdge_ended u he
    · exact execCfgSr_ended he v
    · exact execCfgBf_ended he v
    · exact execEndRun_ended he
  | reserved hi => rcases hi with rfl | rfl | ⟨tag, rfl⟩ <;> rfl
  | rdreg index => exact execRdreg_eq index s
  | edgeUnconfigured u he hc => exact execEdge_unconfigured u he hc
  | edgeFirst u ha hp => exact execEdge_first u ha hp
  | edgeDrop u ha hp hn => exact execEdge_drop ha hp hn
  | edgeCells u ha hp hn hu => exact (execEdge_cells ha hp hn).trans hu
  | byte hv hu => exact (exec_of_rowByte hv s).trans (spByte_eq_next.2 hu)
  | cell c hu => exact cellStep_eq_next.2 hu
  | mfmDataCell b stop hu => exact dataCell_eq_next.2 hu
  | byteFrame cells start hu => exact hu

/-- The end of an ID field as one update of the state (43_sector_fsm.md R193). -/
theorem spIdCrcLo_eq (v : Byte) (s : State) :
    spIdCrcLo v s =
      { s with
        cntCrcErr := if foundCrc s.crcHi v = computedIdCrc s then s.cntCrcErr else s.cntCrcErr + 1
        out :=
          if foundCrc s.crcHi v = computedIdCrc s then s.out
          else s.out ++ [.idCrcErr (foundCrc s.crcHi v) (computedIdCrc s)]
        fsm := .terminated } := by
  by_cases h : foundCrc s.crcHi v = computedIdCrc s
  · rw [spIdCrcLo_match h, if_pos h, if_pos h]
    rfl
  · rw [spIdCrcLo_mismatch h, if_neg h, if_neg h]
    simp only [goto, emit, cntInc]

/-! ### A buffer access outside BUF (20_memory.md R60; log 5) -/

theorem bufWrite_outside {i : Nat} (h : Config.bufBytes ≤ i) (v : Byte) (s : State) :
    bufWrite i v s = .fault (.bufIndexOutOfRange i) := if_neg (not_lt.2 h)

theorem withBuf_outside {n : Nat} (h : Config.bufBytes < n) (s : State) (f : List Byte → Result) :
    withBuf n s f = .fault (.bufIndexOutOfRange (n - 1)) := if_neg (not_le.2 h)

/-! ### The obligations -/

/-- Settles O6: `performNext` with an item presented and with none. -/
theorem stepPerformsTheNextItem : Obligations.StepPerformsTheNextItem :=
  ⟨fun _ _ _ h => performNext_cons h, fun _ h => performNext_nil h⟩

/-- Settles O8: RESET is `powerOn` (`powerOn_eq`); the rest are the values `State.reset` takes. -/
theorem resetKeepsOnlyWhatIsNotState : Obligations.ResetKeepsOnlyWhatIsNotState :=
  ⟨fun s => congrArg Host.Outcome.next (powerOn_eq s), rfl, rfl, rfl, rfl, Memory.read_nil⟩

/-- Settles O40: the store and the read are outside BUF, and a stop is passed on. -/
theorem bufferAccessOutsideStops : Obligations.BufferAccessOutsideStops := by
  refine ⟨fun s v hf hi => (if_pos hf).trans ?_, fun s v hf hn => (if_pos hf).trans ?_⟩
  · rw [spDataByte, bufWrite_outside hi, andThen_fault]
  · rw [spDataCrcLo, withBuf_outside hn]

/-- Settles O43: under either row the byte is SP_BYTE of it (`exec_decodeByte`). -/
theorem byteIsReadByTheParserState : Obligations.ByteIsReadByTheParserState := fun c c' v s =>
  (exec_decodeByte c v s).trans (exec_decodeByte c' v s).symm

end Sys2Proof.Machine
end

section
/-!
THEOREMS. The invariants of the block: every operation keeps BlockInv and answers under it (60_exceptions.md R280), a host
transaction keeps HostInv (42_sync_and_clock.md R153, R157; 45_host_control.md R254); O52 to O55.
-/

namespace Sys2Proof.Machine

theorem blockInv_reset : BlockInv State.reset := by constructor <;> decide

theorem hostInv_reset : HostInv State.reset := by constructor <;> decide

/-! ### Every operation keeps the block's invariant -/

namespace BlockInv

variable {s : State}

theorem powerOn (s : State) : BlockInv (powerOn s) := { blockInv_reset with }

/-- END leaves no chunker, and a parser at rest. -/
theorem endState (h : BlockInv s) : BlockInv (endState s) := by
  refine BlockInv.emit ?_ _
  by_cases hf : s.fsm = .none
  · rw [if_pos hf, ← hf]
    exact { h with chunkerHasParser := nofun }
  · rw [if_neg hf]
    exact h.of_sameId rfl (by constructor <;> rfl) rfl rfl nofun

/-- Every operation keeps the invariant. -/
theorem exec {i : Instr} {t : State} (h : BlockInv s) (hs : ExecStep s i t) : BlockInv t := by
  cases hs with
  | reset => exact powerOn s
  | endRun => exact h.endState
  | edgeDrop => exact ((h.edgeStart _).cntInc _).emit _
  | edgeCells t _ _ _ hu =>
    obtain ⟨u, hu', hinv⟩ := (h.edgeStart t).feedCells (edgeCells t s)
    cases hu'.symm.trans hu
    exact hinv
  | byteFrame cells start hu =>
    obtain ⟨u, hu', hinv⟩ := h.feedCells (frameCells cells start s.cfgSr)
    cases hu'.symm.trans hu
    exact hinv
  | byte _ hu => exact h.spStep hu
  | cell _ hu => exact h.cellStep hu
  | mfmDataCell _ _ hu => exact h.dataStep hu
  | syncLock => exact h.lockStep ..
  | mfmClockCell => exact h.clockCell ..
  | cfgSr | cfgBf | afterEnd | reserved | rdreg | edgeUnconfigured | edgeFirst | crcStep => exact { h with }

/-- Taking an item off the queue touches nothing the invariant speaks of. -/
theorem dequeue (h : BlockInv s) (rest : List Item) : BlockInv { s with input := rest } := { h with }

/-! ### Every operation answers -/

theorem dataCell_answers (h : BlockInv s) (b : Bool) (stop : Scaled) : ∃ t, dataCell b stop s = .next t := by
  by_cases hn : s.chNbits = 7
  · obtain ⟨t, ht⟩ := ((h.clockCheck b stop).takeBit b 0).spByte_answers (shiftIn s.chDshift b)
    exact ⟨t, dataCell_eq_next.2 (.byte hn (spByte_eq_next.1 ht))⟩
  · exact ⟨_, dataCell_eq_next.2 (.bit hn)⟩

theorem exec_answers (h : BlockInv s) (i : Instr) : ∃ t, Machine.exec i s = .next t := by
  cases i with
  | reset | reserved0 | reserved7 | reserved8ToF | syncLock | mfmClockCell | crcStep => exact ⟨_, rfl⟩
  | cfgSr | cfgBf | endRun => exact (ite_eq_or_eq _ _ _).elim (⟨_, ·⟩) (⟨_, ·⟩)
  | edge t =>
    obtain ⟨u, hu, -⟩ := edgeRunsTheCellsOfItsGap s t h
    exact ⟨u, hu⟩
  | rdreg index => exact ⟨_, execRdreg_eq index s⟩
  | cell b start stop =>
    obtain ⟨t, ht, -⟩ := h.feedCells [⟨b, start, stop⟩]
    exact ⟨t, (andThen_next_right _).symm.trans ht⟩
  | mfmDataCell b stop => exact h.dataCell_answers b stop
  | byteFrame cells start =>
    obtain ⟨t, ht, -⟩ := h.feedCells (frameCells cells start s.cfgSr)
    exact ⟨t, ht⟩
  | _ =>
    obtain ⟨t, ht⟩ := h.spByte_answers _
    exact ⟨t, (exec_of_rowByte rfl s).trans ht⟩

end BlockInv

/-! ### Host transactions keep the host's invariant -/

/-- Every word is a transaction of the host control, or an EDGE. -/
theorem subBlockOf_decodeHost (w : HostWord) :
    subBlockOf (decodeHost w) = .hostControl ∨ subBlockOf (decodeHost w) = .fluxDemodulator := by
  unfold decodeHost
  split <;> simp [subBlockOf]

/-- A byte row is none of them. -/
theorem subBlockOf_of_rowByte {i : Instr} {v : Byte} (h : rowByte i = some v) : subBlockOf i = .sectorParser := by
  cases i <;> cases h <;> rfl

/-- No byte gives the parser its first state, and none takes it back there (43_sector_fsm.md R199). -/
theorem SpStep.fsm_none_iff {v : Byte} {s t : State} (h : SpStep v s t) : t.fsm = .none ↔ s.fsm = .none := by
  cases h with
  | none | terminated => exact Iff.rfl
  | idCrcLo h => simp [spIdCrcLo_eq, h]
  | dataByte h => rw [spCountByte_stored h, h]; split <;> simp
  | dataCrcLo h => simp [spRecord, h]
  | amId h | amData h | amDataNoId h | amOther h | idTrack h | idSide h | idSector h | idSizeValid h | idSizeInvalid h
  | idCrcHi h | dataCrcHi h =>
    simp [h, spAmId, spAmData, spAmDataNoId, spAmOther, spIdTrack, spIdSide, spIdSector, spIdSizeValid,
      spIdSizeInvalid, spIdCrcHi, spDataCrcHi]

/-- The chunker is alive exactly while there is a parser (42_sync_and_clock.md R152, R153). -/
def ChunkerWithParser (s : State) : Prop :=
  s.chActive = true ↔ s.fsm ≠ .none

theorem ChunkerWithParser.congr {s t : State} (h : ChunkerWithParser s) (ha : t.chActive = s.chActive)
    (hf : t.fsm = .none ↔ s.fsm = .none) : ChunkerWithParser t := by
  unfold ChunkerWithParser at *
  rw [ha, h, ne_eq, ne_eq, hf]

/-- A lock creates both, and no other cell creates or ends either. -/
theorem CellStep.chunkerWithParser {c : BitCell} {s t : State} (hs : CellStep c s t) (h : ChunkerWithParser s) :
    ChunkerWithParser t := by
  cases hs with
  | lock => simp [ChunkerWithParser]
  | noChunker => exact h.congr (by simp) (by simp)
  | clock => exact h.congr (by simp) (by simp)
  | data _ _ _ ht =>
    cases ht with
    | bit => exact h.congr (by simp) (by simp)
    | byte _ hb => exact h.congr (by simp [hb.frame.chActive]) (by simp [hb.fsm_none_iff])

namespace HostInv

variable {s : State}

theorem powerOn (h : HostInv s) : HostInv (powerOn s) := { hostInv_reset with hostOnly := h.hostOnly }

/-- END closes the run: no chunker, a parser at rest. -/
theorem endState (h : HostInv s) : HostInv (endState s) where
  hostOnly := h.hostOnly
  chunkerLife := by simp [Machine.endState]
  endedParser _ := by simp [Machine.endState, or_iff_not_imp_left]
  noEdgeYet hp := by
    obtain ⟨hprev, hsr, hf⟩ := h.noEdgeYet hp
    exact ⟨hprev, hsr, if_pos hf⟩

/-- While the run goes on and an edge is recorded, cells keep the invariant. -/
theorem feedCells {cs : List BitCell} {t : State} (h : HostInv s) (he : s.ended = false) (hp : s.havePrev = true)
    (ht : feedCells cs s = .next t) : HostInv t := by
  have hframe := feedCells_frame ht
  have hlife : ChunkerWithParser t :=
    feedCells_rel (R := fun s t => ChunkerWithParser s → ChunkerWithParser t) (fun _ => id)
      (fun _ _ _ hst htu h => htu (hst h)) (fun _ _ _ => CellStep.chunkerWithParser) ht
      (h.chunkerLife.trans (and_iff_left he))
  exact {
    hostOnly := hframe.input ▸ h.hostOnly
    chunkerLife := hlife.trans (and_iff_left (hframe.ended.trans he)).symm
    endedParser := fun he' => by simp [hframe.ended, he] at he'
    noEdgeYet := fun hp' => by simp [hframe.havePrev, hp] at hp' }

/-- A host transaction keeps the invariant. -/
theorem exec {i : Instr} {t : State} (h : HostInv s) (hi : subBlockOf i = .hostControl ∨ subBlockOf i = .fluxDemodulator)
    (hs : ExecStep s i t) : HostInv t := by
  cases hs with
  | reset => exact h.powerOn
  | endRun => exact h.endState
  | edgeFirst => exact { h with noEdgeYet := nofun }
  | edgeDrop _ _ hp => exact { h with noEdgeYet := fun hp' => by simp [Machine.edgeStart, hp] at hp' }
  | edgeCells t ha hp _ hu =>
    exact feedCells (s := edgeStart t s) { h with noEdgeYet := fun hp' => by simp [edgeStart, hp] at hp' } ha.1 hp hu
  | byte hv => simp [subBlockOf_of_rowByte hv] at hi
  | cell | mfmDataCell | byteFrame | syncLock | mfmClockCell | crcStep => simp [subBlockOf] at hi
  | cfgSr | cfgBf | afterEnd | reserved | rdreg | edgeUnconfigured => exact { h with }

end HostInv

/-! ### The obligations -/

/-- Settles O52: each clause is a closed fact of `State.reset`. -/
theorem invariantsHoldAtReset : Obligations.InvariantsHoldAtReset := ⟨blockInv_reset, hostInv_reset⟩

/-- Settles O53: with nothing presented the state is held, and a presented item is an operation (`BlockInv.exec`). -/
theorem everyStepKeepsTheInvariant : Obligations.EveryStepKeepsTheInvariant := by
  intro s t h (hs : performNext s = .next t)
  cases hin : s.input with
  | nil =>
    cases (performNext_nil hin).symm.trans hs
    exact h
  | cons it rest => exact (h.dequeue rest).exec (exec_step ((performNext_cons hin).symm.trans hs))

/-- Settles O54: `BlockInv.exec_answers`, for an operation and for the one a step takes off the queue. -/
theorem noInputStopsTheBlock : Obligations.NoInputStopsTheBlock := by
  refine ⟨fun i s h => h.exec_answers i, fun s h => ?_⟩
  cases hin : s.input with
  | nil => exact ⟨s, performNext_nil hin⟩
  | cons it rest =>
    obtain ⟨t, ht⟩ := (h.dequeue rest).exec_answers (decode (context s) it)
    exact ⟨t, (performNext_cons hin).trans ht⟩

/-- Settles O55: what is presented is a host word, so the step is a host transaction (`HostInv.exec`). -/
theorem hostTransactionsKeepTheHostInvariant : Obligations.HostTransactionsKeepTheHostInvariant := by
  intro s t h (hs : performNext s = .next t)
  cases hin : s.input with
  | nil =>
    cases (performNext_nil hin).symm.trans hs
    exact h
  | cons it rest =>
    obtain ⟨hit, hrest⟩ := List.forall_mem_cons.1 (hin ▸ h.hostOnly)
    obtain ⟨w, rfl⟩ := hit
    have hdeq : HostInv { s with input := rest } := { h with hostOnly := hrest }
    exact hdeq.exec (subBlockOf_decodeHost w) (exec_step ((performNext_cons hin).symm.trans hs))

end Sys2Proof.Machine
end

section
/-!
THEOREMS. The event stream and the counters (10_state.md R37, R39; 60_exceptions.md R281): a relation between two states that
every path of every operation but RESET keeps; O56.
-/

namespace Sys2Proof.Machine

/-- Events have been appended, and each counter has grown by the events among them that count for it. -/
def Counted (s t : State) : Prop :=
  ∃ evs, t.out = s.out ++ evs ∧ ∀ c, cnt c t = cnt c s + BitVec.ofNat 32 (evs.map (eventCount c)).sum

@[simp] theorem cnt_emit (c : Counter) (e : Event) (s : State) : cnt c (emit e s) = cnt c s := by cases c <;> rfl

@[simp] theorem cnt_goto (c : Counter) (f : FsmState) (s : State) : cnt c (goto f s) = cnt c s := by cases c <;> rfl

namespace Counted

variable {s t u : State}

/-- Nothing emitted and nothing counted. -/
theorem silent (hout : t.out = s.out) (hcnt : ∀ c, cnt c t = cnt c s) : Counted s t :=
  ⟨[], by simp [hout], by simp [hcnt]⟩

theorem refl (s : State) : Counted s s := silent rfl fun _ => rfl

theorem trans (h : Counted s t) (g : Counted t u) : Counted s u := by
  obtain ⟨evs, hout, hcnt⟩ := h
  obtain ⟨evs', hout', hcnt'⟩ := g
  exact ⟨evs ++ evs', by rw [hout', hout, List.append_assoc], fun c => by
    rw [hcnt', hcnt, List.map_append, List.sum_append, BitVec.ofNat_add, BitVec.add_assoc]⟩

/-- One event, counted where it counts. -/
theorem event {e : Event} (hout : t.out = s.out ++ [e])
    (hcnt : ∀ c, cnt c t = cnt c s + BitVec.ofNat 32 (eventCount c e)) : Counted s t :=
  ⟨[e], hout, fun c => by simpa using hcnt c⟩

/-- An event no counter counts. -/
theorem emit {e : Event} (h : ∀ c, eventCount c e = 0) (s : State) : Counted s (emit e s) :=
  event rfl fun c => by simp [h]

/-- An event that one counter counts, with that counter's increment. -/
theorem emit_cntInc {e : Event} {c : Counter} (h : ∀ d, eventCount d e = if c = d then 1 else 0) (s : State) :
    Counted s (Machine.emit e (cntInc c s)) :=
  event (e := e) (by simp) fun d => by rw [cnt_emit, cnt_cntInc, h]; split <;> simp

theorem goto (h : Counted s t) (f : FsmState) : Counted s (goto f t) := h.trans (silent rfl (cnt_goto · f t))

/-- A protocol error counts as one (60_exceptions.md R281). -/
theorem abortParse {cause : Event} (h : ∀ d, eventCount d cause = if Counter.proto = d then 1 else 0) (s : State) :
    Counted s (abortParse cause s) :=
  (emit_cntInc h s).goto .terminated

/-- A record counts as one, and as an integrity error if its CRCs differ (43_sector_fsm.md R196). -/
theorem spRecord (payload : List Byte) (found : Word16) (s : State) : Counted s (spRecord payload found s) := by
  have hcrc : eventCount .crcErr (recordOf payload found s) =
      if found = crc16 (dataCheckInput payload) then 0 else 1 := rfl
  rw [spRecord_eq]
  refine event (e := recordOf payload found s) rfl fun c => ?_
  cases c with
  | crcErr =>
    rw [hcrc]
    split
    · exact (BitVec.add_zero _).symm
    · rfl
  | record => rfl
  | drop | lock | clkErr | proto => exact (BitVec.add_zero _).symm

theorem spStep {v : Byte} (h : SpStep v s t) : Counted s t := by
  cases h with
  | none | terminated => exact refl s
  | amDataNoId | amOther | idSizeInvalid => exact abortParse (fun d => by cases d <;> rfl) s
  | idCrcLo =>
    simp only [spIdCrcLo]
    split
    · exact (emit_cntInc (fun d => by cases d <;> rfl) s).goto _
    · exact (refl s).goto _
  | dataByte hf =>
    rw [spCountByte_stored hf]
    exact silent rfl fun c => by cases c <;> rfl
  | dataCrcLo => exact spRecord _ _ s
  | amId | amData | idTrack | idSide | idSector | idSizeValid | idCrcHi | dataCrcHi =>
    exact silent rfl fun c => by cases c <;> rfl

theorem shiftSync (b : Bool) (s : State) : Counted s (shiftSync b s) := silent rfl fun c => by cases c <;> rfl

theorem clockCell (b : Bool) (start : Scaled) (s : State) : Counted s (clockCell b start s) :=
  silent rfl fun c => by cases c <;> rfl

theorem takeBit (b : Bool) (n : BitVec 3) (s : State) : Counted s (takeBit b n s) :=
  silent rfl fun c => by cases c <;> rfl

theorem clockCheck (b : Bool) (stop : Scaled) (s : State) : Counted s (clockCheck b stop s) := by
  have hset (s : State) : Counted s (setDprev b s) := silent rfl fun c => by cases c <;> rfl
  refine trans ?_ (hset _)
  split
  · exact emit_cntInc (fun d => by cases d <;> rfl) s
  · exact refl s

theorem lockStep (b : Bool) (stop : Scaled) (s : State) : Counted s (lockStep b stop s) := by
  have hlock := emit_cntInc (e := .lock stop) (c := .lock) (fun d => by cases d <;> rfl) s
  exact (hlock.trans (silent (t := freshChunker b _) rfl fun c => by cases c <;> rfl)).goto _

theorem dataStep {b : Bool} {stop : Scaled} (h : DataStep b stop s t) : Counted s t := by
  cases h with
  | bit => exact (clockCheck b stop s).trans (takeBit ..)
  | byte _ ht => exact ((clockCheck b stop s).trans (takeBit ..)).trans (spStep ht)

theorem cellStep {c : BitCell} (h : CellStep c s t) : Counted s t := by
  refine (shiftSync c.bit s).trans ?_
  cases h with
  | lock => exact lockStep ..
  | noChunker => exact refl _
  | clock => exact clockCell ..
  | data _ _ _ ht => exact dataStep ht

theorem feedCells {cs : List BitCell} (h : feedCells cs s = .next t) : Counted s t :=
  feedCells_rel refl (fun _ _ _ => trans) (fun _ _ _ => cellStep) h

theorem edgeStart (t : Timestamp) (s : State) : Counted s (edgeStart t s) := silent rfl fun c => by cases c <;> rfl

/-- Every operation but RESET, which sets the counters to 0, counts the events it appends. -/
theorem exec {i : Instr} (h : ExecStep s i t) (hi : i ≠ .reset) : Counted s t := by
  cases h with
  | reset => exact absurd rfl hi
  | endRun => exact (silent rfl fun c => by cases c <;> rfl).trans (emit (fun c => by cases c <;> rfl) _)
  | rdreg =>
    refine event rfl fun c => ?_
    cases c <;> exact (BitVec.add_zero _).symm
  | edgeDrop t => exact (edgeStart t s).trans (emit_cntInc (fun d => by cases d <;> rfl) _)
  | edgeCells t _ _ _ hu => exact (edgeStart t s).trans (feedCells hu)
  | byte _ hu => exact spStep hu
  | cell _ hu => exact cellStep hu
  | mfmDataCell _ _ hu => exact dataStep hu
  | byteFrame _ _ hu => exact feedCells hu
  | syncLock => exact lockStep ..
  | cfgSr | cfgBf | afterEnd | reserved | edgeUnconfigured | edgeFirst | mfmClockCell | crcStep =>
    exact silent rfl fun c => by cases c <;> rfl

end Counted

/-- Settles O56: RESET appends nothing, and every other operation counts what it appends (`Counted.exec`). -/
theorem eventsAppendAndAreCounted : Obligations.EventsAppendAndAreCounted := by
  intro i s t h
  by_cases hi : i = .reset
  · subst hi
    cases h
    exact ⟨[], (List.append_nil _).symm, fun _ => rfl, fun hi => absurd rfl hi⟩
  · obtain ⟨evs, hout, hcnt⟩ := Counted.exec (exec_step h) hi
    exact ⟨evs, hout, fun h => absurd h hi, fun _ => hcnt⟩

end Sys2Proof.Machine
end

section
/-!
THEOREMS. The established ID, the flags and the registers (10_state.md R31 to R36, R40, R43; 43_sector_fsm.md R190, R198):
which operations change which, and how; O57 and O58.
-/

namespace Sys2Proof.Machine

/-! ### The established ID -/

/-- The ID of the field in progress has just been established (43_sector_fsm.md R190). -/
structure IdTaken (s t : State) : Prop where
  fsm : t.fsm = .idCrcHi
  idTrack : t.idTrack = s.pTrack
  idSide : t.idSide = s.pSide
  idSector : t.idSector = s.pSector
  idSizeCode : t.idSizeCode.toNat ≤ 6
  decodedSize : t.decodedSize.toNat = 128 * 2 ^ t.idSizeCode.toNat
  idValid : t.idValid = true

/-- The ID is established where `p` holds, and the same as before where it does not. -/
def SetsIdIff (p : Prop) (s t : State) : Prop :=
  p ∧ IdTaken s t ∨ ¬p ∧ SameId s t

theorem SetsIdIff.congr {p q : Prop} {s t : State} (h : SetsIdIff p s t) (hpq : p ↔ q) : SetsIdIff q s t :=
  propext hpq ▸ h

/-- What comes before a delivered byte touches neither the field in progress nor the established ID. -/
theorem SetsIdIff.after {p : Prop} {s s1 t : State} (h : SetsIdIff p s1 t) (hid : SameId s s1)
    (htrack : s1.pTrack = s.pTrack) (hside : s1.pSide = s.pSide) (hsector : s1.pSector = s.pSector) :
    SetsIdIff p s t :=
  h.imp
    (.imp_right fun h =>
      { h with
        idTrack := h.idTrack.trans htrack
        idSide := h.idSide.trans hside
        idSector := h.idSector.trans hsector })
    (.imp_right hid.trans)

/-- A byte establishes the ID or leaves it the same. -/
theorem SpStep.setsId {v : Byte} {s t : State} (h : SpStep v s t) : SetsIdIff (byteEstablishes v s) s t := by
  cases h with
  | idSizeValid h hv =>
    exact .inl ⟨⟨h, hv⟩, rfl, rfl, rfl, rfl, hv, decodedSizeOf_toNat hv, rfl⟩
  | idSizeInvalid h hv =>
    exact .inr ⟨fun he => absurd hv (not_lt.2 he.2), by constructor <;> simp [spIdSizeInvalid]⟩
  | none h | terminated h => exact .inr ⟨by simp [byteEstablishes, h], .refl s⟩
  | idCrcLo h =>
    refine .inr ⟨by simp [byteEstablishes, h], ?_⟩
    rw [spIdCrcLo_eq]
    constructor <;> rfl
  | dataByte h =>
    refine .inr ⟨by simp [byteEstablishes, h], ?_⟩
    rw [spCountByte_stored h]
    constructor <;> rfl
  | dataCrcLo h =>
    refine .inr ⟨by simp [byteEstablishes, h], ?_⟩
    rw [spRecord_eq]
    constructor <;> rfl
  | amId h | amData h | amDataNoId h | amOther h | idTrack h | idSide h | idSector h | idCrcHi h | dataCrcHi h =>
    exact .inr ⟨by simp [byteEstablishes, h], by
      constructor <;>
        simp [spAmId, spAmData, spAmDataNoId, spAmOther, spIdTrack, spIdSide, spIdSector, spIdCrcHi, spDataCrcHi]⟩

theorem DataStep.setsId {b : Bool} {stop : Scaled} {s t : State} (h : DataStep b stop s t) :
    SetsIdIff (dataCellEstablishes b s) s t := by
  cases h with
  | bit h => exact .inr ⟨fun he => h he.1, by constructor <;> simp⟩
  | byte h ht =>
    have hp : byteEstablishes (shiftIn s.chDshift b) (takeBit b 0 (clockCheck b stop s)) ↔ dataCellEstablishes b s := by
      simp [byteEstablishes, dataCellEstablishes, h, shiftIn_eq]
    exact (ht.setsId.after (by constructor <;> simp) (by simp) (by simp) (by simp)).congr hp

theorem CellStep.setsId {c : BitCell} {s t : State} (h : CellStep c s t) : SetsIdIff (cellEstablishes c.bit s) s t := by
  cases h with
  | lock h => exact .inr ⟨fun he => he.1 ((shiftIn_eq ..).symm.trans h), by constructor <;> simp⟩
  | noChunker h ha => exact .inr ⟨by simp [cellEstablishes, ha], by constructor <;> simp⟩
  | clock h ha hp => exact .inr ⟨by simp [cellEstablishes, hp], by constructor <;> simp⟩
  | data h ha hp ht =>
    have hne : s.syncSr <<< 1 ||| (if c.bit then 1 else 0) ≠ 0x4489 := shiftIn_eq s.syncSr c.bit ▸ h
    have hiff : dataCellEstablishes c.bit (shiftSync c.bit s) ↔ cellEstablishes c.bit s :=
      ⟨fun he => ⟨hne, ha, hp, he⟩, fun ⟨_, _, _, he⟩ => he⟩
    exact (ht.setsId.after (s := s) (by constructor <;> rfl) rfl rfl rfl).congr hiff

/-- The ID is established where `p` holds, by one step or more, and the same as before where it does not. -/
def KeepsIdUnless (p : Prop) (s t : State) : Prop :=
  p ∧ t.idValid = true ∨ ¬p ∧ SameId s t

theorem SetsIdIff.keepsIdUnless {p : Prop} {s t : State} (h : SetsIdIff p s t) : KeepsIdUnless p s t :=
  h.imp_left (.imp_right IdTaken.idValid)

/-- An ID, once established, stays established (10_state.md R32). -/
theorem KeepsIdUnless.idValid_iff {p : Prop} {s t : State} (h : KeepsIdUnless p s t) :
    t.idValid = true ↔ s.idValid = true ∨ p := by
  rcases h with ⟨hp, hv⟩ | ⟨hp, hid⟩
  · simp [hp, hv]
  · simp [hp, hid.idValid]

/-- A sequence of cells establishes an ID or leaves it the same. -/
theorem feedCells_keepsIdUnless {cs : List BitCell} {s t : State} (h : feedCells cs s = .next t) :
    KeepsIdUnless (cellsEstablish cs s) s t := by
  induction cs generalizing s with
  | nil =>
    cases h
    exact .inr ⟨not_cellsEstablish_nil _, .refl _⟩
  | cons c cs ih =>
    obtain ⟨u, hu, ht⟩ := andThen_eq_next.1 h
    have hfirst := (cellStep_eq_next.1 hu).setsId.keepsIdUnless
    rw [KeepsIdUnless, cellsEstablish_cons hu]
    rcases ih ht with ⟨hrest, hv⟩ | ⟨hrest, hid⟩
    · exact .inl ⟨.inr hrest, hv⟩
    · rcases hfirst with ⟨hc, hv⟩ | ⟨hc, hid'⟩
      · exact .inl ⟨.inl hc, hid.idValid.trans hv⟩
      · exact .inr ⟨not_or.2 ⟨hc, hrest⟩, hid'.trans hid⟩

/-- An operation of more than one cell: an EDGE or a BYTE_FRAME. -/
def manyCells (i : Instr) : Prop :=
  (∃ u, i = .edge u) ∨ ∃ w u, i = .byteFrame w u

theorem establishesId_of_rowByte {i : Instr} {v : Byte} (h : rowByte i = some v) (s : State) :
    establishesId i s = byteEstablishes v s := by
  cases i <;> cases h <;> rfl

/-- An EDGE that closes no gap has no cells. -/
theorem edgeCells_eq_nil {t : Timestamp} {s : State} (h : ¬(accepts s ∧ s.havePrev = true)) : edgeCells t s = [] :=
  if_neg fun ⟨he, hsr, hbf, hp⟩ => h ⟨⟨he, hsr, hbf⟩, hp⟩

/-- A DROP has no cells (41_flux_demodulator.md R126). -/
theorem edgeCells_of_drop {t : Timestamp} {s : State} (h : cellCount s.tieRule s.cfgSr s.cfgBf s.prev t ≤ 0) :
    edgeCells t s = [] := by
  unfold edgeCells
  rw [Int.toNat_of_nonpos h]
  split <;> rfl

/-- Every operation but RESET establishes an ID or leaves it the same; one of a single byte or cell takes the ID of the
field in progress. -/
theorem ExecStep.keepsIdUnless {i : Instr} {s t : State} (h : ExecStep s i t) (hi : i ≠ .reset) :
    SetsIdIff (establishesId i s) s t ∨ manyCells i ∧ KeepsIdUnless (establishesId i s) s t := by
  have edgeNoCells {u : Timestamp} (hcs : Machine.edgeCells u s = []) : ¬establishesId (.edge u) s := by
    rw [establishesId, hcs]
    exact not_cellsEstablish_nil _
  cases h with
  | reset => exact absurd rfl hi
  | byte hv hu => exact .inl (establishesId_of_rowByte hv s ▸ hu.setsId)
  | cell _ hu => exact .inl hu.setsId
  | mfmDataCell _ _ hu => exact .inl hu.setsId
  | byteFrame _ _ hu => exact .inr ⟨.inr ⟨_, _, rfl⟩, feedCells_keepsIdUnless hu⟩
  | edgeCells u _ _ _ hu =>
    exact .inr ⟨.inl ⟨u, rfl⟩, (feedCells_keepsIdUnless hu).imp_right (.imp_right fun h => { h with })⟩
  | edgeUnconfigured u he hc =>
    exact .inl (.inr ⟨edgeNoCells (edgeCells_eq_nil fun ⟨⟨_, hsr, hbf⟩, _⟩ => hc.elim hsr hbf), by constructor <;> rfl⟩)
  | edgeFirst u ha hp =>
    exact .inl (.inr ⟨edgeNoCells (edgeCells_eq_nil fun h => by simp [hp] at h), by constructor <;> rfl⟩)
  | edgeDrop u ha hp hn => exact .inl (.inr ⟨edgeNoCells (edgeCells_of_drop hn), by constructor <;> rfl⟩)
  | afterEnd hop he =>
    refine .inl (.inr ⟨?_, by constructor <;> rfl⟩)
    rcases hop with ⟨u, rfl⟩ | ⟨_, rfl⟩ | ⟨_, rfl⟩ | rfl
    · exact edgeNoCells (edgeCells_eq_nil fun ⟨⟨he', _⟩, _⟩ => by simp [he] at he')
    all_goals exact id
  | reserved hop =>
    refine .inl (.inr ⟨?_, by constructor <;> rfl⟩)
    rcases hop with rfl | rfl | ⟨_, rfl⟩ <;> exact id
  | syncLock => exact .inl (.inr ⟨id, by constructor <;> simp⟩)
  | cfgSr | cfgBf | endRun | rdreg | mfmClockCell | crcStep => exact .inl (.inr ⟨id, by constructor <;> rfl⟩)

/-- The two forms of `ExecStep.keepsIdUnless` in one. -/
theorem exec_keepsIdUnless {i : Instr} {s t : State} (h : exec i s = .next t) (hi : i ≠ .reset) :
    KeepsIdUnless (establishesId i s) s t :=
  ((exec_step h).keepsIdUnless hi).elim SetsIdIff.keepsIdUnless And.right

/-! ### The flags and the registers -/

/-- A flag is as it was, or it has been set for the given cause. -/
def SetOnlyBy (cause : Prop) (before after : Bool) : Prop :=
  after = before ∨ after = true ∧ cause

theorem SetOnlyBy.stays {cause : Prop} {before after : Bool} (h : SetOnlyBy cause before after) (hb : before = true) :
    after = true :=
  h.elim (·.trans hb) And.left

theorem SetOnlyBy.cause {cause : Prop} {before after : Bool} (h : SetOnlyBy cause before after) (hb : before = false)
    (ha : after = true) : cause :=
  h.elim (fun he => by simp [he, hb] at ha) And.right

/-- What an operation other than RESET may write of the registers a cell never touches, and of SYNC_SR. -/
structure RegisterRules (i : Instr) (s t : State) : Prop where
  ended : SetOnlyBy (i = .endRun) s.ended t.ended
  cmdErr : SetOnlyBy (reservedWord i ∨ (∃ index, i = .rdreg index ∧ 0x0F ≤ index.toNat) ∨
    s.ended = true ∧ refusedAfterEnd i) s.cmdErr t.cmdErr
  orderErr : SetOnlyBy (∃ u, i = .edge u ∧ accepts s ∧ s.havePrev = true ∧ u.toNat ≤ s.prev.toNat) s.orderErr t.orderErr
  cfgErr : SetOnlyBy ((∃ u, i = .edge u) ∧ s.ended = false ∧ (s.cfgSr = 0 ∨ s.cfgBf = 0)) s.cfgErr t.cfgErr
  cfgSr : t.cfgSr = s.cfgSr ∨ i = .cfgSr t.cfgSr
  cfgBf : t.cfgBf = s.cfgBf ∨ i = .cfgBf t.cfgBf
  lastEdge : t.havePrev = s.havePrev ∧ t.prev = s.prev ∨ ∃ u, i = .edge u
  tieRule : t.tieRule = s.tieRule
  input : t.input = s.input
  crcPort : t.crcPort = s.crcPort ∨ ∃ c x, i = .crcStep c x

/-- Cells and bytes write none of them. -/
theorem CellFrame.registerRules {s t : State} (h : CellFrame s t) (i : Instr) : RegisterRules i s t where
  ended := .inl h.ended
  cmdErr := .inl h.cmdErr
  orderErr := .inl h.orderErr
  cfgErr := .inl h.cfgErr
  cfgSr := .inl h.cfgSr
  cfgBf := .inl h.cfgBf
  lastEdge := .inl ⟨h.havePrev, h.prev⟩
  tieRule := h.tieRule
  input := h.input
  crcPort := .inl h.crcPort

/-- The gap an EDGE closes writes PREV and, if it is not above 0, ORDER_ERR (41_flux_demodulator.md R120, R127). -/
theorem edgeStart_registerRules {s t : State} {u : Timestamp} (ha : accepts s) (hp : s.havePrev = true)
    (h : CellFrame (edgeStart u s) t) : RegisterRules (.edge u) s t :=
  { h.registerRules (.edge u) with
    cmdErr := .inl h.cmdErr
    orderErr := by
      have horder : t.orderErr = (s.orderErr || decide (u.toNat ≤ s.prev.toNat)) := by
        rw [h.orderErr, edgeStart]
        simp only [gapDelta_le_zero_iff]
      by_cases hle : u.toNat ≤ s.prev.toNat
      · exact .inr ⟨by simp [horder, hle], u, rfl, ha, hp, hle⟩
      · exact .inl (by simp [horder, hle])
    cfgErr := .inl h.cfgErr
    lastEdge := .inr ⟨u, rfl⟩ }

theorem ExecStep.registerRules {i : Instr} {s t : State} (h : ExecStep s i t) (hi : i ≠ .reset) :
    RegisterRules i s t := by
  have same (i : Instr) : RegisterRules i s s := (CellFrame.refl s).registerRules i
  cases h with
  | reset => exact absurd rfl hi
  | cfgSr value => exact { same (.cfgSr value) with cfgSr := .inr rfl }
  | cfgBf value => exact { same (.cfgBf value) with cfgBf := .inr rfl }
  | endRun => exact { same .endRun with ended := .inr ⟨rfl, rfl⟩ }
  | afterEnd hop he => exact { same i with cmdErr := .inr ⟨rfl, .inr (.inr ⟨he, hop⟩)⟩ }
  | reserved hop => exact { same i with cmdErr := .inr ⟨rfl, .inl hop⟩ }
  | rdreg index =>
    refine { same (.rdreg index) with cmdErr := ?_ }
    by_cases hr : 0x0F ≤ index.toNat
    · exact .inr ⟨by simp [hr], .inr (.inl ⟨index, rfl, hr⟩)⟩
    · exact .inl (by simp [hr])
  | edgeUnconfigured u he hc => exact { same (.edge u) with cfgErr := .inr ⟨rfl, ⟨u, rfl⟩, he, hc⟩ }
  | edgeFirst u => exact { same (.edge u) with lastEdge := .inr ⟨u, rfl⟩ }
  | edgeDrop u ha hp => exact { edgeStart_registerRules (u := u) ha hp (.refl _) with }
  | edgeCells u ha hp _ hu => exact edgeStart_registerRules ha hp (feedCells_frame hu)
  | crcStep c x => exact { same (.crcStep c x) with crcPort := .inr ⟨c, x, rfl⟩ }
  | byte _ hu => exact hu.frame.toCellFrame.registerRules i
  | cell _ hu => exact hu.frame.registerRules _
  | mfmDataCell _ _ hu => exact hu.frame.registerRules _
  | byteFrame _ _ hu => exact (feedCells_frame hu).registerRules _
  | syncLock => exact (lockStep_frame ..).registerRules _
  | mfmClockCell => exact (clockCell_frame ..).registerRules _

/-- A data cell leaves SYNC_SR alone: the shift is CELL's (42_sync_and_clock.md R151). -/
theorem DataStep.syncSr {b : Bool} {stop : Scaled} {s t : State} (h : DataStep b stop s t) : t.syncSr = s.syncSr := by
  cases h with
  | bit => simp
  | byte _ ht => simp [ht.frame.syncSr]

/-- SYNC_SR is written by the operations that perform a CELL (42_sync_and_clock.md R151; log 8). -/
theorem ExecStep.syncSr {i : Instr} {s t : State} (h : ExecStep s i t) (hi : i ≠ .reset) :
    t.syncSr = s.syncSr ∨ (∃ u, i = .edge u) ∨ (∃ b u v, i = .cell b u v) ∨ ∃ w u, i = .byteFrame w u := by
  cases h with
  | reset => exact absurd rfl hi
  | edgeUnconfigured u | edgeFirst u | edgeDrop u | edgeCells u => exact .inr (.inl ⟨u, rfl⟩)
  | cell c => exact .inr (.inr (.inl ⟨c.bit, c.start, c.stop, rfl⟩))
  | byteFrame w u => exact .inr (.inr (.inr ⟨w, u, rfl⟩))
  | byte _ hu => exact .inl hu.frame.syncSr
  | mfmDataCell _ _ hu => exact .inl hu.syncSr
  | syncLock => exact .inl (by simp)
  | cfgSr | cfgBf | endRun | afterEnd | reserved | rdreg | mfmClockCell | crcStep => exact .inl rfl

/-! ### The obligations -/

/-- A byte that establishes an ID where none was established, read in the parser's own state, is read as ID_SIZE_VALID. -/
theorem decodeByte_of_establishes {c : Context} {v : Byte} {s : State} (hc : c.fsm = s.fsm) (h : byteEstablishes v s) :
    decodeByte c v = .idSizeValid v := by
  obtain ⟨hf, hv⟩ := h
  rw [decodeByte, hc.trans hf]
  exact if_pos hv

theorem rowByte_decodeByte (c : Context) (v : Byte) : rowByte (decodeByte c v) = some v := by
  obtain ⟨fsm, idValid⟩ := c
  cases fsm
  case addressMark => simp only [decodeByte]; split_ifs <;> simp_all [rowByte]
  case idSize => simp only [decodeByte]; split_ifs <;> rfl
  all_goals rfl

/-- Settles O57: each flag by its rule (`ExecStep.registerRules`), ID_VALID by `exec_keepsIdUnless`. -/
theorem flagsFollowTheirRules : Obligations.FlagsFollowTheirRules := by
  refine ⟨fun i s t h hi => ?_, fun s => decide_eq_true_iff⟩
  have rules := (exec_step h).registerRules hi
  have hid := (exec_keepsIdUnless h hi).idValid_iff
  refine ⟨fun hv => hid.2 (.inl hv), rules.ended.stays, rules.cmdErr.stays, rules.orderErr.stays, rules.cfgErr.stays,
    rules.ended.cause, fun hb ha => ?_, rules.orderErr.cause, rules.cfgErr.cause, hid, ?_⟩
  · simpa only [reservedWord, refusedAfterEnd, or_assoc] using rules.cmdErr.cause hb ha
  · rintro ⟨v, rfl⟩ hb ha
    have he : establishesId (decodeByte _ v) s := (hid.1 ha).resolve_left (by simp [hb])
    rw [establishesId_of_rowByte (rowByte_decodeByte _ v)] at he
    exact ⟨v, decodeByte_of_establishes rfl he, he.1⟩

/-- Settles O58: RESET keeps what it must; every other operation by `ExecStep.registerRules`, `ExecStep.syncSr` and
`ExecStep.keepsIdUnless`. -/
theorem registersAreWrittenByTheirRulesAlone : Obligations.RegistersAreWrittenByTheirRulesAlone := by
  intro i s t h
  by_cases hi : i = .reset
  · subst hi
    cases h
    exact ⟨.inr (.inl rfl), .inr (.inl rfl), .inr (.inl rfl), rfl, rfl, .inr (.inl rfl), .inr (.inl rfl), .inr (.inl rfl),
      fun _ _ => False.elim⟩
  have rules := (exec_step h).registerRules hi
  refine ⟨rules.cfgSr.imp_right .inr, rules.cfgBf.imp_right .inr, rules.lastEdge.imp_right .inr, rules.tieRule, rules.input,
    rules.crcPort.imp_right .inr, ((exec_step h).syncSr hi).imp_right .inr, ?_, fun hedge hframe he => ?_⟩
  · exact (exec_keepsIdUnless h hi).elim (fun h => .inr (.inr h.1)) (fun h => .inl h.2)
  · rcases (exec_step h).keepsIdUnless hi with (⟨-, taken⟩ | ⟨hne, -⟩) | ⟨hmany, -⟩
    · exact ⟨taken.fsm, taken.idTrack, taken.idSide, taken.idSector, taken.idSizeCode, taken.decodedSize, taken.idValid⟩
    · exact absurd he hne
    · rcases hmany with ⟨u, hu⟩ | ⟨w, u, hu⟩
      · exact absurd hu (hedge u)
      · exact absurd hu (hframe w u)

end Sys2Proof.Machine
end

section
/-!
THEOREMS. The bytes of BUF that the data field in progress has not written (10_state.md R30, 70_reset_and_hazards.md R321): two
states that differ at most there are driven alike by every path of every operation; O59.
-/

namespace Sys2Proof.Machine

/-- A state with another buffer. -/
def withBuffer (s : State) (m : List Host.Cell) : State := { s with buf := m }

/-- A buffer that agrees with a state's on the bytes the rules can still read. -/
def AgreesOnLive (m : List Host.Cell) (s : State) : Prop :=
  ∀ i < liveBytes s, Memory.read m i = Memory.read s.buf i

/-- `SameButUnwritten` in these terms. -/
theorem sameButUnwritten_iff {s s' : State} :
    SameButUnwritten s s' ↔ ∃ m, s' = withBuffer s m ∧ AgreesOnLive m s := by
  constructor
  · rintro ⟨he, hm⟩
    exact ⟨s'.buf, he, hm⟩
  · rintro ⟨m, rfl, hm⟩
    exact ⟨rfl, hm⟩

/-- Outside a data field no byte of BUF is live. -/
theorem agreesOnLive_of_not_inDataField {s : State} (h : inDataField s.fsm = false) (m : List Host.Cell) :
    AgreesOnLive m s := by
  intro i hi
  unfold liveBytes at hi
  split at hi <;> simp_all [inDataField]

/-- Two buffers that agree below an index agree up to it once the same byte is written there. -/
theorem Memory.read_write_agree {m m' : List Host.Cell} {n : Nat} (v : Byte) (hm : Memory.wf m) (hm' : Memory.wf m')
    (h : ∀ i < n, Memory.read m i = Memory.read m' i) :
    ∀ i < n + 1, Memory.read (Memory.write m n v) i = Memory.read (Memory.write m' n v) i := by
  intro i hi
  rcases Nat.lt_succ_iff_lt_or_eq.1 hi with hi | rfl
  · rw [Memory.read_write_ne _ _ _ _ hi.ne, Memory.read_write_ne _ _ _ _ hi.ne, h i hi]
  · rw [Memory.read_write_same _ _ _ hm.1, Memory.read_write_same _ _ _ hm'.1]

section Paths

variable {s : State} {m : List Host.Cell}

/-! ### Bytes -/

/-- A stored payload byte is live at once (43_sector_fsm.md R194). -/
theorem liveBytes_spCountByte (hf : s.fsm = .data) (hdue : s.dataIdx.toNat < s.dataN.toNat) (m : List Host.Cell) :
    liveBytes (spCountByte { s with buf := m }) = s.dataIdx.toNat + 1 := by
  rw [spCountByte_stored hf]
  by_cases hlast : s.dataIdx + 1 = s.dataN
  · simp only [liveBytes, if_pos hlast]
    bv_omega
  · simp only [liveBytes, if_neg hlast]
    bv_omega

theorem SpStep.drivesAlike {v : Byte} {t : State} (hs : SpStep v s t) (h : BlockInv s) (h' : BlockInv (withBuffer s m))
    (hm : AgreesOnLive m s) : ∃ m', SpStep v (withBuffer s m) (withBuffer t m') ∧ AgreesOnLive m' t := by
  cases hs with
  | none hf => exact ⟨m, .none hf, hm⟩
  | terminated hf => exact ⟨m, .terminated hf, hm⟩
  | amId hf hv => exact ⟨m, .amId hf hv, agreesOnLive_of_not_inDataField rfl m⟩
  | amData hf hv hid => exact ⟨m, .amData hf hv hid, fun _ hi => absurd hi (Nat.not_lt_zero _)⟩
  | amDataNoId hf hv hid => exact ⟨m, .amDataNoId hf hv hid, agreesOnLive_of_not_inDataField rfl m⟩
  | amOther hf hi hd => exact ⟨m, .amOther hf hi hd, agreesOnLive_of_not_inDataField rfl m⟩
  | idTrack hf => exact ⟨m, .idTrack hf, agreesOnLive_of_not_inDataField rfl m⟩
  | idSide hf => exact ⟨m, .idSide hf, agreesOnLive_of_not_inDataField rfl m⟩
  | idSector hf => exact ⟨m, .idSector hf, agreesOnLive_of_not_inDataField rfl m⟩
  | idSizeValid hf hv => exact ⟨m, .idSizeValid hf hv, agreesOnLive_of_not_inDataField rfl m⟩
  | idSizeInvalid hf hv => exact ⟨m, .idSizeInvalid hf hv, agreesOnLive_of_not_inDataField rfl m⟩
  | idCrcHi hf => exact ⟨m, .idCrcHi hf, agreesOnLive_of_not_inDataField rfl m⟩
  | idCrcLo hf =>
    have hstep := SpStep.idCrcLo (v := v) (s := withBuffer s m) hf
    rw [spIdCrcLo_eq] at hstep ⊢
    exact ⟨m, hstep, agreesOnLive_of_not_inDataField rfl m⟩
  | dataByte hf hi =>
    have hlive : liveBytes s = s.dataIdx.toNat := by simp [liveBytes, hf]
    have hread := Memory.read_write_agree v h'.bufCanonical h.bufCanonical fun i hi => hm i (hlive ▸ hi)
    refine ⟨Memory.write m s.dataIdx.toNat v, ?_, fun i hi => ?_⟩
    · have hstep := SpStep.dataByte (v := v) (s := withBuffer s m) hf hi
      rw [spCountByte_stored (s := withBuffer s m) hf] at hstep
      rw [spCountByte_stored hf]
      exact hstep
    · rw [liveBytes_spCountByte hf (h.dataInside hf)] at hi
      rw [spCountByte_stored hf]
      exact hread i hi
  | dataCrcHi hf => exact ⟨m, .dataCrcHi hf, fun i hi => hm i (by rw [liveBytes, hf]; exact hi)⟩
  | dataCrcLo hf hn =>
    have hslice : Memory.slice m s.dataN.toNat = Memory.slice s.buf s.dataN.toNat :=
      Memory.slice_congr _ _ _ fun i hi => hm i (by rw [liveBytes, hf]; exact hi)
    have hstep := SpStep.dataCrcLo (v := v) (s := withBuffer s m) hf hn
    rw [spRecord_eq] at hstep ⊢
    refine ⟨m, ?_, agreesOnLive_of_not_inDataField rfl m⟩
    rw [← hslice]
    exact hstep

/-! ### Cells -/

theorem clockCheck_withBuffer (b : Bool) (stop : Scaled) :
    clockCheck b stop (withBuffer s m) = withBuffer (clockCheck b stop s) m := by
  rw [clockCheck_eq, clockCheck_eq]
  rfl

theorem agreesOnLive_clockCheck (b : Bool) (stop : Scaled) (hm : AgreesOnLive m s) :
    AgreesOnLive m (clockCheck b stop s) := by
  rw [clockCheck_eq]
  exact hm

theorem DataStep.drivesAlike {b : Bool} {stop : Scaled} {t : State} (hs : DataStep b stop s t) (h : BlockInv s)
    (h' : BlockInv (withBuffer s m)) (hm : AgreesOnLive m s) :
    ∃ m', DataStep b stop (withBuffer s m) (withBuffer t m') ∧ AgreesOnLive m' t := by
  cases hs with
  | bit hn =>
    have hstep := DataStep.bit (b := b) (stop := stop) (s := withBuffer s m) hn
    rw [clockCheck_withBuffer] at hstep
    exact ⟨m, hstep, agreesOnLive_clockCheck b stop hm⟩
  | byte hn ht =>
    have h1' : BlockInv (withBuffer (takeBit b 0 (clockCheck b stop s)) m) := by
      have := (h'.clockCheck b stop).takeBit b 0
      rwa [clockCheck_withBuffer] at this
    obtain ⟨m', hstep, hm'⟩ := ht.drivesAlike ((h.clockCheck b stop).takeBit b 0) h1' (agreesOnLive_clockCheck b stop hm)
    exact ⟨m', .byte (s := withBuffer s m) hn (by rw [clockCheck_withBuffer]; exact hstep), hm'⟩

theorem CellStep.drivesAlike {c : BitCell} {t : State} (hs : CellStep c s t) (h : BlockInv s)
    (h' : BlockInv (withBuffer s m)) (hm : AgreesOnLive m s) :
    ∃ m', CellStep c (withBuffer s m) (withBuffer t m') ∧ AgreesOnLive m' t := by
  cases hs with
  | lock hl => exact ⟨m, .lock hl, agreesOnLive_of_not_inDataField rfl m⟩
  | noChunker hl ha => exact ⟨m, .noChunker hl ha, hm⟩
  | clock hl ha hp => exact ⟨m, .clock hl ha hp, hm⟩
  | data hl ha hp ht =>
    obtain ⟨m', hstep, hm'⟩ := ht.drivesAlike (h.shiftSync c.bit) (h'.shiftSync c.bit) hm
    exact ⟨m', .data (s := withBuffer s m) hl ha hp hstep, hm'⟩

theorem feedCells_drivesAlike {cs : List BitCell} {t : State} (ht : feedCells cs s = .next t) (h : BlockInv s)
    (h' : BlockInv (withBuffer s m)) (hm : AgreesOnLive m s) :
    ∃ m', feedCells cs (withBuffer s m) = .next (withBuffer t m') ∧ AgreesOnLive m' t := by
  induction cs generalizing s m with
  | nil =>
    cases ht
    exact ⟨m, rfl, hm⟩
  | cons c cs ih =>
    obtain ⟨u, hu, hrest⟩ := andThen_eq_next.1 ht
    have hcell := cellStep_eq_next.1 hu
    obtain ⟨mu, hcell', hmu⟩ := hcell.drivesAlike h h' hm
    obtain ⟨mt, hrest', hmt⟩ := ih hrest (h.cellStep hcell) (h'.cellStep hcell') hmu
    exact ⟨mt, andThen_eq_next.2 ⟨_, cellStep_eq_next.2 hcell', hrest'⟩, hmt⟩

/-! ### Operations -/

theorem ExecStep.drivesAlike {i : Instr} {t : State} (hs : ExecStep s i t) (h : BlockInv s)
    (h' : BlockInv (withBuffer s m)) (hm : AgreesOnLive m s) :
    ∃ m', ExecStep (withBuffer s m) i (withBuffer t m') ∧ AgreesOnLive m' t := by
  cases hs with
  | reset => exact ⟨[], .reset, agreesOnLive_of_not_inDataField rfl []⟩
  | cfgSr value he => exact ⟨m, .cfgSr value he, hm⟩
  | cfgBf value he => exact ⟨m, .cfgBf value he, hm⟩
  | endRun he =>
    refine ⟨m, .endRun he, agreesOnLive_of_not_inDataField ?_ m⟩
    simp only [endState, emit_fsm]
    split <;> rfl
  | afterEnd hi he => exact ⟨m, .afterEnd hi he, hm⟩
  | reserved hi => exact ⟨m, .reserved hi, hm⟩
  | rdreg index => exact ⟨m, .rdreg index, hm⟩
  | edgeUnconfigured u he hc => exact ⟨m, .edgeUnconfigured u he hc, hm⟩
  | edgeFirst u ha hp => exact ⟨m, .edgeFirst u ha hp, hm⟩
  | edgeDrop u ha hp hn => exact ⟨m, .edgeDrop u ha hp hn, hm⟩
  | edgeCells u ha hp hn hu =>
    obtain ⟨m', hu', hm'⟩ := feedCells_drivesAlike hu (h.edgeStart u) (h'.edgeStart u) hm
    exact ⟨m', .edgeCells u ha hp hn hu', hm'⟩
  | byte hv hu =>
    obtain ⟨m', hu', hm'⟩ := hu.drivesAlike h h' hm
    exact ⟨m', .byte hv hu', hm'⟩
  | cell c hu =>
    obtain ⟨m', hu', hm'⟩ := hu.drivesAlike h h' hm
    exact ⟨m', .cell c hu', hm'⟩
  | syncLock b stop => exact ⟨m, .syncLock b stop, agreesOnLive_of_not_inDataField rfl m⟩
  | mfmClockCell b start => exact ⟨m, .mfmClockCell b start, hm⟩
  | mfmDataCell b stop hu =>
    obtain ⟨m', hu', hm'⟩ := hu.drivesAlike h h' hm
    exact ⟨m', .mfmDataCell b stop hu', hm'⟩
  | byteFrame cells start hu =>
    obtain ⟨m', hu', hm'⟩ := feedCells_drivesAlike hu h h' hm
    exact ⟨m', .byteFrame cells start hu', hm'⟩
  | crcStep c x => exact ⟨m, .crcStep c x, hm⟩

end Paths

/-- Settles O59: the path taken at the one state is taken at the other (`ExecStep.drivesAlike`), and `withBuffer` keeps the
events. -/
theorem unwrittenBufferIsInvisible : Obligations.UnwrittenBufferIsInvisible := by
  intro i s s' t h h' hsame ht
  obtain ⟨m, rfl, hm⟩ := sameButUnwritten_iff.1 hsame
  obtain ⟨m', ht', hm'⟩ := (exec_step ht).drivesAlike h h' hm
  exact ⟨withBuffer t m', ht'.exec, rfl, sameButUnwritten_iff.2 ⟨m', rfl, hm'⟩⟩

end Sys2Proof.Machine
end

section
/-!
THEOREMS. What cells and edges leave alone (20_memory.md, 42_sync_and_clock.md, 41_flux_demodulator.md): the byte of BUF a cell
stores to and no other, the events of one cell, and the frame of an EDGE; O23, O29 and O30.
-/

namespace Sys2Proof.Machine

/-! ### Stores into BUF -/

/-- A byte writes BUF in DATA alone (43_sector_fsm.md R194). -/
theorem SpStep.buf {v : Byte} {s t : State} (h : SpStep v s t) :
    t.buf = s.buf ∨ s.fsm = .data ∧ t.buf = Memory.write s.buf s.dataIdx.toNat v := by
  cases h with
  | dataByte hf => exact .inr ⟨hf, by rw [spCountByte_stored hf]⟩
  | idCrcLo => exact .inl (by rw [spIdCrcLo_eq])
  | dataCrcLo => exact .inl (by rw [spRecord_eq])
  | amDataNoId | amOther | idSizeInvalid => exact .inl (abortParse_buf _ s)
  | none | terminated | amId | amData | idTrack | idSide | idSector | idSizeValid | idCrcHi | dataCrcHi => exact .inl rfl

theorem SpStep.read {v : Byte} {s t : State} (h : SpStep v s t) {j : Nat} (hj : byteStore s ≠ some j) :
    Memory.read t.buf j = Memory.read s.buf j := by
  rcases h.buf with hb | ⟨hf, hb⟩
  · rw [hb]
  · rw [byteStore, if_pos hf] at hj
    rw [hb, Memory.read_write_ne _ _ _ _ fun h => hj (congrArg some h.symm)]

theorem DataStep.read {b : Bool} {stop : Scaled} {s t : State} (h : DataStep b stop s t) {j : Nat}
    (hj : dataCellStore s ≠ some j) : Memory.read t.buf j = Memory.read s.buf j := by
  cases h with
  | bit => simp
  | byte hn ht =>
    rw [dataCellStore, if_pos hn] at hj
    refine (ht.read ?_).trans (by simp)
    simpa [byteStore] using hj

theorem CellStep.read {c : BitCell} {s t : State} (h : CellStep c s t) {j : Nat} (hj : cellStore c.bit s ≠ some j) :
    Memory.read t.buf j = Memory.read s.buf j := by
  cases h with
  | lock => simp
  | noChunker | clock => rfl
  | data hne ha hp ht =>
    rw [cellStore, if_pos ⟨hne, ha, hp⟩] at hj
    exact ht.read hj

theorem feedCells_read {cs : List BitCell} {s t : State} (h : feedCells cs s = .next t) {j : Nat}
    (hj : j ∉ cellStores cs s) : Memory.read t.buf j = Memory.read s.buf j := by
  induction cs generalizing s with
  | nil =>
    cases h
    rfl
  | cons c cs ih =>
    obtain ⟨u, hu, hrest⟩ := andThen_eq_next.1 h
    simp only [cellStores, hu, List.mem_append, not_or, Option.mem_toList] at hj
    obtain ⟨hfirst, hlater⟩ := hj
    exact (ih hrest hlater).trans ((cellStep_eq_next.1 hu).read hfirst)

/-! ### The events of a cell (60_exceptions.md R289) -/

/-- The list holds at most one event, of a kind from `lo` to `hi`. -/
def AtMostOne (lo hi : Nat) (evs : List Event) : Prop :=
  evs.length ≤ 1 ∧ ∀ e ∈ evs, lo ≤ (eventKind e).toNat ∧ (eventKind e).toNat ≤ hi

theorem AtMostOne.nil (lo hi : Nat) : AtMostOne lo hi [] := ⟨Nat.zero_le 1, by simp⟩

theorem AtMostOne.singleton {lo hi : Nat} {e : Event} (h : lo ≤ (eventKind e).toNat ∧ (eventKind e).toNat ≤ hi) :
    AtMostOne lo hi [e] := ⟨le_rfl, by simpa using h⟩

/-- A byte emits at most one event, BAD_AM to REC. -/
theorem SpStep.events {v : Byte} {s t : State} (h : SpStep v s t) : ∃ evs, t.out = s.out ++ evs ∧ AtMostOne 4 8 evs := by
  have silent {t : State} (hout : t.out = s.out) : ∃ evs, t.out = s.out ++ evs ∧ AtMostOne 4 8 evs :=
    ⟨[], by simp [hout], .nil 4 8⟩
  have one {t : State} (e : Event) (hout : t.out = s.out ++ [e])
      (hk : 4 ≤ (eventKind e).toNat ∧ (eventKind e).toNat ≤ 8) : ∃ evs, t.out = s.out ++ evs ∧ AtMostOne 4 8 evs :=
    ⟨[e], hout, .singleton hk⟩
  cases h with
  | amDataNoId => exact one .dataNoId (by rw [spAmDataNoId, abortParse_eq]) (by decide)
  | amOther => exact one (.badAm v) (by rw [spAmOther, abortParse_eq]) (by simp [eventKind])
  | idSizeInvalid => exact one (.badSize v) (by rw [spIdSizeInvalid, abortParse_eq]) (by simp [eventKind])
  | idCrcLo =>
    by_cases hcrc : foundCrc s.crcHi v = computedIdCrc s
    · exact silent (by rw [spIdCrcLo_match hcrc]; rfl)
    · exact one _ (by rw [spIdCrcLo_mismatch hcrc]; rfl) (by simp [eventKind])
  | dataByte hf => exact silent (by rw [spCountByte_stored hf])
  | dataCrcLo => exact one _ (by rw [spRecord_eq]) (by simp [eventKind, recordOf])
  | none | terminated | amId | amData | idTrack | idSide | idSector | idSizeValid | idCrcHi | dataCrcHi =>
    exact silent rfl

/-- The clock check emits at most one CLKERR. -/
theorem clockCheck_events (b : Bool) (stop : Scaled) (s : State) :
    ∃ evs, (clockCheck b stop s).out = s.out ++ evs ∧ AtMostOne 3 3 evs := by
  rw [clockCheck_eq]
  simp only
  split
  · exact ⟨[], (List.append_nil _).symm, .nil 3 3⟩
  · exact ⟨_, rfl, .singleton (by simp [eventKind])⟩

/-- A data cell emits at most one CLKERR and then at most one event of the parser. -/
theorem DataStep.events {b : Bool} {stop : Scaled} {s t : State} (h : DataStep b stop s t) :
    ∃ clk sp, t.out = s.out ++ clk ++ sp ∧ AtMostOne 3 3 clk ∧ AtMostOne 4 8 sp := by
  obtain ⟨clk, hout, hclk⟩ := clockCheck_events b stop s
  cases h with
  | bit => exact ⟨clk, [], by rw [takeBit_out, hout, List.append_nil], hclk, .nil 4 8⟩
  | byte _ ht =>
    obtain ⟨sp, hout', hsp⟩ := ht.events
    exact ⟨clk, sp, by rw [hout', takeBit_out, hout], hclk, hsp⟩

/-! ### The frame of an EDGE -/

/-- ORDER_ERR is set exactly by an accepted edge not above PREV (41_flux_demodulator.md R127). -/
theorem ExecStep.edge_orderErr {t : Timestamp} {s u : State} (h : ExecStep s (.edge t) u) :
    u.orderErr =
      (s.orderErr || decide (s.ended = false ∧ s.cfgSr ≠ 0 ∧ s.cfgBf ≠ 0 ∧ s.havePrev = true ∧ t.toNat ≤ s.prev.toNat)) := by
  have closes (ha : accepts s) (hp : s.havePrev = true) : (edgeStart t s).orderErr = (s.orderErr ||
      decide (s.ended = false ∧ s.cfgSr ≠ 0 ∧ s.cfgBf ≠ 0 ∧ s.havePrev = true ∧ t.toNat ≤ s.prev.toNat)) := by
    obtain ⟨he, hsr, hbf⟩ := ha
    simp only [edgeStart, gapDelta_le_zero_iff, he, hsr, hbf, hp, ne_eq, not_false_eq_true, true_and]
  cases h with
  | afterEnd _ he => simp [he]
  | reserved hop => simp [reservedWord] at hop
  | byte hv => cases hv
  | edgeUnconfigured _ _ hc => rcases hc with hc | hc <;> simp [hc]
  | edgeFirst _ _ hp => simp [hp]
  | edgeDrop _ ha hp => exact closes ha hp
  | edgeCells _ ha hp _ hu => exact (feedCells_frame hu).orderErr.trans (closes ha hp)

/-- Only the cells of the gap store into BUF. -/
theorem ExecStep.edge_read {t : Timestamp} {s u : State} (h : ExecStep s (.edge t) u) {j : Nat}
    (hj : j ∉ edgeStores t s) : Memory.read u.buf j = Memory.read s.buf j := by
  cases h with
  | reserved hop => simp [reservedWord] at hop
  | byte hv => cases hv
  | edgeCells _ _ _ _ hu => exact feedCells_read hu hj
  | afterEnd | edgeUnconfigured | edgeFirst | edgeDrop => rfl

/-! ### The obligations -/

/-- Settles O23: the registers by `ExecStep.registerRules`, the events by `Counted.exec`, BUF by `ExecStep.edge_read`. -/
theorem edgeFrame : Obligations.EdgeFrame := by
  intro s t u h
  have hs := exec_step h
  have rules := hs.registerRules nofun
  obtain ⟨evs, hout, -⟩ := Counted.exec hs nofun
  refine ⟨rules.tieRule, rules.cfgSr.resolve_right nofun, rules.cfgBf.resolve_right nofun,
    rules.ended.resolve_right nofun, rules.crcPort.resolve_right (by simp), rules.input, fun he => ?_, fun hc => ?_,
    hs.edge_orderErr, ⟨evs, hout⟩, fun j => hs.edge_read⟩
  · exact rules.cmdErr.resolve_right (by simp [reservedWord, he])
  · exact rules.cfgErr.resolve_right fun ⟨_, _, he, h0⟩ =>
      hc.elim (by simp [he]) fun ⟨hsr, hbf⟩ => h0.elim hsr hbf

/-- Settles O29: the cell that completes the pattern is a lock, and of the others only a data cell emits
(`DataStep.events`). -/
theorem cellEmitsAtMostTwoEvents : Obligations.CellEmitsAtMostTwoEvents := by
  intro b start stop s u h
  simp only [← shiftIn_eq]
  refine ⟨fun hl => ?_, fun hne => ?_⟩
  · cases (exec_cell_lock hl).symm.trans h
    simp
  · obtain ⟨clk, sp, hout, hclk, hsp⟩ : ∃ clk sp, u.out = s.out ++ clk ++ sp ∧ AtMostOne 3 3 clk ∧ AtMostOne 4 8 sp := by
      have hs : CellStep ⟨b, start, stop⟩ s u := cellStep_eq_next.1 h
      cases hs with
      | lock hl => exact absurd hl hne
      | noChunker | clock => exact ⟨[], [], by simp, .nil 3 3, .nil 4 8⟩
      | data _ _ _ ht => exact ht.events
    exact ⟨clk, sp, hout, hclk.1, hsp.1, fun e he => BitVec.eq_of_toNat_eq (Nat.le_antisymm (hclk.2 e he).2 (hclk.2 e he).1),
      hsp.2⟩

/-- Settles O30: the frames of a cell, a data cell and a sequence of cells, and where they store. -/
theorem cellFrames : Obligations.CellFrames := by
  refine ⟨fun b start stop s u h => ?_, fun b stop s u h => ?_, fun cells start s u h => ?_⟩
  · have hs : CellStep ⟨b, start, stop⟩ s u := cellStep_eq_next.1 h
    exact ⟨hs.frame, fun j => hs.read⟩
  · have hs := dataCell_eq_next.1 h
    exact ⟨hs.frame, fun j => hs.read⟩
  · exact ⟨feedCells_frame h, fun j => feedCells_read h⟩

end Sys2Proof.Machine
end

section
/-!
THEOREMS. The cells of a gap (41_flux_demodulator.md R123 to R125, R130): from the rounding of the cell count, the bounds that
keep every scaled time exact and the cells adjacent; O21 and O22.
-/

namespace Sys2Proof.Machine

section Gap

variable {tie : TieRule} {sr bf : Word32} {prev t : Timestamp} {p i : Nat}

/-- A gap is within half a nominal cell of `p` nominal cells (41_flux_demodulator.md R122, R123). -/
structure GapOf (sr bf : Word32) (prev t : Timestamp) (p : Nat) : Prop where
  nominal_pos : 0 < sr.toNat
  low : 2 * (prev.toNat * bf.toNat + p * sr.toNat) ≤ 2 * (t.toNat * bf.toNat) + sr.toNat
  high : 2 * (t.toNat * bf.toNat) ≤ 2 * (prev.toNat * bf.toNat + p * sr.toNat) + sr.toNat

theorem gapOf_cellCount (hsr : sr ≠ 0) (hp : 0 < cellCount tie sr bf prev t) :
    GapOf sr bf prev t (cellCount tie sr bf prev t).toNat := by
  have hpos : 0 < sr.toNat := BitVec.toNat_pos_of_ne_zero hsr
  obtain ⟨hlow, hhigh, -⟩ := roundT_nearest tie (gapDelta prev t * bf.toNat) hpos
  have hcount : ((cellCount tie sr bf prev t).toNat : Int) = cellCount tie sr bf prev t := Int.toNat_of_nonneg hp.le
  rw [← cellCount, ← hcount, gapDelta, Int.sub_mul] at hlow hhigh
  exact ⟨hpos, by zify; omega, by zify; omega⟩

namespace GapOf

variable (h : GapOf sr bf prev t p)
include h

/-- Each cell starts at least half a nominal cell before the closing edge. -/
theorem start_before_edge (hi : i < p) : 2 * (prev.toNat * bf.toNat + i * sr.toNat) + sr.toNat ≤ 2 * (t.toNat * bf.toNat) := by
  have hle : (i + 1) * sr.toNat ≤ p * sr.toNat := Nat.mul_le_mul_right _ hi
  have hlow := h.low
  rw [Nat.succ_mul] at hle
  omega

/-- No start of a cell overflows 96 bits (00_scope.md R8). -/
theorem start_toNat (hi : i < p) : (gapCell sr bf prev t p i).start.toNat = prev.toNat * bf.toNat + i * sr.toNat := by
  have hstart := h.start_before_edge hi
  have hedge := scaled_lt t bf
  exact Nat.mod_eq_of_lt (by omega)

/-- No end of a cell overflows 96 bits; the last cell ends at the edge (41_flux_demodulator.md R125). -/
theorem stop_toNat :
    (gapCell sr bf prev t p i).stop.toNat =
      if i + 1 < p then prev.toNat * bf.toNat + (i + 1) * sr.toNat else t.toNat * bf.toNat := by
  have hedge := scaled_lt t bf
  unfold gapCell
  split
  · have hstart := h.start_before_edge ‹i + 1 < p›
    exact Nat.mod_eq_of_lt (by omega)
  · exact Nat.mod_eq_of_lt hedge

/-- Every cell but the last is nominal. -/
theorem length_nominal (hi : i + 1 < p) :
    (gapCell sr bf prev t p i).stop.toNat = (gapCell sr bf prev t p i).start.toNat + sr.toNat := by
  rw [h.stop_toNat, if_pos hi, h.start_toNat (Nat.lt_of_succ_lt hi), Nat.succ_mul, Nat.add_assoc]

/-- The last cell is between half and one and a half nominal cells long (41_flux_demodulator.md R130 (b)). -/
theorem length_last (hi : i + 1 = p) :
    sr.toNat ≤ 2 * ((gapCell sr bf prev t p i).stop.toNat - (gapCell sr bf prev t p i).start.toNat) ∧
      2 * ((gapCell sr bf prev t p i).stop.toNat - (gapCell sr bf prev t p i).start.toNat) ≤ 3 * sr.toNat := by
  have hlow := h.start_before_edge (i := i) (by omega)
  have hhigh := h.high
  rw [h.stop_toNat, if_neg (by omega), h.start_toNat (by omega)]
  rw [← hi, Nat.add_one_mul i] at hhigh
  omega

theorem start_lt_stop (hi : i < p) : (gapCell sr bf prev t p i).start.toNat < (gapCell sr bf prev t p i).stop.toNat := by
  have hpos := h.nominal_pos
  rcases Nat.lt_or_eq_of_le (Nat.succ_le_of_lt hi) with hi' | hi'
  · rw [h.length_nominal hi']
    omega
  · have := (h.length_last hi').1
    omega

end GapOf

theorem gapCells_getElem? (hi : i < p) : (gapCells sr bf prev t p)[i]? = some (gapCell sr bf prev t p i) := by
  simp [gapCells, hi]

theorem gapCells_succ (q : Nat) :
    gapCells sr bf prev t (q + 1) = (List.range q).map (gapCell sr bf prev t (q + 1)) ++ [gapCell sr bf prev t (q + 1) q] := by
  rw [gapCells, List.range_succ, List.map_append, List.map_singleton]

/-- One 1 first and then zeros (41_flux_demodulator.md R124). -/
theorem gapCells_bits (q : Nat) : (gapCells sr bf prev t (q + 1)).map BitCell.bit = true :: List.replicate q false := by
  simp [gapCells, List.range_succ_eq_map, gapCell, Function.comp_def, List.map_const']

/-- The lengths of the cells sum to the gap: all but the last are nominal, and the last takes the rest. -/
theorem GapOf.sum_lengths {q : Nat} (h : GapOf sr bf prev t (q + 1)) :
    ((gapCells sr bf prev t (q + 1)).map fun c => c.stop.toNat - c.start.toNat).sum =
      (t.toNat - prev.toNat) * bf.toNat := by
  have hnominal : ∀ i ∈ List.range q,
      ((fun c : BitCell => c.stop.toNat - c.start.toNat) ∘ gapCell sr bf prev t (q + 1)) i = sr.toNat := fun i hi => by
    have hi : i + 1 < q + 1 := Nat.succ_lt_succ (List.mem_range.1 hi)
    simp only [Function.comp_apply, h.length_nominal hi, Nat.add_sub_cancel_left]
  have hlast := h.start_before_edge (Nat.lt_succ_self q)
  rw [gapCells_succ, List.map_append, List.map_map, List.map_congr_left hnominal, List.sum_append, List.map_const',
    List.length_range, List.sum_replicate, smul_eq_mul, List.map_singleton, List.sum_singleton, h.stop_toNat,
    if_neg (lt_irrefl _), h.start_toNat (Nat.lt_succ_self q), Nat.sub_mul]
  omega

end Gap

/-- A gap of a whole number of nominal cells rounds to that number (41_flux_demodulator.md R130 (d)). -/
theorem cellCount_whole (tie : TieRule) {sr bf : Word32} {prev t : Timestamp} {k : Nat} (hsr : sr ≠ 0)
    (h : t.toNat * bf.toNat = prev.toNat * bf.toNat + k * sr.toNat) : cellCount tie sr bf prev t = k := by
  have hpos : 0 < sr.toNat := BitVec.toNat_pos_of_ne_zero hsr
  have hq : gapDelta prev t * bf.toNat = k * sr.toNat := by
    rw [gapDelta, Int.sub_mul]
    zify at h
    omega
  rw [cellCount, hq, roundT_below (by rw [Int.mul_emod_left]; omega), Int.mul_ediv_cancel _ (by omega)]

theorem gapOf_whole {sr bf : Word32} {prev t : Timestamp} {k : Nat} (hsr : sr ≠ 0)
    (h : t.toNat * bf.toNat = prev.toNat * bf.toNat + k * sr.toNat) : GapOf sr bf prev t k :=
  ⟨BitVec.toNat_pos_of_ne_zero hsr, by omega, by omega⟩

/-! ### The obligations -/

/-- Settles O21: `gapOf_cellCount` bounds the gap, and the lengths of the cells are read off their ends. -/
theorem gapCellsTileTheGap : Obligations.GapCellsTileTheGap := by
  intro tie sr bf prev t hsr hp
  have h := gapOf_cellCount hsr hp
  obtain ⟨q, hq⟩ : ∃ q, (cellCount tie sr bf prev t).toNat = q + 1 := Nat.exists_eq_succ_of_ne_zero (by omega)
  simp only [hq] at h ⊢
  refine ⟨gapCells_bits q, fun i hi => ⟨_, gapCells_getElem? hi, h.start_toNat hi, h.stop_toNat, h.start_lt_stop hi⟩, fun c hc => ?_,
    h.sum_lengths⟩
  · rw [gapCells_succ, List.getLast?_concat] at hc
    cases hc
    exact h.length_last rfl

/-- Settles O22: the cell count is `cellCount_whole`, and the last cell of a whole gap is nominal too. -/
theorem wholeGapsNeedNoRounding : Obligations.WholeGapsNeedNoRounding := by
  intro tie sr bf prev t k hsr _ hk
  have h := gapOf_whole hsr hk
  refine ⟨cellCount_whole tie hsr hk, fun i hi => ⟨_, gapCells_getElem? hi, ?_⟩⟩
  rcases Nat.lt_or_eq_of_le (Nat.succ_le_of_lt hi) with hi' | rfl
  · exact h.length_nominal hi'
  · rw [h.stop_toNat, if_neg (lt_irrefl _), h.start_toNat hi, hk, Nat.succ_mul, Nat.add_assoc]

end Sys2Proof.Machine
end

section
/-!
THEOREMS. The pseudo-instruction CELLS (30_encoding.md R101): cells are performed alike whatever PREV holds, each of its gaps is
a 1 and zeros of nominal cells, and so its edges perform the cells written in it; O60.
-/

namespace Sys2Proof.Machine

/-! ### Cells do not read PREV -/

/-- A state with another PREV. -/
def withPrev (p : Timestamp) (s : State) : State := { s with prev := p }

/-- An operation performed alike whatever PREV holds, and that leaves it. -/
def IgnoresPrev (f : State → Result) : Prop :=
  ∀ p s, f (withPrev p s) = andThen (f s) fun t => .next (withPrev p t)

theorem andThen_ite (c : Prop) [Decidable c] (o o' : Result) (f : State → Result) :
    andThen (if c then o else o') f = if c then andThen o f else andThen o' f :=
  apply_ite (andThen · f) c o o'

theorem spByte_ignoresPrev (v : Byte) : IgnoresPrev (spByte v) := by
  intro p s
  have hfsm : (withPrev p s).fsm = s.fsm := rfl
  cases h : s.fsm <;> simp only [spByte, hfsm, h]
  case addressMark =>
    split
    · rfl
    split
    · rw [show (withPrev p s).idValid = s.idValid from rfl]
      split <;> rfl
    · rfl
  case idSize => split <;> rfl
  case idCrcLo =>
    rw [spIdCrcLo_eq, spIdCrcLo_eq]
    rfl
  case data =>
    simp only [spDataByte, bufWrite, andThen_ite, andThen_next, andThen_fault, spCountByte_stored h,
      spCountByte_stored (s := withPrev p s) h]
    rfl
  case dataCrcLo =>
    simp only [spDataCrcLo, withBuf, spRecord_eq, andThen_ite, andThen_next, andThen_fault]
    rfl
  all_goals rfl

theorem dataCell_ignoresPrev (b : Bool) (stop : Scaled) : IgnoresPrev (dataCell b stop) := by
  intro p s
  have hcheck : clockCheck b stop (withPrev p s) = withPrev p (clockCheck b stop s) := by
    rw [clockCheck_eq, clockCheck_eq]
    rfl
  rw [dataCell, dataCell, hcheck]
  generalize clockCheck b stop s = s1
  by_cases hn : s1.chNbits = 7
  · rw [assembleBit, if_pos (show (withPrev p s1).chNbits = 7 from hn), assembleBit, if_pos hn]
    exact spByte_ignoresPrev _ p (takeBit b 0 s1)
  · rw [assembleBit, if_neg (show (withPrev p s1).chNbits ≠ 7 from hn), assembleBit, if_neg hn]
    rfl

theorem cellStep_ignoresPrev (c : BitCell) : IgnoresPrev (cellStep c) := by
  intro p s
  have hsync : (withPrev p s).syncSr = s.syncSr := rfl
  have hactive : (withPrev p s).chActive = s.chActive := rfl
  have hphase : (withPrev p s).chPhase = s.chPhase := rfl
  unfold cellStep
  rw [hsync, hactive, hphase]
  split
  · rw [lockStep_eq, lockStep_eq]
    rfl
  split
  · rfl
  split
  · rfl
  · exact dataCell_ignoresPrev _ _ p (shiftSync c.bit s)

theorem feedCells_ignoresPrev (cs : List BitCell) : IgnoresPrev (feedCells cs) := by
  intro p s
  induction cs generalizing s with
  | nil => rfl
  | cons c cs ih =>
    rw [feedCells_cons, feedCells_cons, cellStep_ignoresPrev c p s, andThen_assoc, andThen_assoc]
    exact congrArg _ (funext ih)

/-! ### The cells written in a CELLS line -/

/-- Cell `i` of a line with value `b`: one cell of `k` samples, in scaled time (30_encoding.md R101). -/
def writtenCell (t0 k : Nat) (bf : Word32) (b : Bool) (i : Nat) : BitCell where
  bit := b
  start := BitVec.ofNat 96 ((t0 + k * i) * bf.toNat)
  stop := BitVec.ofNat 96 ((t0 + k * (i + 1)) * bf.toNat)

/-- The cells of a line from cell `n` on. -/
def writtenCells (t0 k : Nat) (bf : Word32) (n : Nat) (bits : List Bool) : List BitCell :=
  bits.mapIdx fun i b => writtenCell t0 k bf b (n + i)

theorem writtenCells_append (t0 k : Nat) (bf : Word32) (n : Nat) (xs ys : List Bool) :
    writtenCells t0 k bf n (xs ++ ys) = writtenCells t0 k bf n xs ++ writtenCells t0 k bf (n + xs.length) ys := by
  simp only [writtenCells, List.mapIdx_append, Nat.add_assoc, Nat.add_comm xs.length]

/-- The EDGEs of a line from cell `n` on: one for each 1, and one at the end (30_encoding.md R101). -/
def edgesFrom (t0 k n : Nat) (bits : List Bool) : List Instr :=
  ((onesFrom n bits).map (fun i => t0 + k * i) ++ [t0 + k * (n + bits.length)]).map fun t => .edge (BitVec.ofNat 64 t)

section Line

variable {t0 k : Nat} {s : State}

/-- The gap from a 1 over `z` zeros: the cells as they are written. -/
theorem gapCells_written {sr bf : Word32} {prev t : Timestamp} (hk : sr.toNat = k * bf.toNat) {n z : Nat}
    (hprev : prev.toNat = t0 + k * n) (ht : t.toNat = t0 + k * (n + (z + 1))) :
    gapCells sr bf prev t (z + 1) = writtenCells t0 k bf n (true :: List.replicate z false) := by
  apply List.ext_getElem
  · simp [gapCells, writtenCells]
  · intro i hi hi'
    have hi : i < z + 1 := by simpa [gapCells] using hi
    have hbit : (true :: List.replicate z false)[i]'(by simpa using hi) = (i == 0) := by cases i <;> simp
    have hscaled (j : Nat) : prev.toNat * bf.toNat + j * sr.toNat = (t0 + k * (n + j)) * bf.toNat := by
      rw [hprev, hk]
      ring
    have hend : ¬i + 1 < z + 1 → t.toNat * bf.toNat = (t0 + k * (n + i + 1)) * bf.toNat := fun hlast => by
      rw [ht, show n + (z + 1) = n + i + 1 by omega]
    simp only [gapCells, writtenCells, List.getElem_map, List.getElem_range, List.getElem_mapIdx, gapCell, writtenCell,
      hbit, hscaled]
    split
    · rfl
    · rw [hend ‹_›]

theorem written_lt (hk : 0 < k) (n z : Nat) : t0 + k * n < t0 + k * (n + (z + 1)) :=
  Nat.add_lt_add_left (Nat.mul_lt_mul_of_pos_left (by omega) hk) t0

/-- An EDGE that closes such a gap performs its cells. -/
theorem execEdge_written (ha : accepts s) (hp : s.havePrev = true) (hk : s.cfgSr.toNat = k * s.cfgBf.toNat) {n z : Nat}
    {t : Timestamp} (hprev : s.prev.toNat = t0 + k * n) (ht : t.toNat = t0 + k * (n + (z + 1))) :
    execEdge t s = feedCells (writtenCells t0 k s.cfgBf n (true :: List.replicate z false)) (withPrev t s) := by
  obtain ⟨he, hsr, hbf⟩ := ha
  have hk0 : 0 < k := Nat.pos_of_mul_pos_right (hk ▸ BitVec.toNat_pos_of_ne_zero hsr)
  have hcount : cellCount s.tieRule s.cfgSr s.cfgBf s.prev t = (z + 1 : Nat) :=
    cellCount_whole s.tieRule hsr (by rw [hk, hprev, ht]; ring)
  have hstart : edgeStart t s = withPrev t s := by
    have hlt : ¬t.toNat ≤ s.prev.toNat := by
      rw [hprev, ht]
      exact not_le.2 (written_lt hk0 n z)
    simp only [edgeStart, gapDelta_le_zero_iff, hlt, decide_false, Bool.or_false, withPrev]
  rw [execEdge_cells ⟨he, hsr, hbf⟩ hp (by rw [hcount]; omega), edgeCells, if_pos ⟨he, hsr, hbf, hp⟩, hcount, hstart,
    Int.toNat_natCast, gapCells_written hk hprev ht]

theorem edgesFrom_cons_true (n : Nat) (bits : List Bool) :
    edgesFrom t0 k n (true :: bits) = .edge (BitVec.ofNat 64 (t0 + k * n)) :: edgesFrom t0 k (n + 1) bits := by
  simp only [edgesFrom, onesFrom, if_true, List.map_cons, List.cons_append, List.length_cons]
  rw [show n + (bits.length + 1) = n + 1 + bits.length by omega]

theorem edgesFrom_cons_false (n : Nat) (bits : List Bool) :
    edgesFrom t0 k n (false :: bits) = edgesFrom t0 k (n + 1) bits := by
  simp only [edgesFrom, onesFrom, Bool.false_eq_true, if_false, List.length_cons]
  rw [show n + (bits.length + 1) = n + 1 + bits.length by omega]

/-- The EDGEs after a 1 at cell `n` and `z` zeros perform those cells and the rest of the line. -/
theorem execAll_edgesFrom (bits : List Bool) {n z : Nat} (ha : accepts s) (hp : s.havePrev = true)
    (hk : s.cfgSr.toNat = k * s.cfgBf.toNat) (hprev : s.prev.toNat = t0 + k * n)
    (hlt : t0 + k * (n + (z + 1) + bits.length) < 2 ^ 64) :
    execAll (edgesFrom t0 k (n + (z + 1)) bits) s =
      feedCells (writtenCells t0 k s.cfgBf n (true :: List.replicate z false ++ bits))
        (withPrev (BitVec.ofNat 64 (t0 + k * (n + (z + 1) + bits.length))) s) := by
  induction bits generalizing s n z with
  | nil =>
    have ht : (BitVec.ofNat 64 (t0 + k * (n + (z + 1)))).toNat = t0 + k * (n + (z + 1)) := Nat.mod_eq_of_lt hlt
    rw [List.append_nil]
    exact (andThen_next_right _).trans (execEdge_written ha hp hk hprev ht)
  | cons b bits ih =>
    rw [List.length_cons] at hlt ⊢
    cases b with
    | false =>
      have hend : n + (z + 1) + (bits.length + 1) = n + (z + 1 + 1) + bits.length := by omega
      have hzeros : true :: List.replicate z false ++ false :: bits = true :: List.replicate (z + 1) false ++ bits := by
        simp [List.replicate_succ']
      rw [edgesFrom_cons_false, hzeros, hend]
      exact ih ha hp hk hprev (hend ▸ hlt)
    | true =>
      have ht : (BitVec.ofNat 64 (t0 + k * (n + (z + 1)))).toNat = t0 + k * (n + (z + 1)) :=
        Nat.mod_eq_of_lt ((Nat.add_le_add_left (Nat.mul_le_mul_left k (Nat.le_add_right _ _)) t0).trans_lt hlt)
      have hedge : exec (.edge _) s = _ := execEdge_written ha hp hk hprev ht
      rw [edgesFrom_cons_true, execAll, hedge, writtenCells_append, feedCells_append, feedCells_ignoresPrev,
        feedCells_ignoresPrev, andThen_assoc, andThen_assoc]
      cases hcells : feedCells (writtenCells t0 k s.cfgBf n (true :: List.replicate z false)) s with
      | fault r => rfl
      | refused r => rfl
      | next v =>
        have hframe := feedCells_frame hcells
        have hend : n + (z + 1) + (bits.length + 1) = n + (z + 1) + (0 + 1) + bits.length := by omega
        have hline := ih (s := withPrev (BitVec.ofNat 64 (t0 + k * (n + (z + 1)))) v) (z := 0)
          (by simpa only [accepts, withPrev, hframe.ended, hframe.cfgSr, hframe.cfgBf] using ha)
          (hframe.havePrev.trans hp) (by simpa only [withPrev, hframe.cfgSr, hframe.cfgBf] using hk) ht (hend ▸ hlt)
        rw [List.length_cons, List.length_replicate, hend, ← hframe.cfgBf]
        exact hline

end Line

/-- The transactions of a CELLS line that assembles. -/
theorem asmWords_cells {t0 k : Nat} {bits : List Bool} {ws : List HostWord} (h : asmWords (.cells t0 k bits) = .ok ws) :
    ∃ rest, bits = true :: rest ∧ t0 + k * bits.length < 2 ^ 64 ∧ ws.map decodeHost = edgesFrom t0 k 0 bits := by
  simp only [asmWords] at h
  split_ifs at h with hk hhead hlt
  cases h
  have hword (t : Timestamp) : (hostWords (.edge t)).map decodeHost = [.edge t] :=
    congrArg (· :: []) (decode_hostWord_edge tableContext t)
  refine ⟨bits.tail, List.eq_cons_of_mem_head? (not_not.1 hhead), not_le.1 hlt, ?_⟩
  simp only [List.map_flatMap, hword, edgesFrom, cellsEdges, Nat.zero_add]
  exact List.map_eq_flatMap.symm

/-- The cells of a line as the CELL operations R101 names. -/
theorem cellInstrs_writtenCells (t0 k : Nat) (bf : Word32) (bits : List Bool) :
    cellInstrs (writtenCells t0 k bf 0 bits) =
      (List.range bits.length).map fun i =>
        Instr.cell (bits.getD i false) (BitVec.ofNat 96 ((t0 + k * i) * bf.toNat))
          (BitVec.ofNat 96 ((t0 + k * (i + 1)) * bf.toNat)) := by
  apply List.ext_getElem
  · simp [cellInstrs, writtenCells]
  · intro i hi hi'
    have hi : i < bits.length := by simpa using hi'
    simp [cellInstrs, writtenCells, writtenCell, List.getElem?_eq_getElem hi]

/-- Settles O60: the first EDGE is recorded, and the others perform the cells of the line (`execAll_edgesFrom`). -/
theorem cellsPseudoInstructionMakesItsCells : Obligations.CellsPseudoInstructionMakesItsCells := by
  intro s t0 k bits ws ha hp hk hws
  obtain ⟨rest, rfl, hlt, hedges⟩ := asmWords_cells hws
  have hfirst : exec (.edge (BitVec.ofNat 64 (t0 + k * 0))) s = _ := execEdge_first _ ha hp
  have hlen : (true :: rest).length = 0 + (0 + 1) + rest.length := by rw [List.length_cons]; omega
  have hfits : (BitVec.ofNat 64 (t0 + k * 0)).toNat = t0 + k * 0 := Nat.mod_eq_of_lt (by omega)
  rw [hedges, edgesFrom_cons_true, execAll, hfirst, andThen_next, ← cellInstrs_writtenCells, execAll_cellInstrs, hlen]
  exact execAll_edgesFrom (s := { s with havePrev := true, prev := BitVec.ofNat 64 (t0 + k * 0) }) rest (n := 0) (z := 0)
    ha rfl hk hfits (hlen ▸ hlt)

end Sys2Proof.Machine
end

section
/-!
THEOREMS. MFM (30_encoding.md R90 to R92): the clock bits of a valid run of cells, what a run of valid pairs and the pair after it
do to a running chunker, and the sync pattern in one (42_sync_and_clock.md R162); O32 to O34.
-/

namespace Sys2Proof.Machine

/-! ### Shift registers -/

theorem getLsbD_shiftIn {n : Nat} (v : BitVec n) (b : Bool) {i : Nat} (hi : i < n) :
    (shiftIn v b).getLsbD i = if i = 0 then b else v.getLsbD (i - 1) := by
  simp only [shiftIn, BitVec.getLsbD_or, BitVec.getLsbD_shiftLeft, BitVec.getLsbD_setWidth]
  rcases i with _ | i <;> simp [hi]

/-- Bit `i` of a register is the cell shifted in `i` cells before the last, or a bit of the register before. -/
theorem getLsbD_foldl_shiftIn {n : Nat} (bs : List Bool) (v : BitVec n) {i : Nat} (hi : i < n) :
    (bs.foldl shiftIn v).getLsbD i =
      if i < bs.length then bs.getD (bs.length - 1 - i) false else v.getLsbD (i - bs.length) := by
  induction bs generalizing v with
  | nil => rfl
  | cons b bs ih =>
    rw [List.foldl_cons, ih, List.length_cons]
    rcases Nat.lt_trichotomy i bs.length with h | rfl | h
    · rw [if_pos h, if_pos (by omega), show bs.length + 1 - 1 - i = bs.length - 1 - i + 1 by omega, List.getD_cons_succ]
    · rw [if_neg (lt_irrefl _), if_pos (by omega), getLsbD_shiftIn _ _ (by omega), if_pos (Nat.sub_self _)]
      simp
    · rw [if_neg (by omega), if_neg (by omega), getLsbD_shiftIn _ _ (by omega), if_neg (by omega), Nat.sub_sub]

/-- A frame holds its 16 cells in time order. -/
theorem frameCell_foldl_shiftIn {bs : List Bool} (hlen : bs.length = 16) (r : Word16) {i : Nat} (hi : i < 16) :
    frameCell (bs.foldl shiftIn r) i = bs.getD i false := by
  rw [frameCell, getLsbD_foldl_shiftIn bs r (by omega), if_pos (by omega), hlen, show 16 - 1 - (15 - i) = i by omega]

/-- Eight data bits leave the byte they are the bits of. -/
theorem foldl_shiftIn_dataBits (r v : Byte) : (dataBits v).foldl shiftIn r = v := by
  apply BitVec.eq_of_getLsbD_eq
  intro i hi
  have hlen : (dataBits v).length = 8 := rfl
  rw [getLsbD_foldl_shiftIn _ _ hi, hlen, if_pos hi]
  interval_cases i <;> rfl

/-! ### The clock bits of a valid run (30_encoding.md R90) -/

/-- Between two data bits 0 the clock bit is 1; data bits stand at odd places. -/
theorem mfmCells_clock {dPrev : Bool} {ds : List Bool} {j : Nat} (h1 : (mfmCells dPrev ds)[2 * j + 1]? = some false)
    (h3 : (mfmCells dPrev ds)[2 * j + 3]? = some false) : (mfmCells dPrev ds)[2 * j + 2]? = some true := by
  induction ds generalizing dPrev j with
  | nil => cases h1
  | cons d rest ih =>
    cases j with
    | zero =>
      cases rest with
      | nil => cases h3
      | cons e rest =>
        cases h1
        cases h3
        rfl
    | succ j => exact ih (j := j) h1 h3

/-- Settles O33: the pattern holds `000` at cells 2 to 4 and at cells 9 to 11, and at either alignment the middle cell of one
of the two is a clock bit that had to be 1. -/
theorem encodedDataNeverHoldsThePattern : Obligations.EncodedDataNeverHoldsThePattern := by
  intro dPrev ds before window after hcells hlen hpat
  have hzero {i : Nat} (hi : i < 16) (hbit : frameCell Config.syncPattern i = false) :
      (mfmCells dPrev ds)[before.length + i]? = some false := by
    have hw : window.getD i false = false := by rw [← frameCell_foldl_shiftIn hlen 0 hi, hpat, hbit]
    rw [hcells, List.append_assoc, List.getElem?_append_right (by omega), Nat.add_sub_cancel_left,
      List.getElem?_append_left (by omega), List.getElem?_eq_getElem (by omega)]
    rw [List.getD_eq_getElem _ _ (by omega)] at hw
    exact congrArg some hw
  have hclash {i j : Nat} (hi : i + 2 < 16) (hj : before.length + i = 2 * j + 1)
      (hbits : ∀ k < 3, frameCell Config.syncPattern (i + k) = false) : False := by
    have hat (k : Nat) (hk : k < 3) : (mfmCells dPrev ds)[2 * j + 1 + k]? = some false := by
      rw [← hj, Nat.add_assoc]
      exact hzero (by omega) (hbits k hk)
    have hclock := mfmCells_clock (hat 0 (by omega)) (hat 2 (by omega))
    have := (hat 1 (by omega)).symm.trans hclock
    cases this
  obtain ⟨m, hm | hm⟩ := Nat.even_or_odd' before.length
  · exact hclash (i := 9) (j := m + 4) (by omega) (by omega) (by decide)
  · exact hclash (i := 2) (j := m + 1) (by omega) (by omega) (by decide)

/-! ### Pairs in a running chunker (42_sync_and_clock.md R154 to R156) -/

/-- The chunker between two pairs: SYNC_SR, the clock bit last held, the start of the byte and the data bits so far. -/
def withChunker (s : State) (syncSr : Word16) (clk : Bool) (clkStart byteStart : Scaled) (dPrev : Bool) (dShift : Byte)
    (nBits : BitVec 3) : State :=
  { s with
    syncSr := syncSr
    chClk := clk
    chClkStart := clkStart
    chByteStart := byteStart
    chDprev := dPrev
    chDshift := dShift
    chNbits := nBits
    chPhase := false }

theorem withChunker_self {s : State} (hp : s.chPhase = false) :
    withChunker s s.syncSr s.chClk s.chClkStart s.chByteStart s.chDprev s.chDshift s.chNbits = s := by
  rw [withChunker, ← hp]

theorem withChunker_withChunker (s : State) (r r' : Word16) (clk clk' : Bool) (cs cs' bs bs' : Scaled) (dp dp' : Bool)
    (ds ds' : Byte) (n n' : BitVec 3) :
    withChunker (withChunker s r clk cs bs dp ds n) r' clk' cs' bs' dp' ds' n' = withChunker s r' clk' cs' bs' dp' ds' n' :=
  rfl

/-- The state in which the data cell of a pair is checked: both cells are shifted in, and the clock bit is held. -/
def pairShifted (c d : BitCell) (s : State) : State :=
  shiftSync d.bit (clockCell c.bit c.start (shiftSync c.bit s))

section Pair

variable {c d : BitCell} {s : State} {r : Word16} {clk : Bool} {clkStart byteStart : Scaled} {dPrev : Bool} {dShift : Byte}
  {n : BitVec 3} (ha : s.chActive = true) (h1 : shiftIn r c.bit ≠ Config.syncPattern)
  (h2 : shiftIn (shiftIn r c.bit) d.bit ≠ Config.syncPattern)
include ha h1 h2

/-- A pair that does not complete the pattern is a clock cell and a data cell. -/
theorem feedCells_pair_eq_dataCell :
    feedCells [c, d] (withChunker s r clk clkStart byteStart dPrev dShift n) =
      dataCell d.bit d.stop (pairShifted c d (withChunker s r clk clkStart byteStart dPrev dShift n)) := by
  have hclock := CellStep.clock (s := withChunker s r clk clkStart byteStart dPrev dShift n) h1 ha rfl
  rw [feedCells_cons, cellStep_eq_next.2 hclock, andThen_next]
  exact (andThen_next_right _).trans (exec_cell_data (start := d.start) h2 ha rfl)

/-- A pair whose clock is the required one takes its data bit. -/
theorem feedCells_goodPair (hn : n ≠ 7) (hn0 : n ≠ 0) (hc : c.bit = expectedClock dPrev d.bit) :
    feedCells [c, d] (withChunker s r clk clkStart byteStart dPrev dShift n) =
      .next (withChunker s (shiftIn (shiftIn r c.bit) d.bit) c.bit c.start byteStart d.bit (shiftIn dShift d.bit)
        (n + 1)) := by
  have hstart : (if n = 0 then c.start else byteStart) = byteStart := if_neg hn0
  have h := feedCells_pair c d [] (withChunker s r clk clkStart byteStart dPrev dShift n) ha rfl hn h1 h2 hc
  exact h.trans (congrArg (fun start => Host.Outcome.next (withChunker s _ _ _ start _ _ _)) hstart)

/-- A pair whose clock is not the required one is reported, and takes its data bit (42_sync_and_clock.md R155). -/
theorem feedCells_badPair (hn : n ≠ 7) (hn0 : n ≠ 0) (hc : c.bit ≠ expectedClock dPrev d.bit) :
    feedCells [c, d] (withChunker s r clk clkStart byteStart dPrev dShift n) =
      .next (withChunker (emit (.clkErr c.start d.stop c.bit (expectedClock dPrev d.bit)) (cntInc .clkErr s))
        (shiftIn (shiftIn r c.bit) d.bit) c.bit c.start byteStart d.bit (shiftIn dShift d.bit) (n + 1)) := by
  have hstart : (if n = 0 then c.start else byteStart) = byteStart := if_neg hn0
  have hcheck : clockCheck d.bit d.stop (pairShifted c d (withChunker s r clk clkStart byteStart dPrev dShift n)) =
      setDprev d.bit (emit (.clkErr c.start d.stop c.bit (expectedClock dPrev d.bit)) (cntInc .clkErr
        (pairShifted c d (withChunker s r clk clkStart byteStart dPrev dShift n)))) := congrArg (setDprev d.bit) (if_pos hc)
  rw [feedCells_pair_eq_dataCell ha h1 h2]
  refine (exec_mfmDataCell_bit
    (s := pairShifted c d (withChunker s r clk clkStart byteStart dPrev dShift n)) hn).trans ?_
  rw [hcheck, ← hstart]
  simp only [withChunker, takeBit, setDprev, emit, cntInc, pairShifted, shiftSync, clockCell, hstart]

/-- A pair whose clock is the required one and whose data bit is the eighth delivers the byte. -/
theorem feedCells_lastPair (hc : c.bit = expectedClock dPrev d.bit) :
    feedCells [c, d] (withChunker s r clk clkStart byteStart dPrev dShift 7) =
      spByte (shiftIn dShift d.bit)
        (withChunker s (shiftIn (shiftIn r c.bit) d.bit) c.bit c.start byteStart d.bit (shiftIn dShift d.bit) 0) := by
  have hcheck : clockCheck d.bit d.stop (pairShifted c d (withChunker s r clk clkStart byteStart dPrev dShift 7)) =
      setDprev d.bit (pairShifted c d (withChunker s r clk clkStart byteStart dPrev dShift 7)) :=
    congrArg (setDprev d.bit) (if_neg (not_not.2 hc))
  rw [feedCells_pair_eq_dataCell ha h1 h2]
  refine (exec_mfmDataCell_byte
    (s := pairShifted c d (withChunker s r clk clkStart byteStart dPrev dShift 7)) (context s) rfl).trans ?_
  rw [exec_decodeByte, hcheck]
  rfl

end Pair

/-- A clock cell and the cell that completes the pattern: the lock discards the byte (42_sync_and_clock.md R152). -/
theorem feedCells_lockingPair {c d : BitCell} {s : State} {r : Word16} {clk : Bool} {clkStart byteStart : Scaled}
    {dPrev : Bool} {dShift : Byte} {n : BitVec 3} (ha : s.chActive = true) (h1 : shiftIn r c.bit ≠ Config.syncPattern)
    (h2 : shiftIn (shiftIn r c.bit) d.bit = Config.syncPattern) (hn0 : n ≠ 0) :
    feedCells [c, d] (withChunker s r clk clkStart byteStart dPrev dShift n) =
      .next (lockStep d.bit d.stop (withChunker s Config.syncPattern c.bit c.start byteStart dPrev dShift n)) := by
  have hstart : (if n = 0 then c.start else byteStart) = byteStart := if_neg hn0
  have hclock := CellStep.clock (s := withChunker s r clk clkStart byteStart dPrev dShift n) h1 ha rfl
  have hlock := CellStep.lock (c := d)
    (s := clockCell c.bit c.start (shiftSync c.bit (withChunker s r clk clkStart byteStart dPrev dShift n))) h2
  rw [feedCells_cons, cellStep_eq_next.2 hclock, andThen_next, feedCells_cons, cellStep_eq_next.2 hlock, ← h2, ← hstart]
  simp only [lockStep_eq, withChunker, shiftSync, clockCell, hstart]
  rfl

/-- A run of valid pairs that ends before the eighth data bit, and in which no window completes the pattern, takes its data
bits. The clock bit held and its start are those of the last pair, which the next clock cell replaces. -/
theorem feedCells_mfmCells {ds : List Bool} {cs : List BitCell} {s : State}
    (hbits : cs.map BitCell.bit = mfmCells s.chDprev ds) (ha : s.chActive = true) (hp : s.chPhase = false)
    (hn : s.chNbits.toNat + ds.length ≤ 7)
    (hw : ∀ k < cs.length, ((cs.map BitCell.bit).take (k + 1)).foldl shiftIn s.syncSr ≠ Config.syncPattern) :
    ∃ clk clkStart, feedCells cs s =
      .next (withChunker s ((cs.map BitCell.bit).foldl shiftIn s.syncSr) clk clkStart
        (if s.chNbits = 0 then (cs.map BitCell.start).headD s.chByteStart else s.chByteStart)
        (ds.getLastD s.chDprev) (ds.foldl shiftIn s.chDshift) (s.chNbits + BitVec.ofNat 3 ds.length)) := by
  induction ds generalizing cs s with
  | nil =>
    obtain rfl : cs = [] := List.map_eq_nil_iff.1 hbits
    refine ⟨s.chClk, s.chClkStart, congrArg Host.Outcome.next ?_⟩
    simpa using (withChunker_self hp).symm
  | cons d ds ih =>
    obtain ⟨c0, cs, rfl, hclk, hbits⟩ := List.map_eq_cons_iff.1 hbits
    obtain ⟨c1, cs, rfl, rfl, hrest⟩ := List.map_eq_cons_iff.1 hbits
    simp only [List.length_cons] at hw hn
    have hn7 : s.chNbits ≠ 7 := fun h => by rw [h] at hn; simp at hn
    have hnext : (s.chNbits + 1).toNat = s.chNbits.toNat + 1 := by bv_omega
    have hne0 : s.chNbits + 1 ≠ 0 := fun h => by rw [h] at hnext; simp at hnext
    have hcount : s.chNbits + 1 + BitVec.ofNat 3 ds.length = s.chNbits + BitVec.ofNat 3 (ds.length + 1) := by
      rw [Nat.add_comm, BitVec.ofNat_add, BitVec.add_assoc]
      rfl
    obtain ⟨clk, clkStart, htail⟩ := ih (cs := cs)
      (s := withChunker s (shiftIn (shiftIn s.syncSr c0.bit) c1.bit) c0.bit c0.start
        (if s.chNbits = 0 then c0.start else s.chByteStart) c1.bit (shiftIn s.chDshift c1.bit) (s.chNbits + 1))
      hrest ha rfl (by simp only [withChunker, hnext]; omega) fun k hk => hw (k + 2) (by omega)
    refine ⟨clk, clkStart, (feedCells_pair c0 c1 cs s ha hp hn7 (hw 0 (by omega)) (hw 1 (by omega)) hclk).trans
      (htail.trans ?_)⟩
    rw [withChunker_withChunker, List.length_cons, ← hcount, List.getLastD_cons]
    exact congrArg (fun start => Host.Outcome.next (withChunker s _ clk clkStart start _ _ _)) (if_neg hne0)

/-! ### Frames (30_encoding.md R91) -/

/-- Cell `i` of a frame from a scaled start (log 9). -/
def frameBitCell (w : Word16) (start : Scaled) (sr : Word32) (i : Nat) : BitCell where
  bit := frameCell w i
  start := start + BitVec.ofNat 96 (i * sr.toNat)
  stop := start + BitVec.ofNat 96 ((i + 1) * sr.toNat)

/-- The pairs that begin a frame. -/
def framePairs (w : Word16) (start : Scaled) (sr : Word32) (n : Nat) : List BitCell :=
  (List.range (2 * n)).map (frameBitCell w start sr)

theorem framePairs_bits (w : Word16) (start : Scaled) (sr : Word32) (n : Nat) :
    (framePairs w start sr n).map BitCell.bit = (List.range (2 * n)).map (frameCell w) :=
  List.map_map

theorem framePairs_start (w : Word16) (start : Scaled) (sr : Word32) (n : Nat) (x : Scaled) :
    ((framePairs w start sr (n + 1)).map BitCell.start).headD x = start := by
  rw [framePairs, show 2 * (n + 1) = 2 * n + 1 + 1 from rfl, List.range_succ_eq_map]
  simp [frameBitCell]

/-- The cells of a frame up to cell `k` leave its window. -/
theorem foldl_take_frameCells (r w : Word16) {k n : Nat} (hk : k < n) (hn : n ≤ 16) :
    (((List.range n).map (frameCell w)).take (k + 1)).foldl shiftIn r = window r w k := by
  rw [← List.map_take, List.take_range, min_eq_left (by omega), foldl_shiftIn_frameCells r w (by omega)]

/-- The valid pairs that begin a frame at a byte boundary, before its eighth data bit. -/
theorem feedCells_framePairs {d : Bool} {ds : List Bool} {n : Nat} {w : Word16} (start : Scaled) (sr : Word32) {s : State}
    (ha : s.chActive = true) (hp : s.chPhase = false) (hn : s.chNbits = 0) (hlen : ds.length = n) (h7 : n < 7)
    (hbits : (List.range (2 * (n + 1))).map (frameCell w) = mfmCells s.chDprev (d :: ds))
    (hw : ∀ k < 2 * (n + 1), window s.syncSr w k ≠ Config.syncPattern) :
    ∃ clk clkStart, feedCells (framePairs w start sr (n + 1)) s =
      .next (withChunker s (window s.syncSr w (2 * n + 1)) clk clkStart start (ds.getLastD d)
        ((d :: ds).foldl shiftIn s.chDshift) (BitVec.ofNat 3 (n + 1))) := by
  have hfold := foldl_shiftIn_frameCells s.syncSr w (k := 2 * n + 1) (by omega)
  obtain ⟨clk, clkStart, h⟩ := feedCells_mfmCells (cs := framePairs w start sr (n + 1))
    ((framePairs_bits ..).trans hbits) ha hp
    (by rw [hn, List.length_cons, hlen]; exact (Nat.zero_add _).trans_le (by omega))
    (fun k hk => by
      have hk : k < 2 * (n + 1) := by simpa [framePairs] using hk
      rw [framePairs_bits, foldl_take_frameCells _ _ hk (by omega)]
      exact hw k hk)
  refine ⟨clk, clkStart, h.trans ?_⟩
  rw [framePairs_bits, framePairs_start, show 2 * (n + 1) = 2 * n + 1 + 1 from rfl, hfold, if_pos hn, hn,
    List.getLastD_cons, List.length_cons, hlen]
  exact congrArg (fun n => Host.Outcome.next (withChunker s _ clk clkStart start _ _ n)) (BitVec.zero_add _)

/-- A frame of eight valid pairs at a byte boundary, in which no window completes the pattern, delivers its byte: seven pairs
take seven data bits, and the eighth completes it. -/
theorem feedCells_validFrame {w : Word16} {v : Byte} (start : Scaled) (sr : Word32) {s : State} (ha : s.chActive = true)
    (hp : s.chPhase = false) (hn : s.chNbits = 0)
    (hcells : (List.range 16).map (frameCell w) = mfmCells s.chDprev (dataBits v))
    (hw : ∀ k < 16, window s.syncSr w k ≠ Config.syncPattern) :
    feedCells (frameCells w start sr) s =
      spByte v (withChunker s w (expectedClock (v.getLsbD 1) (v.getLsbD 0)) (start + BitVec.ofNat 96 (14 * sr.toNat)) start
        (v.getLsbD 0) v 0) := by
  have hclock : frameCell w 14 = expectedClock (v.getLsbD 1) (v.getLsbD 0) := congrArg (List.getD · 14 false) hcells
  have hdata : frameCell w 15 = v.getLsbD 0 := congrArg (List.getD · 15 false) hcells
  have h14 : window s.syncSr w 14 = shiftIn (window s.syncSr w 13) (frameCell w 14) := window_succ s.syncSr w 13 (by omega)
  have h15 : window s.syncSr w 15 = shiftIn (window s.syncSr w 14) (frameCell w 15) := window_succ s.syncSr w 14 (by omega)
  have hwin14 := hw 14 (by omega)
  have hwin15 := hw 15 (by omega)
  obtain ⟨clk, clkStart, hpairs⟩ := feedCells_framePairs (n := 6) (d := v.getLsbD 7)
    (ds := [v.getLsbD 6, v.getLsbD 5, v.getLsbD 4, v.getLsbD 3, v.getLsbD 2, v.getLsbD 1]) start sr ha hp hn rfl (by omega)
    (congrArg (List.take 14) hcells) fun k hk => hw k (by omega)
  rw [h15, h14] at hwin15
  rw [h14] at hwin14
  have hframe : frameCells w start sr =
    framePairs w start sr (6 + 1) ++ [frameBitCell w start sr 14, frameBitCell w start sr 15] := rfl
  have hreg : shiftIn (shiftIn (window s.syncSr w 13) (frameCell w 14)) (frameCell w 15) = w := by
    rw [← h14, ← h15, window_last]
  have hbits : shiftIn (([v.getLsbD 7, v.getLsbD 6, v.getLsbD 5, v.getLsbD 4, v.getLsbD 3, v.getLsbD 2,
    v.getLsbD 1]).foldl shiftIn s.chDshift) (v.getLsbD 0) = v := foldl_shiftIn_dataBits s.chDshift v
  have hlast := feedCells_lastPair (c := frameBitCell w start sr 14) (d := frameBitCell w start sr 15) (clk := clk)
    (clkStart := clkStart) (byteStart := start) (dPrev := v.getLsbD 1)
    (dShift := [v.getLsbD 7, v.getLsbD 6, v.getLsbD 5, v.getLsbD 4, v.getLsbD 3, v.getLsbD 2, v.getLsbD 1].foldl shiftIn
      s.chDshift) ha hwin14 hwin15 (hclock.trans (hdata ▸ rfl))
  rw [hframe, feedCells_append, hpairs, andThen_next]
  refine hlast.trans ?_
  rw [show (frameBitCell w start sr 15).bit = frameCell w 15 from rfl,
    show (frameBitCell w start sr 14).bit = frameCell w 14 from rfl, hreg, hclock, hdata, hbits]
  rfl

/-- The cells of the frame of a byte are those of its data bits. -/
theorem mfmFrame_cells (dPrev : Bool) (v : Byte) :
    (List.range 16).map (frameCell (mfmFrame dPrev v)) = mfmCells dPrev (dataBits v) := by
  apply List.ext_getElem
  · rfl
  · intro i hi hi'
    have hi : i < 16 := hi'
    rw [List.getElem_map, List.getElem_range, mfmFrame, frameCell_foldl_shiftIn rfl 0 hi, List.getD_eq_getElem]

/-! ### The obligations -/

/-- Settles O32: seven valid pairs take seven data bits (`feedCells_framePairs`), and the eighth delivers the byte
(`feedCells_lastPair`). -/
theorem encodedByteReachesTheParser : Obligations.EncodedByteReachesTheParser := by
  intro s v start ha hp hn hw
  have hframe : exec (.byteFrame (mfmFrame s.chDprev v) start) s = _ :=
    feedCells_validFrame start s.cfgSr ha hp hn (mfmFrame_cells s.chDprev v) hw
  rw [hframe, exec_decodeByte, withChunker, hp, hn]
  rfl

/-- The sync pattern as a frame: five valid pairs, the pair with the missing clock, a valid pair, and the last pair. -/
theorem frameCells_syncPattern (start : Scaled) (sr : Word32) :
    frameCells Config.syncPattern start sr =
      framePairs Config.syncPattern start sr 5 ++
        ([frameBitCell Config.syncPattern start sr 10, frameBitCell Config.syncPattern start sr 11] ++
          [frameBitCell Config.syncPattern start sr 12, frameBitCell Config.syncPattern start sr 13,
            frameBitCell Config.syncPattern start sr 14, frameBitCell Config.syncPattern start sr 15]) :=
  rfl

/-- The last three pairs of the pattern: a missing clock, a valid pair, and the lock. -/
theorem feedCells_patternEnd {s : State} {r : Word16} {clk : Bool} {clkStart start : Scaled} {dShift : Byte} (sr : Word32)
    (ha : s.chActive = true) (hw : ∀ k < 15, window r Config.syncPattern k ≠ Config.syncPattern) :
    feedCells
        ([frameBitCell Config.syncPattern start sr 10, frameBitCell Config.syncPattern start sr 11] ++
          ([frameBitCell Config.syncPattern start sr 12, frameBitCell Config.syncPattern start sr 13] ++
            [frameBitCell Config.syncPattern start sr 14, frameBitCell Config.syncPattern start sr 15]))
        (withChunker s (window r Config.syncPattern 9) clk clkStart start false dShift 5) =
      .next (lockStep true (start + BitVec.ofNat 96 (16 * sr.toNat))
        (withChunker
          (emit (.clkErr (start + BitVec.ofNat 96 (10 * sr.toNat)) (start + BitVec.ofNat 96 (12 * sr.toNat)) false true)
            (cntInc .clkErr s))
          Config.syncPattern false (start + BitVec.ofNat 96 (14 * sr.toNat)) start false ([false, false].foldl shiftIn dShift)
          7)) := by
  have hnext (k : Nat) (hk : k < 15) : shiftIn (window r Config.syncPattern k) (frameCell Config.syncPattern (k + 1)) =
      window r Config.syncPattern (k + 1) := (window_succ _ _ _ hk).symm
  have hwin (k : Nat) (hk : k < 14) : shiftIn (window r Config.syncPattern k) (frameCell Config.syncPattern (k + 1)) ≠
      Config.syncPattern := hnext k (by omega) ▸ hw (k + 1) (by omega)
  have hpair (k : Nat) (hk : k < 14) : shiftIn (shiftIn (window r Config.syncPattern k)
      (frameCell Config.syncPattern (k + 1))) (frameCell Config.syncPattern (k + 2)) = window r Config.syncPattern (k + 2) :=
    (congrArg (shiftIn · _) (hnext k (by omega))).trans (hnext (k + 1) (by omega))
  have hbad := feedCells_badPair (c := frameBitCell Config.syncPattern start sr 10)
    (d := frameBitCell Config.syncPattern start sr 11) (clk := clk) (clkStart := clkStart) (byteStart := start)
    (dPrev := false) (dShift := dShift) (n := 5) ha (hwin 9 (by omega)) (hpair 9 (by omega) ▸ hw 11 (by omega)) (by decide)
    (by decide) (by decide : frameCell Config.syncPattern 10 ≠ expectedClock false (frameCell Config.syncPattern 11))
  rw [feedCells_append, hbad, andThen_next, feedCells_append,
    show shiftIn (shiftIn (window r Config.syncPattern 9) (frameBitCell Config.syncPattern start sr 10).bit)
      (frameBitCell Config.syncPattern start sr 11).bit = window r Config.syncPattern 11 from hpair 9 (by omega),
    feedCells_goodPair (c := frameBitCell Config.syncPattern start sr 12) (d := frameBitCell Config.syncPattern start sr 13)
      (s := emit _ (cntInc .clkErr s)) (dPrev := (frameBitCell Config.syncPattern start sr 11).bit) (n := 5 + 1) ha
      (hwin 11 (by omega)) (hpair 11 (by omega) ▸ hw 13 (by omega)) (by decide) (by decide)
      (by decide : frameCell Config.syncPattern 12 =
        expectedClock (frameCell Config.syncPattern 11) (frameCell Config.syncPattern 13)),
    andThen_next,
    show shiftIn (shiftIn (window r Config.syncPattern 11) (frameBitCell Config.syncPattern start sr 12).bit)
      (frameBitCell Config.syncPattern start sr 13).bit = window r Config.syncPattern 13 from hpair 11 (by omega),
    feedCells_lockingPair (c := frameBitCell Config.syncPattern start sr 14)
      (d := frameBitCell Config.syncPattern start sr 15) (s := emit _ (cntInc .clkErr s)) (n := 5 + 1 + 1) ha (hwin 13 (by omega))
      ((hpair 13 (by omega)).trans (window_last ..)) (by decide)]
  rfl

/-- Settles O34: five valid pairs (`feedCells_framePairs`), and the end of the pattern (`feedCells_patternEnd`). -/
theorem patternInARunningChunker : Obligations.PatternInARunningChunker := by
  intro s start ha hp hn hw
  obtain ⟨clk, clkStart, hpairs⟩ := feedCells_framePairs (n := 4) (d := true) (ds := [false, true, false, false])
    (w := Config.syncPattern) start s.cfgSr ha hp hn rfl (by omega) (by cases s.chDprev <;> decide) fun k hk =>
      hw k (by omega)
  have hend := feedCells_patternEnd (clk := clk) (clkStart := clkStart) (start := start)
    (dShift := [true, false, true, false, false].foldl shiftIn s.chDshift) s.cfgSr ha hw
  have hexec : exec (.byteFrame Config.syncPattern start) s = feedCells (frameCells Config.syncPattern start s.cfgSr) s := rfl
  refine (hexec.trans ?_ : exec (.byteFrame 0x4489 start) s = _)
  rw [frameCells_syncPattern, feedCells_append, hpairs, andThen_next]
  refine hend.trans ?_
  simp only [lockStep_eq, withChunker, emit, cntInc, List.append_assoc]
  rw [ha, hp, hn]
  rfl

end Sys2Proof.Machine
end

section
/-!
THEOREMS. Whole fields of the sector parser (30_encoding.md R94, R95): the bytes of an ID field establish its ID (O45), and those
of a data field yield its record (O46).
-/

namespace Sys2Proof.Machine

theorem execBytes_of_spStep {v : Byte} {s t : State} (h : SpStep v s t) (rest : List Byte) :
    execBytes (v :: rest) s = execBytes rest t := by
  have hexec : exec (decodeByte (context s) v) s = .next t := (exec_decodeByte ..).trans (spByte_eq_next.2 h)
  exact congrArg (andThen · (execBytes rest)) hexec

/-! ### ID fields (43_sector_fsm.md R183 to R193) -/

/-- An ID field up to its size byte holds the track, side and sector in the parser's registers. -/
theorem execBytes_idBytes {s : State} (h : s.fsm = .addressMark) (track side sector : Byte) (rest : List Byte) :
    execBytes (Config.idMark :: track :: side :: sector :: rest) s =
      execBytes rest { s with pTrack := track, pSide := side, pSector := sector, fsm := .idSize } := by
  rw [execBytes_of_spStep (.amId h rfl), execBytes_of_spStep (.idTrack rfl), execBytes_of_spStep (.idSide rfl),
    execBytes_of_spStep (.idSector rfl)]
  rfl

/-- Settles O45: after the four bytes before it (`execBytes_idBytes`), a valid size byte establishes the ID and the next two are
checked against it (`spIdCrcLo_eq`); an invalid one aborts the parse. -/
theorem idFieldEstablishesTheId : Obligations.IdFieldEstablishesTheId := by
  intro s track side sector c hi lo h
  refine ⟨fun hc => ?_, fun hc => ?_⟩
  · refine (execBytes_idBytes h track side sector [c, hi, lo]).trans ?_
    rw [execBytes_of_spStep (.idSizeValid rfl hc), execBytes_of_spStep (.idCrcHi rfl), execBytes_of_spStep (.idCrcLo rfl),
      spIdCrcLo_eq, ← decodedSizeOf_eq]
    rfl
  · refine (execBytes_idBytes h track side sector [c]).trans ?_
    rw [execBytes_of_spStep (.idSizeInvalid rfl hc)]
    exact congrArg Host.Outcome.next (abortParse_eq ..)

/-! ### Runs of stores -/

/-- The bytes of a payload stored from an index on. -/
def Memory.writeRun (m : List Host.Cell) (i : Nat) (vs : List Byte) : List Host.Cell :=
  match vs with
  | [] => m
  | v :: rest => Memory.writeRun (Memory.write m i v) (i + 1) rest

theorem Memory.read_writeRun_of_lt {m : List Host.Cell} {i j : Nat} (h : j < i) (vs : List Byte) :
    Memory.read (Memory.writeRun m i vs) j = Memory.read m j := by
  induction vs generalizing m i with
  | nil => rfl
  | cons v vs ih => exact (ih (by omega)).trans (Memory.read_write_ne m i j v (by omega))

theorem Memory.read_writeRun {m : List Host.Cell} (h : m.Pairwise fun x y => x.1 < y.1) (i : Nat) (vs : List Byte) {k : Nat}
    (hk : k < vs.length) : Memory.read (Memory.writeRun m i vs) (i + k) = vs[k] := by
  induction vs generalizing m i k with
  | nil => cases hk
  | cons v vs ih =>
    cases k with
    | zero => exact (Memory.read_writeRun_of_lt (by omega) vs).trans (Memory.read_write_same m i v h)
    | succ k =>
      have := ih (Memory.pairwise_write m i v h) (i + 1) (k := k) (Nat.lt_of_succ_lt_succ hk)
      rwa [Nat.add_right_comm] at this

/-- A payload stored from index 0 on is read back. -/
theorem Memory.slice_writeRun {m : List Host.Cell} (h : m.Pairwise fun x y => x.1 < y.1) (vs : List Byte) :
    Memory.slice (Memory.writeRun m 0 vs) vs.length = vs := by
  apply List.ext_getElem (Memory.slice_length ..)
  intro k hk hk'
  have := Memory.read_writeRun h 0 vs hk'
  rw [Nat.zero_add] at this
  simpa [Memory.slice] using this

/-! ### Data fields (43_sector_fsm.md R184, R194 to R196) -/

/-- The payload bytes still due, presented in order, are stored in order, and the CRC is due. -/
theorem execBytes_payload {v : Byte} {vs : List Byte} {s : State} (h : s.fsm = .data)
    (hlen : s.dataIdx.toNat + (v :: vs).length = s.dataN.toNat) (hn : s.dataN.toNat ≤ Config.bufBytes) (rest : List Byte) :
    execBytes ((v :: vs) ++ rest) s =
      execBytes rest
        { s with
          buf := Memory.writeRun s.buf s.dataIdx.toNat (v :: vs)
          dataIdx := s.dataN
          fsm := .dataCrcHi } := by
  have hbuf : Config.bufBytes = 8192 := rfl
  rw [List.length_cons] at hlen
  induction vs generalizing v s with
  | nil =>
    have hlast : s.dataIdx + 1 = s.dataN := by
      simp only [List.length_nil] at hlen
      bv_omega
    rw [List.cons_append, execBytes_of_spStep (.dataByte h (by omega)), spCountByte_stored h, if_pos hlast, hlast]
    rfl
  | cons w vs ih =>
    rw [List.length_cons] at hlen
    have hnext : (s.dataIdx + 1).toNat = s.dataIdx.toNat + 1 := by bv_omega
    have hmore : s.dataIdx + 1 ≠ s.dataN := fun heq => by rw [heq] at hnext; omega
    have hlen' : (s.dataIdx + 1).toNat + (vs.length + 1) = s.dataN.toNat := by omega
    have htail := ih (v := w)
      (s := { s with buf := Memory.write s.buf s.dataIdx.toNat v, dataIdx := s.dataIdx + 1, fsm := .data }) rfl
      hlen' hn
    rw [List.cons_append, execBytes_of_spStep (.dataByte h (by omega)), spCountByte_stored h, if_neg hmore]
    refine htail.trans ?_
    rw [hnext]
    rfl

/-- The two CRC bytes end a data field with the record of the payload it stored. -/
theorem execBytes_dataCrc {s : State} {payload : List Byte} (h : s.fsm = .dataCrcHi) (hn : s.dataN.toNat ≤ Config.bufBytes)
    (hpayload : Memory.slice s.buf s.dataN.toNat = payload) (hi lo : Byte) :
    execBytes [hi, lo] s =
      .next
        { s with
          crcHi := hi
          cntCrcErr := if hi ++ lo = crc16 (dataCheckInput payload) then s.cntCrcErr else s.cntCrcErr + 1
          cntRec := s.cntRec + 1
          out := s.out ++ [recordOf payload (hi ++ lo) s]
          fsm := .terminated } := by
  rw [execBytes_of_spStep (.dataCrcHi h), execBytes_of_spStep (s := spDataCrcHi hi s) (.dataCrcLo rfl hn),
    spRecord_eq, ← hpayload]
  rfl

/-- Settles O46: the mark opens the field, the payload is stored (`execBytes_payload`), and the last byte reads it back
(`Memory.slice_writeRun`) into the record (`spRecord_eq`). -/
theorem dataFieldYieldsItsRecord : Obligations.DataFieldYieldsItsRecord := by
  intro s payload hi lo hinv h hid hlen
  obtain ⟨hcode, hsize⟩ := hinv.idSized hid
  obtain ⟨hpos, hle⟩ := payloadSizes_bounds (hsize ▸ size_mem_payloadSizes hcode)
  obtain ⟨v, vs, rfl⟩ := List.exists_cons_of_length_pos (hlen ▸ hpos)
  have hslice : Memory.slice (Memory.writeRun s.buf 0 (v :: vs)) s.decodedSize.toNat = v :: vs :=
    hlen ▸ Memory.slice_writeRun hinv.bufCanonical.1 (v :: vs)
  have hfield := execBytes_payload (s := spAmData s) (v := v) (vs := vs) rfl ((Nat.zero_add _).trans hlen) hle [hi, lo]
  rw [execBytes_dataCrc rfl hle hslice] at hfield
  exact ⟨_, (execBytes_of_spStep (.amData h rfl hid) _).trans hfield, rfl, rfl, rfl, rfl, rfl, rfl, rfl, rfl, rfl, rfl⟩

end Sys2Proof.Machine
end

section
/-!
THEOREMS. The CRC checker (44_crc16.md): the step as R230 writes its loop (O47), and a changed byte (O50, R236).
-/

namespace Sys2Proof.Machine

theorem crcBit_eq_ite (c : Word16) (b : Bool) :
    crcBit c b = if c.getLsbD 15 ≠ b then c <<< 1 ^^^ 0x1021 else c <<< 1 :=
  if_congr Bool.xor_iff_ne rfl rfl

/-- Settles O47: the bits are fed most significant first, each as R230 writes its step (`crcBit_eq_ite`). -/
theorem crcStepIsTheLoop : Obligations.CrcStepIsTheLoop := by
  intro c x s
  simp only [← crcBit_eq_ite]
  rfl

/-! ### A changed byte (R236) -/

/-- A register that a zero bit leaves 0 was 0, so no two registers agree after the same bit. -/
theorem crcBit_injective (b : Bool) : Function.Injective (crcBit · b) := by
  intro c c' h
  have hzero : [false].foldl crcBit (c ^^^ c') = 0 := by
    have hxor := crcBit_xor c c' b b
    rw [Bool.xor_self, show crcBit c b = crcBit c' b from h, BitVec.xor_self] at hxor
    exact hxor
  have hbits := (foldl_crcBit_eq_zero [false] _ (by decide)).1 hzero
  refine BitVec.xor_eq_zero_iff.1 ((Word16.eq_iff_getLsbD_sub ..).2 fun i hi => (hbits i hi).trans ?_)
  cases i <;> simp

theorem foldl_crcBit_injective (bs : List Bool) : Function.Injective (bs.foldl crcBit) := by
  induction bs with
  | nil => exact Function.injective_id
  | cons b bs ih => exact ih.comp (crcBit_injective b)

theorem crcStep_right_injective (c : Word16) : Function.Injective (crcStep c) := by
  intro x y h
  rw [crcStep_eq_foldl_zeros, crcStep_eq_foldl_zeros] at h
  have hshift := (BitVec.xor_right_inj c).1 (foldl_crcBit_injective _ h)
  bv_omega

/-- Settles O50: the changed byte changes the register (`crcStep_right_injective`), and no bits after it undo that
(`foldl_crcBit_injective`). -/
theorem crcDetectsOneChangedByte : Obligations.CrcDetectsOneChangedByte := by
  intro before after x y hne heq
  simp only [crc16_append_eq_foldl_bits, List.flatMap_cons, List.foldl_append] at heq
  exact hne (crcStep_right_injective _ (foldl_crcBit_injective _ heq))

end Sys2Proof.Machine
end
